-- ==== Sys2Proof/Word.lean ====
section
/-! DEFINITION. The machine's words (spec/00_scope.md R8, R10, R11): every value is unsigned. -/

namespace Sys2Proof

/-- 4 bits: a key nibble, an sbox entry, an accumulator of G (R8, R16). -/
abbrev Nibble := BitVec 4

/-- 8 bits: a byte of the block, the operand ARG of a command (R8, R71). -/
abbrev Byte := BitVec 8

/-- 32 bits: a register of the window, a command word (R10, R70). -/
abbrev Word := BitVec 32

/-- The 8-byte block, byte 0 first (R8, R13, R55). -/
abbrev Block := Vector Byte 8

/-- The compression key, nibble 0 first (R8, R13). -/
abbrev Key := Vector Nibble 8

/-- The permutation box `P[0..7]`, each entry in 0..7 (R8, R13). -/
abbrev Pbox := Vector (BitVec 3) 8

/-- The substitution box `S[0..15]` (R8, R13). -/
abbrev Sbox := Vector Nibble 16

end Sys2Proof
end

