-- ==== Sys2Proof/Syntax.lean ====
section
/-! DEFINITION. The commands of spec/30_encoding.md: one constructor of `Instr` per row of
spec/opcode_table.json, each with the operands its row leaves free (R73, R74). -/

namespace Sys2Proof

/-- The operations of R73, in the order of their OP values 0x0 to 0xC. -/
inductive Op where
  | nop | encrypt | round | compress | sbox | pbox | pboxbit
  | randperm | randsbox | randpbox | enumReset | enumNext | tableRead
deriving DecidableEq, Repr

/-- The table selects of R71, in the order of their TSEL values 0 to 3. -/
inductive TSel where
  | ln | un | off | sub
deriving DecidableEq, Repr

/-- A command of R73. ARG is the 8-bit unsigned operand of R71; each command gives it one meaning. -/
inductive Instr where
  | nop
  | encrypt (rounds : Byte)
  | round (index : Byte)
  | compress (index : Byte)
  | sbox (data : Byte)
  | pbox (count : Byte)
  | pboxbit (data : Byte)
  | randperm (size : Byte)
  | randsbox
  | randpbox
  | enumReset
  | enumNext
  | tableRead (table : TSel) (index : Byte)
deriving DecidableEq, Repr

end Sys2Proof
end

