-- ==== Sys2Proof/Decode.lean ====
section
/-! DEFINITION. Command words (spec/30_encoding.md): the fields of format C (R70, R71), the decoder of R75 over the
match and mask rows of R74, the encoder, and the assembler syntax of R78. -/

namespace Sys2Proof

/-- OP, bits [3:0] (R70). -/
def opField (w : Word) : Nibble := w.extractLsb' 0 4

/-- Z0, bits [7:4], which must be 0 (R70). -/
def z0Field (w : Word) : Nibble := w.extractLsb' 4 4

/-- ARG, bits [15:8] (R70, R71). -/
def argField (w : Word) : Byte := w.extractLsb' 8 8

/-- TSEL, bits [17:16] (R70). -/
def tselField (w : Word) : BitVec 2 := w.extractLsb' 16 2

/-- Z1, bits [31:18], which must be 0 (R70). -/
def z1Field (w : Word) : BitVec 14 := w.extractLsb' 18 14

/-- The OP value of an operation (R73). -/
def Op.code : Op → Nibble
  | .nop => 0x0
  | .encrypt => 0x1
  | .round => 0x2
  | .compress => 0x3
  | .sbox => 0x4
  | .pbox => 0x5
  | .pboxbit => 0x6
  | .randperm => 0x7
  | .randsbox => 0x8
  | .randpbox => 0x9
  | .enumReset => 0xA
  | .enumNext => 0xB
  | .tableRead => 0xC

/-- The TSEL value of a table select (R71). -/
def TSel.code : TSel → BitVec 2
  | .ln => 0
  | .un => 1
  | .off => 2
  | .sub => 3

/-- The table that a TSEL value selects (R71). -/
def TSel.ofCode (v : BitVec 2) : TSel :=
  if v = 0 then .ln else if v = 1 then .un else if v = 2 then .off else .sub

/-- The number of entries of each constant table (R8, R102). -/
def TSel.size : TSel → Nat
  | .ln => 96
  | .un => 96
  | .off => 256
  | .sub => 16

/-- One row of R74: a word `w` is the command when `w & mask = pattern`; `build` makes the command from the
word's ARG and TSEL. -/
structure Row where
  mnemonic : String
  pattern : Word
  mask : Word
  build : Byte → TSel → Instr

/-- The rows of R74, in its order. -/
def rows : List Row := [
  ⟨"NOP", 0x00000000, 0xFFFFFFFF, fun _ _ => .nop⟩,
  ⟨"ENCRYPT", 0x00000001, 0xFFFF00FF, fun a _ => .encrypt a⟩,
  ⟨"ROUND", 0x00000002, 0xFFFF00FF, fun a _ => .round a⟩,
  ⟨"COMPRESS", 0x00000003, 0xFFFF00FF, fun a _ => .compress a⟩,
  ⟨"SBOX", 0x00000004, 0xFFFF00FF, fun a _ => .sbox a⟩,
  ⟨"PBOX", 0x00000005, 0xFFFF00FF, fun a _ => .pbox a⟩,
  ⟨"PBOXBIT", 0x00000006, 0xFFFF00FF, fun a _ => .pboxbit a⟩,
  ⟨"RANDPERM", 0x00000007, 0xFFFF00FF, fun a _ => .randperm a⟩,
  ⟨"RANDSBOX", 0x00000008, 0xFFFFFFFF, fun _ _ => .randsbox⟩,
  ⟨"RANDPBOX", 0x00000009, 0xFFFFFFFF, fun _ _ => .randpbox⟩,
  ⟨"ENUM_RESET", 0x0000000A, 0xFFFFFFFF, fun _ _ => .enumReset⟩,
  ⟨"ENUM_NEXT", 0x0000000B, 0xFFFFFFFF, fun _ _ => .enumNext⟩,
  ⟨"TABLE_READ", 0x0000000C, 0xFFFC00FF, fun a t => .tableRead t a⟩]

/-- Why a word is illegal (R75, R76). The core reports all of them alike, by IllegalCommand; the names are for the
reader of a decoding. -/
inductive DecodeError where
  /-- OP is 0xD, 0xE or 0xF (R76). -/
  | reservedOp
  /-- Z0 is not 0 (R70, R75). -/
  | z0NotZero
  /-- Z1 is not 0 (R70, R75). -/
  | z1NotZero
  /-- TSEL is not 0 on a command other than TABLE_READ (R75). -/
  | tselNotZero
  /-- ARG is not 0 on a command that takes none (R75). -/
  | argNotZero
deriving DecidableEq, Repr

/-- The reason given for a word that matches no row of R74, the first that applies in this order. -/
def illegalReason (w : Word) : DecodeError :=
  if 0xD ≤ opField w then .reservedOp
  else if z0Field w ≠ 0 then .z0NotZero
  else if z1Field w ≠ 0 then .z1NotZero
  else if tselField w ≠ 0 ∧ opField w ≠ Op.tableRead.code then .tselNotZero
  else .argNotZero

/-- `Decode` of R75, total on any 32-bit word: the first row that the word matches, or ILLEGAL. -/
def decode (w : Word) : Except DecodeError Instr :=
  match rows.find? (fun r => w &&& r.mask == r.pattern) with
  | some r => .ok (r.build (argField w) (TSel.ofCode (tselField w)))
  | none => .error (illegalReason w)

/-- The operation of a command (R73). -/
def Instr.op : Instr → Op
  | .nop => .nop
  | .encrypt _ => .encrypt
  | .round _ => .round
  | .compress _ => .compress
  | .sbox _ => .sbox
  | .pbox _ => .pbox
  | .pboxbit _ => .pboxbit
  | .randperm _ => .randperm
  | .randsbox => .randsbox
  | .randpbox => .randpbox
  | .enumReset => .enumReset
  | .enumNext => .enumNext
  | .tableRead _ _ => .tableRead

/-- The ARG field of a command's word: its operand, or 0 where ARG must be 0 (R73). -/
def Instr.arg : Instr → Byte
  | .nop => 0
  | .encrypt rounds => rounds
  | .round index => index
  | .compress index => index
  | .sbox data => data
  | .pbox count => count
  | .pboxbit data => data
  | .randperm size => size
  | .randsbox => 0
  | .randpbox => 0
  | .enumReset => 0
  | .enumNext => 0
  | .tableRead _ index => index

/-- The table select in a command's word: `ln`, which is 0, where TSEL must be 0 (R73). -/
def Instr.tsel : Instr → TSel
  | .nop => .ln
  | .encrypt _ => .ln
  | .round _ => .ln
  | .compress _ => .ln
  | .sbox _ => .ln
  | .pbox _ => .ln
  | .pboxbit _ => .ln
  | .randperm _ => .ln
  | .randsbox => .ln
  | .randpbox => .ln
  | .enumReset => .ln
  | .enumNext => .ln
  | .tableRead table _ => table

/-- The word of a command (R78): `OP | ARG << 8 | TSEL << 16`, with Z0 and Z1 zero. -/
def encode (i : Instr) : Word :=
  i.op.code.zeroExtend 32 ||| (i.arg.zeroExtend 32 <<< 8) ||| (i.tsel.code.zeroExtend 32 <<< 16)

/-- An immediate operand in the syntax of R78, in decimal. -/
def immediate (v : Byte) : String := "#" ++ toString v.toNat

/-- The name of a table in the syntax of `tread` (R78). -/
def TSel.name : TSel → String
  | .ln => "ln"
  | .un => "un"
  | .off => "off"
  | .sub => "sub"

/-- A command in the assembler syntax of R78. -/
def Instr.assembly : Instr → String
  | .nop => "nop"
  | .encrypt rounds => "encrypt " ++ immediate rounds
  | .round index => "round " ++ immediate index
  | .compress index => "compress " ++ immediate index
  | .sbox data => "sbox " ++ immediate data
  | .pbox count => "pbox " ++ immediate count
  | .pboxbit data => "pboxbit " ++ immediate data
  | .randperm size => "randperm " ++ immediate size
  | .randsbox => "randsbox"
  | .randpbox => "randpbox"
  | .enumReset => "enum.reset"
  | .enumNext => "enum.next"
  | .tableRead table index => "tread " ++ table.name ++ ", " ++ immediate index

/-- The command that this decoder reads from an opcode-table word whose bits are `w`: every command is one
32-bit word (R70), the bits above `nbits` are 0, and a number of more than 32 bits is no command word. -/
def decodeTableWord (nbits w : Nat) : Option Instr :=
  if w % 2 ^ nbits < 2 ^ 32 then (decode (BitVec.ofNat 32 (w % 2 ^ nbits))).toOption else none

end Sys2Proof
end

