-- ==== Sys2Proof/Config.lean ====
section
/-! DEFINITION. What an implementation fixes and what the spec leaves open: the constant tables
`AUT64_TABLES` (spec/00_scope.md R9, spec/40_tables.md), the window's base address (spec/20_memory.md R50), and
the one free value of the model. The opaque constants have no body: no proof can see what they are. -/

namespace Sys2Proof

/-- The candidate TABLE_OFFSET of R98, row by row. ASSUMED: from general knowledge, not normative (log 2). -/
def Config.candidateOffsetRows : Vector (Vector Nibble 16) 16 := #v[
  #v[0, 0, 0, 0, 0, 0, 0, 0, 0, 0, 0, 0, 0, 0, 0, 0],
  #v[0, 1, 2, 3, 4, 5, 6, 7, 8, 9, 0xA, 0xB, 0xC, 0xD, 0xE, 0xF],
  #v[0, 2, 4, 6, 8, 0xA, 0xC, 0xE, 3, 1, 7, 5, 0xB, 9, 0xF, 0xD],
  #v[0, 3, 6, 5, 0xC, 0xF, 0xA, 9, 0xB, 8, 0xD, 0xE, 7, 4, 1, 2],
  #v[0, 4, 8, 0xC, 3, 7, 0xB, 0xF, 6, 2, 0xE, 0xA, 5, 1, 0xD, 9],
  #v[0, 5, 0xA, 0xF, 7, 2, 0xD, 8, 0xE, 0xB, 4, 1, 9, 0xC, 3, 6],
  #v[0, 6, 0xC, 0xA, 0xB, 0xD, 7, 1, 5, 3, 9, 0xF, 0xE, 8, 2, 4],
  #v[0, 7, 0xE, 9, 0xF, 8, 1, 6, 0xD, 0xA, 3, 4, 2, 5, 0xC, 0xB],
  #v[0, 8, 3, 0xB, 6, 0xE, 5, 0xD, 0xC, 4, 0xF, 7, 0xA, 2, 9, 1],
  #v[0, 9, 1, 8, 2, 0xB, 3, 0xA, 4, 0xD, 5, 0xC, 6, 0xF, 7, 0xE],
  #v[0, 0xA, 7, 0xD, 0xE, 4, 9, 3, 0xF, 5, 8, 2, 1, 0xB, 6, 0xC],
  #v[0, 0xB, 5, 0xE, 0xA, 1, 0xF, 4, 7, 0xC, 2, 9, 0xD, 6, 8, 3],
  #v[0, 0xC, 0xB, 7, 5, 9, 0xE, 2, 0xA, 6, 1, 0xD, 0xF, 3, 4, 8],
  #v[0, 0xD, 9, 4, 1, 0xC, 8, 5, 2, 0xF, 0xB, 6, 3, 0xE, 0xA, 7],
  #v[0, 0xE, 0xF, 1, 0xD, 3, 2, 0xC, 9, 7, 6, 8, 4, 0xA, 0xB, 5],
  #v[0, 0xF, 0xD, 2, 9, 6, 4, 0xB, 1, 0xE, 0xC, 3, 8, 7, 5, 0xA]]

/-- The candidate TABLE_SUB of R98. ASSUMED (log 2). -/
def Config.candidateSub : Vector Nibble 16 :=
  #v[0, 1, 9, 0xE, 0xD, 0xB, 7, 6, 0xF, 2, 0xC, 5, 0xA, 4, 3, 8]

/-- One candidate index table of R98: row `r` is `b XOR masks[r]`. ASSUMED (log 2). -/
def Config.candidateIndex (masks : Vector (BitVec 3) 12) : Vector (BitVec 3) 96 :=
  Vector.ofFn fun i => BitVec.ofNat 3 (i.val % 8) ^^^ masks[i.val / 8]

/-- `AUT64_TABLES` (R9, R34): the four tables with the sizes and ranges of R8 and the properties R93 to R97,
carried as proofs, so that no value of this type breaks R100. The ranges of R90 and R91 are the entry widths. The
default of each field is the candidate of R98, ASSUMED; it serves as the witness that such tables exist and as the
tables of the model's own tests, and nothing else rests on it (log 2). -/
structure Aut64Tables where
  /-- TABLE_LN: entry `8*round + b` is a key index (R90). -/
  ln : Vector (BitVec 3) 96 := Config.candidateIndex #v[4, 5, 6, 7, 0, 1, 2, 3, 5, 4, 7, 6]
  /-- TABLE_UN: entry `8*round + b` is a key index (R91). -/
  un : Vector (BitVec 3) 96 := Config.candidateIndex #v[1, 0, 3, 2, 5, 4, 7, 6, 3, 2, 1, 0]
  /-- TABLE_OFFSET: entry `16*k + n` (R92). -/
  offset : Vector Nibble 256 := Vector.ofFn fun i => Config.candidateOffsetRows[i.val / 16][i.val % 16]
  /-- TABLE_SUB (R97). -/
  sub : Vector Nibble 16 := Config.candidateSub
  /-- R93: TABLE_OFFSET is symmetric. -/
  offset_symmetric : ∀ k n : Fin 16, offset[16 * k.val + n.val] = offset[16 * n.val + k.val] := by
    decide +kernel
  /-- R94: row 0 is constant zero. -/
  offset_row_zero : ∀ n : Fin 16, offset[n.val] = 0 := by decide +kernel
  /-- R95: row 1 is the identity. -/
  offset_row_one : ∀ n : Fin 16, offset[16 + n.val] = BitVec.ofNat 4 n.val := by decide +kernel
  /-- R96: every row 1 to 15 has no entry twice, so that it is a permutation of 0..15. -/
  offset_row_perm : ∀ k i j : Fin 16, k ≠ 0 →
      offset[16 * k.val + i.val] = offset[16 * k.val + j.val] → i = j := by decide +kernel
  /-- R97: TABLE_SUB is a permutation of 0..15. -/
  sub_perm : ∀ i j : Fin 16, sub[i] = sub[j] → i = j := by decide +kernel
deriving Inhabited

/-- The tables of this machine: any that satisfy R90 to R97 (R9, R100, 93_implementation_defined.md U15).
No body: no entry beyond those properties can be proved (log 2). -/
opaque Config.tables : Aut64Tables

/-- `AUT64_BASE`, where the platform puts the register window (R50, U16). No body (log 13). -/
opaque Config.aut64Base : Nat

/-- The platform address of a byte offset in the register window (R50). -/
def Config.platformAddress (offset : BitVec 8) : Nat := Config.aut64Base + offset.toNat

/-- The value that `PermBlock` of a block and a pbox leaves at a position that no entry of the pbox names.
R134 gives it no value; it arises only for a pbox that is no bijection, which no command applies (R206). No
body: a free value (log 9). -/
opaque Config.permHole : Block → Pbox → Fin 8 → Byte

end Sys2Proof
end

