-- ==== Sys2Proof/Machine/State.lean ====
section
/-! DEFINITION. The machine's state as plain data (spec/10_state.md R20 to R46), what can act on it from outside,
the reasons a step can stop, and the state after reset (R46, spec/70_reset_and_hazards.md R230). -/

namespace Sys2Proof.Machine

/-- The sequencer phases of R38, in the order of their codes 0 to 8. The reserved codes 9 to 15 are never entered
and have no constructor (log 1). -/
inductive Phase where
  | idle | perm | comp | sub1 | bperm | sub2 | fb | wb | sample
deriving DecidableEq, Repr

/-- The error codes 0 to 10 of spec/60_exceptions.md R201, in the order of their values. The reserved codes 11 to 15
are never produced and have no constructor (log 1). -/
inductive ErrCode where
  | none | invalidBlockLength | invalidPermutation | invalidSubstitution | roundIndexOutOfRange
  | invalidKeyNibble | degenerateInverseLookup | illegalCommand | keyEnumExhausted
  | permSizeUnsupported | tableIndexOutOfRange
deriving DecidableEq, Repr

/-- A host operation on the register bus: `MemRead` and `MemWrite` at a byte offset with a width in bytes (R14, R52),
and the polling loop `wait` (R81). -/
inductive HostOp where
  | read (offset : BitVec 8) (width : Nat)
  | write (offset : BitVec 8) (width : Nat) (value : Word)
  | wait
deriving DecidableEq, Repr

/-- What happens next to the core: a host operation, a slot in which the core takes a core step if one is enabled, or
an assertion of the reset input `rst` (R18, R58, R188, R230). -/
inductive Event where
  | host (op : HostOp)
  | core
  | rst
deriving DecidableEq, Repr

/-- Everything the spec gives the machine, one field per register or internal element. The last three fields are the
model's own, for what stands outside the core. -/
structure State where
  /-- CTRL[0], IRQ_EN (R29). -/
  irqEn : Bool
  /-- CTRL[1], STRICT_KEY (R29, R30). -/
  strictKey : Bool
  /-- STATUS[0], BUSY (R31). -/
  busy : Bool
  /-- STATUS[1], DONE (R31). -/
  done : Bool
  /-- STATUS[2], ERR (R31). -/
  err : Bool
  /-- STATUS[7:4], ERRCODE (R31, R201). -/
  errCode : ErrCode
  /-- STATUS[8], WBUSY (R31). -/
  wbusy : Bool
  /-- BLOCK_LO, bytes 0 to 3 of the block (R22). -/
  blockLo : Word
  /-- BLOCK_HI, bytes 4 to 7 of the block (R22). -/
  blockHi : Word
  /-- KEYREG (R23). -/
  keyReg : Word
  /-- PBOX[23:0]; bits [31:24] hold no state (R24). -/
  pbox : BitVec 24
  /-- SBOX_LO, entries 0 to 7 of the sbox (R25). -/
  sboxLo : Word
  /-- SBOX_HI, entries 8 to 15 of the sbox (R25). -/
  sboxHi : Word
  /-- RESULT[7:0]; bits [31:8] hold no state (R26). -/
  result : Byte
  /-- WORK[0..7], the working block (R36). -/
  work : Block
  /-- R5, the upper accumulator of G (R37). -/
  r5 : Nibble
  /-- R6, the lower accumulator of G (R37). -/
  r6 : Nibble
  /-- PHASE (R38). -/
  phase : Phase
  /-- RCTR, the round counter (R39). -/
  rctr : BitVec 4
  /-- RLIMIT, the bound at which the round loop stops (R39). -/
  rlimit : BitVec 4
  /-- BPOS, the byte position of G (R40). -/
  bpos : BitVec 3
  /-- PITER, the pbox iterations left (R41). -/
  piter : Byte
  /-- T, the byte latch (R42). -/
  t : Byte
  /-- OPL, the accepted command's OP (R42). -/
  opl : Op
  /-- ARGL, the accepted command's ARG (R42). -/
  argl : Byte
  /-- TSELL, the accepted command's TSEL (R42). -/
  tsell : TSel
  /-- STRICTL, CTRL.STRICT_KEY at accept (R42). -/
  strictl : Bool
  /-- ENUM_CUR[0..7], the next tuple to be yielded (R43). -/
  enumCur : Key
  /-- ENUM_VALID (R43). -/
  enumValid : Bool
  /-- SN, the sampler's target size (R44). -/
  sn : BitVec 5
  /-- SW, the sampler's sample width (R44). -/
  sw : BitVec 3
  /-- SEEN, the values collected so far as a mask (R44). -/
  seen : BitVec 16
  /-- CNT, how many values have been collected (R44). -/
  cnt : BitVec 5
  /-- BUF[0..15], the collected values in collection order (R44). -/
  buf : Vector Nibble 16
  /-- The model's own: the events still to come, oldest first (R58, log 4). -/
  schedule : List Event
  /-- The model's own: the valid samples that the random-bit port will still give, oldest first (R113, R231, log 3). -/
  rngIn : List Nibble
  /-- The model's own: what the last host read returned, the bus's read data (R14, R231, log 6). -/
  rdata : Word
deriving DecidableEq, Repr

/-- Why the machine stops for good. Each is raised by a core step in a state that no run from reset reaches, where the
spec names no transition. All are safe: the model stops where the spec says nothing (log 8). -/
inductive Fault where
  /-- A core step is enabled (BUSY = 1) in phase IDLE, from which R187 leads only by an accept. Safe. -/
  | coreStepInIdle
  /-- A COMP step with RCTR above 11, for which TABLE_LN and TABLE_UN have no entry (R39, R90). Safe. -/
  | roundIndexBeyondTables
  /-- A SAMPLE step that would collect a 17th value, for which BUF has no entry (R44). Safe. -/
  | samplerOverrun
deriving DecidableEq, Repr

/-- Why the model gives no next state. -/
inductive Refusal where
  /-- An instruction that has no meaning yet: raised by `exec`'s arm. Safe. No arm raises it now. -/
  | notModelled (mnemonic : String)
  /-- A host access that is not 32 bits wide or not at a multiple of 4: raised by the bus. The spec says that a model
  refuses it (R52, 93_implementation_defined.md U1). Safe (log 7). -/
  | accessOutsideInterface
deriving DecidableEq, Repr

/-- The machine right after reset (R46). The fields whose reset value R46 leaves unspecified are 0, NOP or `ln`
(DESIGN CHOICE, log 5); the model's own fields are empty or 0 (DESIGN CHOICE, logs 3, 4 and 6). -/
def State.reset : State where
  irqEn := false
  strictKey := false
  busy := false
  done := false
  err := false
  errCode := .none
  wbusy := false
  blockLo := 0
  blockHi := 0
  keyReg := 0
  pbox := 0
  sboxLo := 0
  sboxHi := 0
  result := 0
  work := Vector.replicate 8 0
  r5 := 0
  r6 := 0
  phase := .idle
  rctr := 0
  rlimit := 0
  bpos := 0
  piter := 0
  t := 0
  opl := .nop
  argl := 0
  tsell := .ln
  strictl := false
  enumCur := Vector.replicate 8 1
  enumValid := true
  sn := 0
  sw := 0
  seen := 0
  cnt := 0
  buf := Vector.replicate 16 0
  schedule := []
  rngIn := []
  rdata := 0

end Sys2Proof.Machine
end

