-- ==== Sys2Proof/Machine/Operands.lean ====
section
/-! DEFINITION. How the packed registers are read as sequences and written from them (spec/10_state.md R22 to R27,
spec/20_memory.md R55, R56), and the lookups in the constant tables (spec/40_tables.md). -/

namespace Sys2Proof.Machine

/-- Byte `i` of a 32-bit register: bits [8i+7:8i] (R22, R56). -/
def byteOf (w : Word) (i : Fin 4) : Byte := w.extractLsb' (8 * i.val) 8

/-- Nibble `i` of a 32-bit register: bits [4i+3:4i] (R23, R25, R56). -/
def nibbleOf (w : Word) (i : Fin 8) : Nibble := w.extractLsb' (4 * i.val) 4

/-- A register from its four bytes, byte 0 lowest (R56). -/
def packBytes (b0 b1 b2 b3 : Byte) : Word :=
  b0.zeroExtend 32 ||| (b1.zeroExtend 32 <<< 8) ||| (b2.zeroExtend 32 <<< 16) ||| (b3.zeroExtend 32 <<< 24)

/-- A register from its eight nibbles, nibble 0 lowest (R56). -/
def packNibbles (k : Vector Nibble 8) : Word :=
  k[0].zeroExtend 32 |||
  (k[1].zeroExtend 32 <<< 4) |||
  (k[2].zeroExtend 32 <<< 8) |||
  (k[3].zeroExtend 32 <<< 12) |||
  (k[4].zeroExtend 32 <<< 16) |||
  (k[5].zeroExtend 32 <<< 20) |||
  (k[6].zeroExtend 32 <<< 24) |||
  (k[7].zeroExtend 32 <<< 28)

/-- The block from BLOCK_LO and BLOCK_HI (R22). -/
def blockOf (lo hi : Word) : Block :=
  #v[byteOf lo 0, byteOf lo 1, byteOf lo 2, byteOf lo 3,
     byteOf hi 0, byteOf hi 1, byteOf hi 2, byteOf hi 3]

/-- BLOCK_LO of a block (R22). -/
def blockLoOf (b : Block) : Word := packBytes b[0] b[1] b[2] b[3]

/-- BLOCK_HI of a block (R22). -/
def blockHiOf (b : Block) : Word := packBytes b[4] b[5] b[6] b[7]

/-- The key from KEYREG: `KEY[i] = KEYREG[4i+3:4i]` (R23). -/
def keyOf (w : Word) : Key := Vector.ofFn fun i => nibbleOf w i

/-- The pbox from PBOX: `P[i] = PBOX[3i+2:3i]` (R24). -/
def pboxOf (w : BitVec 24) : Pbox := Vector.ofFn fun i => w.extractLsb' (3 * i.val) 3

/-- PBOX of a pbox (R24, R110). -/
def packPbox (p : Pbox) : BitVec 24 :=
  p[0].zeroExtend 24 |||
  (p[1].zeroExtend 24 <<< 3) |||
  (p[2].zeroExtend 24 <<< 6) |||
  (p[3].zeroExtend 24 <<< 9) |||
  (p[4].zeroExtend 24 <<< 12) |||
  (p[5].zeroExtend 24 <<< 15) |||
  (p[6].zeroExtend 24 <<< 18) |||
  (p[7].zeroExtend 24 <<< 21)

/-- The sbox from SBOX_LO and SBOX_HI (R25). -/
def sboxOf (lo hi : Word) : Sbox :=
  Vector.ofFn fun j =>
    if h : j.val < 8 then nibbleOf lo ⟨j.val, h⟩ else nibbleOf hi ⟨j.val - 8, by omega⟩

/-- Entries 0 to 7 of an sbox, which SBOX_LO packs (R25). -/
def sboxLow (s : Sbox) : Vector Nibble 8 := Vector.ofFn fun j => s[j.val]

/-- Entries 8 to 15 of an sbox, which SBOX_HI packs (R25). -/
def sboxHigh (s : Sbox) : Vector Nibble 8 := Vector.ofFn fun j => s[j.val + 8]

/-- BLOCK as a sequence of bytes (R22). -/
def State.block (s : State) : Block := blockOf s.blockLo s.blockHi

/-- KEY, the nibbles of KEYREG (R23). -/
def State.key (s : State) : Key := keyOf s.keyReg

/-- P, the entries of PBOX (R24). -/
def State.perm (s : State) : Pbox := pboxOf s.pbox

/-- S, the entries of SBOX (R25). -/
def State.subst (s : State) : Sbox := sboxOf s.sboxLo s.sboxHi

/-- A nibble as an index into a sequence of 16 (R11: every value is unsigned). -/
def nibbleIndex (n : Nibble) : Fin 16 := ⟨n.toNat, n.isLt⟩

/-- A 3-bit value as an index into a sequence of 8. -/
def octalIndex (n : BitVec 3) : Fin 8 := ⟨n.toNat, n.isLt⟩

/-- The low nibble of a byte, `byte & 0xF` (R55). -/
def lowNibble (b : Byte) : Nibble := b.extractLsb' 0 4

/-- The high nibble of a byte, `(byte >> 4) & 0xF` (R55). -/
def highNibble (b : Byte) : Nibble := b.extractLsb' 4 4

/-- A byte from its nibbles, `low | (high << 4)` (R55). -/
def joinNibbles (high low : Nibble) : Byte := low.zeroExtend 8 ||| (high.zeroExtend 8 <<< 4)

/-- `TABLE_OFFSET[16k + n]` (R92). -/
def offsetAt (tables : Aut64Tables) (k n : Nibble) : Nibble :=
  tables.offset[16 * (nibbleIndex k).val + (nibbleIndex n).val]

/-- `TABLE_SUB[k]` (R97). -/
def subAt (tables : Aut64Tables) (k : Nibble) : Nibble := tables.sub[nibbleIndex k]

/-- `K[TABLE_LN[8r + b]]`, the key nibble combined with the lower nibble of byte `b` in round `r` (R90). -/
def lowerKey (tables : Aut64Tables) (key : Key) (r : Fin 12) (b : Fin 8) : Nibble :=
  key[octalIndex tables.ln[8 * r.val + b.val]]

/-- `K[TABLE_UN[8r + b]]`, the key nibble combined with the upper nibble of byte `b` in round `r` (R91). -/
def upperKey (tables : Aut64Tables) (key : Key) (r : Fin 12) (b : Fin 8) : Nibble :=
  key[octalIndex tables.un[8 * r.val + b.val]]

/-- Entry `a` of the table that a TSEL value selects, zero-extended to a byte; `none` where the table has no such
entry (R102). -/
def tableEntry (tables : Aut64Tables) (t : TSel) (a : Byte) : Option Byte :=
  match t with
  | .ln => (tables.ln[a.toNat]?).map (·.zeroExtend 8)
  | .un => (tables.un[a.toNat]?).map (·.zeroExtend 8)
  | .off => (tables.offset[a.toNat]?).map (·.zeroExtend 8)
  | .sub => (tables.sub[a.toNat]?).map (·.zeroExtend 8)

end Sys2Proof.Machine
end

