-- ==== Sys2Proof/Machine/Flags.lean ====
section
/-! DEFINITION. The status and control registers as words, the interrupt output, and the checks that a command makes
at accept (spec/10_state.md R29 to R33, spec/60_exceptions.md R201, R205 to R214). The core has no other flags (R33). -/

namespace Sys2Proof.Machine

/-- The 4-bit code of a phase (R38). -/
def Phase.code : Phase → BitVec 4
  | .idle => 0
  | .perm => 1
  | .comp => 2
  | .sub1 => 3
  | .bperm => 4
  | .sub2 => 5
  | .fb => 6
  | .wb => 7
  | .sample => 8

/-- The 4-bit value of an error code (R201). -/
def ErrCode.code : ErrCode → BitVec 4
  | .none => 0
  | .invalidBlockLength => 1
  | .invalidPermutation => 2
  | .invalidSubstitution => 3
  | .roundIndexOutOfRange => 4
  | .invalidKeyNibble => 5
  | .degenerateInverseLookup => 6
  | .illegalCommand => 7
  | .keyEnumExhausted => 8
  | .permSizeUnsupported => 9
  | .tableIndexOutOfRange => 10

/-- A flag at a bit position of a 32-bit register. -/
def flagAt (b : Bool) (position : Nat) : Word := (BitVec.ofBool b).zeroExtend 32 <<< position

/-- STATUS as the host reads it, field by field from bit 0 up (R31): BUSY [0], DONE [1], ERR [2], ERRCODE [7:4], WBUSY [8],
ENUM_EXH [9], PHASE [15:12], RCTR [19:16], BPOS [22:20]. Every other bit is reserved and reads 0. -/
def statusWord (s : State) : Word :=
  flagAt s.busy 0 ||| flagAt s.done 1 ||| flagAt s.err 2 ||| (s.errCode.code.zeroExtend 32 <<< 4) |||
    flagAt s.wbusy 8 ||| flagAt (!s.enumValid) 9 ||| (s.phase.code.zeroExtend 32 <<< 12) |||
    (s.rctr.zeroExtend 32 <<< 16) ||| (s.bpos.zeroExtend 32 <<< 20)

/-- CTRL as the host reads it: IRQ_EN [0], STRICT_KEY [1], every other bit reserved (R29). -/
def ctrlWord (s : State) : Word := flagAt s.irqEn 0 ||| flagAt s.strictKey 1

/-- A host write of CTRL: only its two defined bits are taken (R29, R51). -/
def writeCtrl (v : Word) (s : State) : State :=
  { s with irqEn := v.getLsbD 0, strictKey := v.getLsbD 1 }

/-- A host write of STATUS: every write-1-to-clear field whose bit is 1 is cleared, and nothing else changes (R31). Bit 2
is how the host ends an error state; ERRCODE keeps its value (R212). -/
def writeStatus (v : Word) (s : State) : State :=
  { s with
    done := s.done && !v.getLsbD 1
    err := s.err && !v.getLsbD 2
    wbusy := s.wbusy && !v.getLsbD 8 }

/-- The interrupt output: `IRQ_EN & (DONE | ERR)` (R45, R214). It holds no state. -/
def irq (s : State) : Bool := s.irqEn && (s.done || s.err)

/-- `Bijective8(P)`: the 8 entries are pairwise distinct (R206). -/
def bijective8 (p : Pbox) : Bool := decide (∀ i j : Fin 8, i ≠ j → p[i] ≠ p[j])

/-- `Bijective16(S)`: the 16 entries are pairwise distinct (R207). -/
def bijective16 (s : Sbox) : Bool := decide (∀ i j : Fin 16, i ≠ j → s[i] ≠ s[j])

/-- Some key nibble is 0 (R208). -/
def hasZeroNibble (k : Key) : Bool := decide (∃ i : Fin 8, k[i] = 0)

/-- A check at accept: whether it fails, and the error it raises then (R171, R205). -/
structure Check where
  fails : Bool
  code : ErrCode
deriving DecidableEq, Repr

/-- InvalidPermutation (R206), made by a command that uses PBOX. -/
def checkPbox (s : State) : Check := ⟨!bijective8 s.perm, .invalidPermutation⟩

/-- InvalidSubstitution (R207), made by a command that uses SBOX. -/
def checkSbox (s : State) : Check := ⟨!bijective16 s.subst, .invalidSubstitution⟩

/-- RoundIndexOutOfRange (R210): `most` is 12 for a round count and 11 for a round index. -/
def checkRound (a : Byte) (most : Nat) : Check := ⟨decide (most < a.toNat), .roundIndexOutOfRange⟩

/-- InvalidKeyNibble (R208), made by a command that uses KEYREG, against STRICTL. -/
def checkKey (s : State) : Check := ⟨s.strictl && hasZeroNibble s.key, .invalidKeyNibble⟩

/-- PermSizeUnsupported (R112): n is neither 8 nor 16. -/
def checkPermSize (n : Byte) : Check := ⟨decide (n ≠ 8 ∧ n ≠ 16), .permSizeUnsupported⟩

/-- KeyEnumExhausted (R118): ENUM_VALID is 0. -/
def checkEnum (s : State) : Check := ⟨!s.enumValid, .keyEnumExhausted⟩

/-- TableIndexOutOfRange (R102): the table has no entry of that index. -/
def checkTableIndex (t : TSel) (a : Byte) : Check := ⟨decide (t.size ≤ a.toNat), .tableIndexOutOfRange⟩

/-- The first check that fails, in the order given (R205). -/
def firstFailure : List Check → Option ErrCode
  | [] => none
  | c :: rest => if c.fails then some c.code else firstFailure rest

end Sys2Proof.Machine
end

