-- ==== Sys2Proof/Machine/Ops.lean ====
section
/-! DEFINITION. The operations that every command shares: presentation, accept, raising an error and completing
(spec/44_sequencer.md R170 to R172, R186; spec/60_exceptions.md R203). -/

namespace Sys2Proof.Machine

/-- What a step or a meaning answers. -/
abbrev Result := Host.Outcome State Fault Refusal

/-- A host write that is dropped because BUSY = 1: only WBUSY changes (R57, R170, R213). -/
def dropWrite (s : State) : State := { s with wbusy := true }

/-- `raise E(code)`, the one way an error is taken: ERR and ERRCODE say so, DONE and BUSY are 0, the sequencer is IDLE, and
nothing is written back (R203). The core saves no address and goes to no handler (R200). -/
def raise (code : ErrCode) (s : State) : State :=
  { s with err := true, errCode := code, done := false, busy := false, phase := .idle }

/-- The end of a writeback step: DONE is 1, BUSY is 0, the sequencer is IDLE, and every other field keeps its
value (R186). -/
def complete (s : State) : State := { s with done := true, busy := false, phase := .idle }

/-- What every accept does first: DONE, ERR and ERRCODE are cleared (R171, R212). -/
def clearStatus (s : State) : State := { s with done := false, err := false, errCode := .none }

/-- The latches of an accept: OPL, ARGL, TSELL and STRICTL (R42, R171). -/
def latch (op : Op) (arg : Byte) (tsel : TSel) (s : State) : State :=
  { s with opl := op, argl := arg, tsell := tsel, strictl := s.strictKey }

/-- The last act of an accept: the command is in progress, in its first phase (R171, R172). -/
def start (phase : Phase) (s : State) : State := { s with busy := true, phase := phase }

/-- A command presented at CMD: dropped while BUSY = 1, else taken in the same step (R170). -/
def present (body : State → Result) (s : State) : Result :=
  if s.busy then .next (dropWrite s) else body s

/-- `Accept` of R171 for a decoded command: clear the status, latch the fields, make the command's checks in order, and on
success do its accept initialisation, which ends with `start`. -/
def accept (i : Instr) (checks : State → List Check) (init : State → State) : State → Result :=
  present fun s =>
    let s := latch i.op i.arg i.tsel (clearStatus s)
    match firstFailure (checks s) with
    | some code => .next (raise code s)
    | none => .next (init s)

/-- `Accept` of R171 for a word that decodes to no command: IllegalCommand, before anything is latched (R209). -/
def acceptIllegal : State → Result :=
  present fun s => .next (raise .illegalCommand (clearStatus s))

end Sys2Proof.Machine
end

