-- ==== Sys2Proof/Machine/Tables.lean ====
section
/-! DEFINITION. TABLE_READ and the writeback of a byte result (spec/40_tables.md R102, spec/44_sequencer.md R185). -/

namespace Sys2Proof.Machine

/-- The writeback `RESULT <- zext_32(T)` (R185). -/
def resultFromT (s : State) : State := { s with result := s.t }

/-- TABLE_READ under given tables: T takes the entry, next is the writeback (R102, R172). The check has made sure that the
entry exists. -/
def acceptTableRead (tables : Aut64Tables) (table : TSel) (index : Byte) : State → Result :=
  accept (.tableRead table index) (fun _ => [checkTableIndex table index])
    fun s => start .wb { s with t := (tableEntry tables table index).getD s.t }

/-- TABLE_READ (R102). -/
def execTableRead (table : TSel) (index : Byte) (s : State) : Result :=
  acceptTableRead Config.tables table index s

/-- TABLE_READ's writeback (R102). -/
def writebackTableRead (s : State) : State := complete (resultFromT s)

end Sys2Proof.Machine
end

