-- ==== Sys2Proof/Machine/Compress.lean ====
section
/-! DEFINITION. The compression function G, the COMP phase that computes it one byte position per core step, and COMPRESS
(spec/43_compress.md). -/

namespace Sys2Proof.Machine

/-- `InvRow(k', n)` (R151): the one i with `TABLE_OFFSET[16k' + i] = n`; `none`, the degenerate case, where the number of
such i is not one. -/
def invRow (tables : Aut64Tables) (k n : Nibble) : Option Nibble :=
  match (List.finRange 16).filter (fun i => offsetAt tables k (BitVec.ofNat 4 i.val) == n) with
  | [i] => some (BitVec.ofNat 4 i.val)
  | _ => none

/-- What byte position b ≤ 6 adds to R5 and R6, in this order, in round r (R150, R156). -/
def forwardTerms (tables : Aut64Tables) (key : Key) (r : Fin 12) (b : Fin 8) (st : Block) : Nibble × Nibble :=
  (offsetAt tables (upperKey tables key r b) (highNibble st[b]),
   offsetAt tables (lowerKey tables key r b) (lowNibble st[b]))

/-- What byte position 7 adds to R5 and R6, in this order, in round r; `none` where either inverse lookup is
degenerate (R150, R151, R156). -/
def inverseTerms (tables : Aut64Tables) (key : Key) (r : Fin 12) (st : Block) : Option (Nibble × Nibble) :=
  match invRow tables (subAt tables (lowerKey tables key r 7)) (lowNibble st[7]),
      invRow tables (subAt tables (upperKey tables key r 7)) (highNibble st[7]) with
  | some il, some iu => some (iu, il)
  | _, _ => none

/-- R5 and R6 after byte positions 0 to 6 (R150). -/
def forwardSum (tables : Aut64Tables) (key : Key) (r : Fin 12) (st : Block) : Nibble × Nibble :=
  (List.finRange 7).foldl
    (fun acc b =>
      let terms := forwardTerms tables key r b.castSucc st
      (acc.1 ^^^ terms.1, acc.2 ^^^ terms.2))
    (0, 0)

/-- `G(st, K, r)`, the source's `compress` (R150); `none` is DegenerateInverseLookup. -/
def compressG (tables : Aut64Tables) (st : Block) (key : Key) (r : Fin 12) : Option Byte :=
  (inverseTerms tables key r st).map fun terms =>
    joinNibbles ((forwardSum tables key r st).1 ^^^ terms.1) ((forwardSum tables key r st).2 ^^^ terms.2)

/-- The COMP step of a byte position b ≤ 6 (R156). -/
def compForward (tables : Aut64Tables) (r : Fin 12) (s : State) : State :=
  let terms := forwardTerms tables s.key r (octalIndex s.bpos) s.work
  { s with r6 := s.r6 ^^^ terms.2, r5 := s.r5 ^^^ terms.1, bpos := s.bpos + 1 }

/-- The COMP step of byte position 7, from what it adds to R5 and R6 (R156). -/
def compLast (terms : Nibble × Nibble) (s : State) : State :=
  { s with
    r6 := s.r6 ^^^ terms.2
    r5 := s.r5 ^^^ terms.1
    t := joinNibbles (s.r5 ^^^ terms.1) (s.r6 ^^^ terms.2)
    bpos := 0
    phase := if s.opl = .compress then .wb else .sub1 }

/-- One COMP step (R156). A degenerate inverse lookup ends the command (R151, R211). RCTR is at most 11 here (R39). -/
def compStep (tables : Aut64Tables) (s : State) : Result :=
  if h : s.rctr.toNat < 12 then
    if s.bpos = 7 then
      match inverseTerms tables s.key ⟨s.rctr.toNat, h⟩ s.work with
      | some terms => .next (compLast terms s)
      | none => .next (raise .degenerateInverseLookup s)
    else .next (compForward tables ⟨s.rctr.toNat, h⟩ s)
  else .fault .roundIndexBeyondTables

/-- COMPRESS (R155). -/
def execCompress (index : Byte) (s : State) : Result :=
  accept (.compress index) (fun s => [checkRound index 11, checkKey s])
    (fun s => start .comp
      { s with work := s.block, rctr := index.truncate 4, r5 := 0, r6 := 0, bpos := 0 }) s

/-- COMPRESS's writeback (R155). -/
def writebackCompress (s : State) : State := complete (resultFromT s)

end Sys2Proof.Machine
end

