-- ==== Sys2Proof/Machine/Primitives.lean ====
section
/-! DEFINITION. The nibble substitution unit and the permutation network (spec/42_primitives.md), and the commands SBOX,
PBOX and PBOXBIT. -/

namespace Sys2Proof.Machine

/-- `SubByte(b, S)`, the source's `apply_sbox` (R131). -/
def subByte (b : Byte) (s : Sbox) : Byte :=
  joinNibbles s[nibbleIndex (highNibble b)] s[nibbleIndex (lowNibble b)]

/-- `PermBlock(B, P)`, the source's `apply_pbox` once (R134): for i in 0..7, output byte `P[i]` is input byte `i`. For
a bijective P every output byte is written; a position that P does not name keeps a free value (log 9). -/
def permBlock (b : Block) (p : Pbox) : Block :=
  (List.finRange 8).foldl (fun o i => o.set (octalIndex p[i]) b[i]) (Vector.ofFn (Config.permHole b p))

/-- `PermBlock^n(B, P)`: PermBlock applied n times, the identity for n = 0 (R134). -/
def permBlockIter (b : Block) (p : Pbox) : Nat → Block
  | 0 => b
  | n + 1 => permBlock (permBlockIter b p n) p

/-- `PermBits(b, P)`, the source's `apply_pbox_bitwise` (R137): a set bit `i`, of weight 2^i, sets bit `P[i]`. -/
def permBits (b : Byte) (p : Pbox) : Byte :=
  (List.finRange 8).foldl (fun r i => if b[i] then r ||| ((1 : Byte) <<< p[i].toNat) else r) 0

/-- SBOX (R130). -/
def execSbox (data : Byte) (s : State) : Result :=
  accept (.sbox data) (fun s => [checkSbox s]) (fun s => start .wb { s with t := subByte data s.subst }) s

/-- PBOX (R133): the check is made for a count of 0 too. -/
def execPbox (count : Byte) (s : State) : Result :=
  accept (.pbox count) (fun s => [checkPbox s])
    (fun s => start (if count = 0 then .wb else .perm) { s with work := s.block, piter := count }) s

/-- PBOXBIT (R136). -/
def execPboxbit (data : Byte) (s : State) : Result :=
  accept (.pboxbit data) (fun s => [checkPbox s]) (fun s => start .wb { s with t := permBits data s.perm }) s

/-- The writeback `BLOCK <- WORK` (R185). -/
def blockFromWork (s : State) : State :=
  { s with blockLo := blockLoOf s.work, blockHi := blockHiOf s.work }

/-- SBOX's writeback (R130). -/
def writebackSbox (s : State) : State := complete (resultFromT s)

/-- PBOX's writeback (R133). -/
def writebackPbox (s : State) : State := complete (blockFromWork s)

/-- PBOXBIT's writeback (R136). -/
def writebackPboxbit (s : State) : State := complete (resultFromT s)

end Sys2Proof.Machine
end

