-- ==== Sys2Proof/Machine/Cipher.lean ====
section
/-! DEFINITION. The round and the encryption as functions, the remaining phase steps of the round, and the commands NOP,
ROUND and ENCRYPT (spec/44_sequencer.md R173 to R190). -/

namespace Sys2Proof.Machine

/-- `Round(st, K, P, S, r)` (R190); `none` is DegenerateInverseLookup in step 2. -/
def cipherRound (tables : Aut64Tables) (st : Block) (key : Key) (p : Pbox) (sb : Sbox) (r : Fin 12) :
    Option Block :=
  let st := permBlock st p
  (compressG tables st key r).map fun c =>
    let s1 := subByte c sb
    let s2 := permBits s1 p
    let s3 := subByte s2 sb
    st.set 7 s3

/-- `n` rounds from round index `first` on (R190). An index above 11 has no round. -/
def cipherRounds (tables : Aut64Tables) (key : Key) (p : Pbox) (sb : Sbox) :
    (n : Nat) → (first : Nat) → Block → Option Block
  | 0, _, st => some st
  | n + 1, first, st =>
    if h : first < 12 then
      (cipherRound tables st key p sb ⟨first, h⟩).bind (cipherRounds tables key p sb n (first + 1))
    else none

/-- `Encrypt(m, K, P, S, R)`: rounds 0, 1, ..., R-1 in that order, `m` itself for R = 0 (R184, R190). -/
def encryptBlock (tables : Aut64Tables) (m : Block) (key : Key) (p : Pbox) (sb : Sbox) (n : Nat) :
    Option Block :=
  cipherRounds tables key p sb n 0 m

/-- The PERM step (R178): for PBOX it counts an iteration down, else it goes on to compression. -/
def permStep (s : State) : State :=
  if s.opl = .pbox then
    { s with
      work := permBlock s.work s.perm
      piter := s.piter - 1
      phase := if s.piter - 1 = 0 then .wb else .perm }
  else { s with work := permBlock s.work s.perm, r5 := 0, r6 := 0, bpos := 0, phase := .comp }

/-- The SUB1 step (R180). -/
def sub1Step (s : State) : State := { s with t := subByte s.t s.subst, phase := .bperm }

/-- The BPERM step (R181). -/
def bpermStep (s : State) : State := { s with t := permBits s.t s.perm, phase := .sub2 }

/-- The SUB2 step (R182). -/
def sub2Step (s : State) : State := { s with t := subByte s.t s.subst, phase := .fb }

/-- The FB step (R183): feedback into WORK[7] and the round's advance. -/
def fbStep (s : State) : State :=
  { s with
    work := s.work.set 7 s.t
    rctr := s.rctr + 1
    phase := if s.rctr + 1 = s.rlimit then .wb else .perm }

/-- NOP (R173). -/
def execNop (s : State) : Result := accept .nop (fun _ => []) (start .wb) s

/-- ROUND (R174). -/
def execRound (index : Byte) (s : State) : Result :=
  accept (.round index) (fun s => [checkPbox s, checkSbox s, checkRound index 11, checkKey s])
    (fun s => start .perm
      { s with work := s.block, rctr := index.truncate 4, rlimit := index.truncate 4 + 1 }) s

/-- ENCRYPT (R175): no round is run for a count of 0, but the checks are made. -/
def execEncrypt (rounds : Byte) (s : State) : Result :=
  accept (.encrypt rounds) (fun s => [checkPbox s, checkSbox s, checkRound rounds 12, checkKey s])
    (fun s => start (if rounds = 0 then .wb else .perm)
      { s with work := s.block, rctr := 0, rlimit := rounds.truncate 4 }) s

/-- NOP's writeback: nothing but its completion (R173, R185). -/
def writebackNop (s : State) : State := complete s

/-- ROUND's writeback (R174). -/
def writebackRound (s : State) : State := complete (blockFromWork s)

/-- ENCRYPT's writeback (R175). -/
def writebackEncrypt (s : State) : State := complete (blockFromWork s)

end Sys2Proof.Machine
end

