-- ==== Sys2Proof/Machine/Keygen.lean ====
section
/-! DEFINITION. The key-material generator (spec/41_keygen.md): the permutation sampler behind RANDPERM, RANDSBOX and
RANDPBOX, and the key-register enumerator behind ENUM_RESET and ENUM_NEXT. -/

namespace Sys2Proof.Machine

/-- `Draw(w)`: the low `w` bits of a sample of the random-bit port (R14, R231). -/
def draw (w : BitVec 3) (sample : Nibble) : Nibble := sample &&& (((1 : Nibble) <<< w.toNat) - 1)

/-- The sampler's accept initialisation for n = 8 or 16 (R110, R172): no value is collected yet. -/
def startSampler (n : Byte) (s : State) : State :=
  start .sample { s with sn := n.truncate 5, sw := if n = 8 then 3 else 4, seen := 0, cnt := 0 }

/-- A new value `d` is collected: it becomes entry CNT of BUF (R111). -/
def collect (d : Nibble) (entry : Fin 16) (s : State) : State :=
  { s with
    buf := s.buf.set entry d
    seen := s.seen ||| ((1 : BitVec 16) <<< d.toNat)
    cnt := s.cnt + 1 }

/-- The end of a SAMPLE step: writeback is next when SN values are collected (R111). -/
def endSample (s : State) : State := { s with phase := if s.cnt = s.sn then .wb else .sample }

/-- One SAMPLE step (R111) with the next valid sample of the port. A value seen before is discarded. With no sample
pending, `rng_valid` is 0 and the step does not happen (R231, log 3). -/
def sampleStep (s : State) : Result :=
  match s.rngIn with
  | [] => .next s
  | sample :: rest =>
    let s := { s with rngIn := rest }
    let d := draw s.sw sample
    if s.seen.getLsbD d.toNat then .next (endSample s)
    else if h : s.cnt.toNat < 16 then .next (endSample (collect d ⟨s.cnt.toNat, h⟩ s))
    else .fault .samplerOverrun

/-- The pbox that the first 8 collected values make (R110): entry j is `BUF[j][2:0]`. -/
def pboxOfBuf (buf : Vector Nibble 16) : Pbox :=
  Vector.ofFn fun j => buf[j.val].extractLsb' 0 3

/-- The sampler's writeback (R110): PBOX when SN = 8, SBOX when SN = 16. -/
def writeSample (s : State) : State :=
  if s.sn = 8 then { s with pbox := packPbox (pboxOfBuf s.buf) }
  else if s.sn = 16 then
    { s with sboxLo := packNibbles (sboxLow s.buf), sboxHi := packNibbles (sboxHigh s.buf) }
  else s

/-- RANDPERM (R110, R112). -/
def execRandperm (size : Byte) (s : State) : Result :=
  accept (.randperm size) (fun _ => [checkPermSize size]) (startSampler size) s

/-- RANDSBOX: RANDPERM's pseudocode with n = 16; its check on n cannot fail (R114). -/
def execRandsbox (s : State) : Result :=
  accept .randsbox (fun _ => [checkPermSize 16]) (startSampler 16) s

/-- RANDPBOX: RANDPERM's pseudocode with n = 8 (R115). -/
def execRandpbox (s : State) : Result :=
  accept .randpbox (fun _ => [checkPermSize 8]) (startSampler 8) s

/-- RANDPERM's writeback (R110). -/
def writebackRandperm (s : State) : State := complete (writeSample s)

/-- RANDSBOX's writeback (R114). -/
def writebackRandsbox (s : State) : State := complete (writeSample s)

/-- RANDPBOX's writeback (R115). -/
def writebackRandpbox (s : State) : State := complete (writeSample s)

/-- `Succ` of R116 from position `i` down: a 15 becomes 1 and the next position to the left is taken, any other nibble
counts up. -/
def succFrom : (i : Nat) → i < 8 → Key → Key
  | 0, _, k => k.set 0 (k[0] + 1)
  | i + 1, h, k =>
    if k[i + 1] = 15 then succFrom i (by omega) (k.set (i + 1) 1) else k.set (i + 1) (k[i + 1] + 1)

/-- The successor of a tuple other than (15,...,15) (R116). -/
def succKey (k : Key) : Key := succFrom 7 (by omega) k

/-- The first tuple of the enumeration, (1,...,1) (R43, R116). -/
def firstKey : Key := Vector.replicate 8 1

/-- The last tuple of the enumeration, (15,...,15) (R116). -/
def lastKey : Key := Vector.replicate 8 15

/-- ENUM_RESET (R117). -/
def execEnumReset (s : State) : Result := accept .enumReset (fun _ => []) (start .wb) s

/-- ENUM_NEXT (R118). -/
def execEnumNext (s : State) : Result := accept .enumNext (fun s => [checkEnum s]) (start .wb) s

/-- The enumerator goes back to its first tuple (R117). -/
def restartEnum (s : State) : State := { s with enumCur := firstKey, enumValid := true }

/-- The enumerator yields its tuple into KEYREG and moves on (R118). -/
def yieldKey (s : State) : State :=
  if s.enumCur = lastKey then { s with keyReg := packNibbles s.enumCur, enumValid := false }
  else { s with keyReg := packNibbles s.enumCur, enumCur := succKey s.enumCur }

/-- ENUM_RESET's writeback (R117). -/
def writebackEnumReset (s : State) : State := complete (restartEnum s)

/-- ENUM_NEXT's writeback (R118). -/
def writebackEnumNext (s : State) : State := complete (yieldKey s)

end Sys2Proof.Machine
end

