-- ==== Sys2Proof/Machine/Sequencer.lean ====
section
/-! DEFINITION. The round sequencer's core step (spec/44_sequencer.md R178 to R188). -/

namespace Sys2Proof.Machine

/-- The WB step: the writeback of the command that OPL holds, and its completion (R185, R186). -/
def writeback (s : State) : State :=
  match s.opl with
  | .nop => writebackNop s
  | .encrypt => writebackEncrypt s
  | .round => writebackRound s
  | .compress => writebackCompress s
  | .sbox => writebackSbox s
  | .pbox => writebackPbox s
  | .pboxbit => writebackPboxbit s
  | .randperm => writebackRandperm s
  | .randsbox => writebackRandsbox s
  | .randpbox => writebackRandpbox s
  | .enumReset => writebackEnumReset s
  | .enumNext => writebackEnumNext s
  | .tableRead => writebackTableRead s

/-- The step of the phase that PHASE holds, under given tables (R187). -/
def phaseStep (tables : Aut64Tables) (s : State) : Result :=
  match s.phase with
  | .idle => .fault .coreStepInIdle
  | .perm => .next (permStep s)
  | .comp => compStep tables s
  | .sub1 => .next (sub1Step s)
  | .bperm => .next (bpermStep s)
  | .sub2 => .next (sub2Step s)
  | .fb => .next (fbStep s)
  | .wb => .next (writeback s)
  | .sample => sampleStep s

/-- A core step under given tables: enabled exactly when BUSY = 1, else nothing happens (R188, R221). -/
def coreStepWith (tables : Aut64Tables) (s : State) : Result :=
  if s.busy then phaseStep tables s else .next s

/-- A core step of this machine (R188). -/
def coreStep (s : State) : Result := coreStepWith Config.tables s

end Sys2Proof.Machine
end

