-- ==== Sys2Proof/Machine/Dispatch.lean ====
section
/-! DEFINITION. One arm per command: what happens in the step in which the host presents it at CMD. -/

namespace Sys2Proof.Machine

def exec (i : Instr) (s : State) : Host.Outcome State Fault Refusal :=
  match i with
  | .nop => Sys2Proof.Machine.execNop s
  | .encrypt rounds => Sys2Proof.Machine.execEncrypt rounds s
  | .round index => Sys2Proof.Machine.execRound index s
  | .compress index => Sys2Proof.Machine.execCompress index s
  | .sbox data => Sys2Proof.Machine.execSbox data s
  | .pbox count => Sys2Proof.Machine.execPbox count s
  | .pboxbit data => Sys2Proof.Machine.execPboxbit data s
  | .randperm size => Sys2Proof.Machine.execRandperm size s
  | .randsbox => Sys2Proof.Machine.execRandsbox s
  | .randpbox => Sys2Proof.Machine.execRandpbox s
  | .enumReset => Sys2Proof.Machine.execEnumReset s
  | .enumNext => Sys2Proof.Machine.execEnumNext s
  | .tableRead table index => Sys2Proof.Machine.execTableRead table index s

end Sys2Proof.Machine
end

