-- ==== Sys2Proof/Machine/Bus.lean ====
section
/-! DEFINITION. The register window (spec/20_memory.md R50 to R57), the host's operations on it, and the events that act on
the core (R58; spec/44_sequencer.md R170, R188; spec/70_reset_and_hazards.md R230). -/

namespace Sys2Proof.Machine

/-- The registers of the window (R50). -/
inductive Reg where
  | ctrl | status | cmd | result | blockLo | blockHi | keyReg | pbox | sboxLo | sboxHi | enum
deriving DecidableEq, Repr

/-- The byte offset of a register (R50). -/
def Reg.offset : Reg → BitVec 8
  | .ctrl => 0x00
  | .status => 0x04
  | .cmd => 0x08
  | .result => 0x0C
  | .blockLo => 0x10
  | .blockHi => 0x14
  | .keyReg => 0x18
  | .pbox => 0x1C
  | .sboxLo => 0x20
  | .sboxHi => 0x24
  | .enum => 0x28

/-- The registers in the order of R50's table. -/
def allRegs : List Reg :=
  [.ctrl, .status, .cmd, .result, .blockLo, .blockHi, .keyReg, .pbox, .sboxLo, .sboxHi, .enum]

/-- The register at an offset; `none` for a reserved offset (R50). -/
def regAt (offset : BitVec 8) : Option Reg := allRegs.find? fun r => r.offset == offset

/-- What a read of a register returns (R22 to R31). CMD reads 0 (R28). -/
def readReg (s : State) : Reg → Word
  | .ctrl => ctrlWord s
  | .status => statusWord s
  | .cmd => 0
  | .result => s.result.zeroExtend 32
  | .blockLo => s.blockLo
  | .blockHi => s.blockHi
  | .keyReg => s.keyReg
  | .pbox => s.pbox.zeroExtend 32
  | .sboxLo => s.sboxLo
  | .sboxHi => s.sboxHi
  | .enum => packNibbles s.enumCur

/-- What a read at an offset returns; a reserved offset reads 0 (R51). -/
def readWindow (s : State) (offset : BitVec 8) : Word :=
  match regAt offset with
  | some r => readReg s r
  | none => 0

/-- A host write of a data register: dropped while BUSY = 1 (R57). -/
def writeData (write : State → State) (s : State) : State := if s.busy then dropWrite s else write s

/-- A host write of CMD presents a command (R28, R170); a word that decodes to none is IllegalCommand (R75, R209). -/
def writeCmd (w : Word) (s : State) : Result :=
  match decode w with
  | .ok i => exec i s
  | .error _ => acceptIllegal s

/-- A host write of a register. RESULT and ENUM ignore it; CTRL and STATUS take it whatever BUSY is (R26, R27, R57). -/
def writeReg (s : State) (v : Word) : Reg → Result
  | .ctrl => .next (writeCtrl v s)
  | .status => .next (writeStatus v s)
  | .cmd => writeCmd v s
  | .result => .next s
  | .blockLo => .next (writeData (fun s => { s with blockLo := v }) s)
  | .blockHi => .next (writeData (fun s => { s with blockHi := v }) s)
  | .keyReg => .next (writeData (fun s => { s with keyReg := v }) s)
  | .pbox => .next (writeData (fun s => { s with pbox := v.truncate 24 }) s)
  | .sboxLo => .next (writeData (fun s => { s with sboxLo := v }) s)
  | .sboxHi => .next (writeData (fun s => { s with sboxHi := v }) s)
  | .enum => .next s

/-- A host write at an offset; a reserved offset ignores it and leaves WBUSY alone (R51). -/
def writeWindow (s : State) (offset : BitVec 8) (v : Word) : Result :=
  match regAt offset with
  | some r => writeReg s v r
  | none => .next s

/-- The accesses that the interface has: 32 bits at a multiple of 4 (R52). -/
def accessDefined (offset : BitVec 8) (width : Nat) : Bool := decide (width = 4 ∧ offset.toNat % 4 = 0)

/-- One poll of the `wait` loop of R81: read STATUS, and read it again while BUSY = 1. Between two polls the model gives the
core one slot (log 10). -/
def pollStatus (s : State) : State :=
  let s := { s with rdata := statusWord s }
  if s.busy then { s with schedule := .core :: .host .wait :: s.schedule } else s

/-- A host operation: an access of another width or alignment is outside the interface (R52). A read changes nothing in the
core (R54); the value it returns stands in `rdata`. -/
def hostStep (op : HostOp) (s : State) : Result :=
  match op with
  | .read offset width =>
    if accessDefined offset width then .next { s with rdata := readWindow s offset }
    else .refused .accessOutsideInterface
  | .write offset width v =>
    if accessDefined offset width then writeWindow s offset v else .refused .accessOutsideInterface
  | .wait => .next (pollStatus s)

/-- An assertion of `rst`: every register and internal field takes its reset value, whatever the phase, and a command in
progress is abandoned (R230). What stands outside the core is not reset (log 12). -/
def assertReset (s : State) : State :=
  { State.reset with schedule := s.schedule, rngIn := s.rngIn, rdata := s.rdata }

/-- One event. -/
def takeEvent (e : Event) (s : State) : Result :=
  match e with
  | .host op => hostStep op s
  | .core => coreStep s
  | .rst => .next (assertReset s)

/-- The next thing that happens: the first event of the schedule, or, with none left, a core step if one is enabled
(R58, R188, log 4). -/
def advance (s : State) : Result :=
  match s.schedule with
  | [] => coreStep s
  | e :: rest => takeEvent e { s with schedule := rest }

/-- The state in which a 32-bit word is the next thing the host writes to CMD (R70). -/
def withCommandWord (s : State) (w : Word) : State :=
  { s with schedule := .host (.write Reg.cmd.offset 4 w) :: s.schedule }

end Sys2Proof.Machine
end

