-- ==== Sys2Proof/Machine/Step.lean ====
section
/-! DEFINITION. One step of the machine, and how a word comes to be the next command. -/

namespace Sys2Proof.Machine

/-- One step: the next event, or a core step (`advance`). -/
def step (s : State) : Host.Outcome State Fault Refusal := advance s

/-- The core fetches no instructions (spec/10_state.md R21): a command comes as a host write to CMD, so the next step
presents this word if the host is about to write it. A number of more than 32 bits is cut to the command's 32 (R70);
the bits above `nbits` are 0. -/
def State.withFetchWord (s : State) (nbits w : Nat) : State :=
  withCommandWord s (BitVec.ofNat 32 (w % 2 ^ nbits))

end Sys2Proof.Machine
end

