-- ==== Sys2Proof/Machine/HostProgram.lean ====
section
/-! DEFINITION. The host's pseudo-instructions (spec/30_encoding.md R79 to R84) as the operations they expand to. -/

namespace Sys2Proof.Machine

/-- `wr REG, v` (R79). -/
def hostWr (r : Reg) (v : Word) : List Event := [.host (.write r.offset 4 v)]

/-- `rd REG` (R79). -/
def hostRd (r : Reg) : List Event := [.host (.read r.offset 4)]

/-- `cmd <command>` (R80). -/
def hostCmd (i : Instr) : List Event := hostWr .cmd (encode i)

/-- `wait` (R81). -/
def hostWait : List Event := [.host .wait]

/-- `run <command>` (R82). -/
def hostRun (i : Instr) : List Event := hostCmd i ++ hostWait

/-- `clr` (R83): clears DONE, ERR and WBUSY. -/
def hostClr : List Event := hostWr .status 0x00000106

/-- `wr64 BLOCK, b0..b7` (R84). -/
def hostWrBlock (b : Block) : List Event := hostWr .blockLo (blockLoOf b) ++ hostWr .blockHi (blockHiOf b)

/-- `wr64 SBOX, s0..s15` (R84). -/
def hostWrSbox (s : Sbox) : List Event :=
  hostWr .sboxLo (packNibbles (sboxLow s)) ++ hostWr .sboxHi (packNibbles (sboxHigh s))

/-- `wrkey k0..k7` (R84). -/
def hostWrKey (k : Key) : List Event := hostWr .keyReg (packNibbles k)

/-- `wrpbox p0..p7` (R84). -/
def hostWrPbox (p : Pbox) : List Event := hostWr .pbox ((packPbox p).zeroExtend 32)

end Sys2Proof.Machine
end

