-- ==== Sys2Proof/WellFormed.lean ====
section
/-! DEFINITION. Which commands carry an operand that their own command accepts (R77). A command that is not
well formed is still a legal word: it decodes, and it runs into the value error that R77 names for it. -/

namespace Sys2Proof

/-- The operand lies in the range that R77 (with R175, R174, R155, R110 and R102) gives its command. Every
operand that R77 does not restrict is well formed at all of its 256 values. -/
def Instr.wellFormed : Instr → Bool
  | .nop => true
  | .encrypt rounds => decide (rounds.toNat ≤ 12)
  | .round index => decide (index.toNat ≤ 11)
  | .compress index => decide (index.toNat ≤ 11)
  | .sbox _ => true
  | .pbox _ => true
  | .pboxbit _ => true
  | .randperm size => decide (size = 8 ∨ size = 16)
  | .randsbox => true
  | .randpbox => true
  | .enumReset => true
  | .enumNext => true
  | .tableRead table index => decide (index.toNat < table.size)

end Sys2Proof
end

