-- ==== Sys2Proof/Safety.lean ====
section
/-! DEFINITION. What claims about the machine are stated in: runs, the states that an accepted, rejected or completed
command leaves, the invariant of every run from reset, and what two runs must agree on. -/

namespace Sys2Proof.Machine

/-- `n` steps of the machine, stopping at the first fault or refusal. -/
def run : Nat → State → Result
  | 0, s => .next s
  | n + 1, s =>
    match step s with
    | .next t => run n t
    | .fault f => .fault f
    | .refused r => .refused r

/-- `n` core steps, whatever the schedule holds: the command in progress on its own. -/
def coreRun : Nat → State → Result
  | 0, s => .next s
  | n + 1, s =>
    match coreStep s with
    | .next t => coreRun n t
    | .fault f => .fault f
    | .refused r => .refused r

/-- The 8 entries are pairwise distinct (R206). -/
abbrev Distinct8 (p : Pbox) : Prop := ∀ i j : Fin 8, i ≠ j → p[i] ≠ p[j]

/-- The 16 entries are pairwise distinct (R207). -/
abbrev Distinct16 (s : Sbox) : Prop := ∀ i j : Fin 16, i ≠ j → s[i] ≠ s[j]

/-- The command uses PBOX, so that it checks it (R206). -/
def usesPbox : Instr → Bool
  | .encrypt _ | .round _ | .pbox _ | .pboxbit _ => true
  | .nop | .compress _ | .sbox _ | .randperm _ | .randsbox | .randpbox | .enumReset | .enumNext
  | .tableRead _ _ => false

/-- The command uses SBOX, so that it checks it (R207). -/
def usesSbox : Instr → Bool
  | .encrypt _ | .round _ | .sbox _ => true
  | .nop | .compress _ | .pbox _ | .pboxbit _ | .randperm _ | .randsbox | .randpbox | .enumReset
  | .enumNext | .tableRead _ _ => false

/-- The command uses KEYREG, so that it checks it under STRICT_KEY (R208). -/
def usesKey : Instr → Bool
  | .encrypt _ | .round _ | .compress _ => true
  | .nop | .sbox _ | .pbox _ | .pboxbit _ | .randperm _ | .randsbox | .randpbox | .enumReset
  | .enumNext | .tableRead _ _ => false

/-- The command's round count exceeds 12, or its round index 11 (R210). -/
def roundTooLarge : Instr → Bool
  | .encrypt rounds => decide (12 < rounds.toNat)
  | .round index | .compress index => decide (11 < index.toNat)
  | .nop | .sbox _ | .pbox _ | .pboxbit _ | .randperm _ | .randsbox | .randpbox | .enumReset
  | .enumNext | .tableRead _ _ => false

/-- The error of the command's own value check, if it fails (R205, item 6). -/
def ownError : Instr → State → Option ErrCode
  | .randperm size, _ => if size = 8 ∨ size = 16 then none else some .permSizeUnsupported
  | .enumNext, s => if s.enumValid then none else some .keyEnumExhausted
  | .tableRead table index, _ =>
    if index.toNat < table.size then none else some .tableIndexOutOfRange
  | .nop, _ | .encrypt _, _ | .round _, _ | .compress _, _ | .sbox _, _ | .pbox _, _ | .pboxbit _, _
  | .randsbox, _ | .randpbox, _ | .enumReset, _ => none

/-- The error that a decoded command raises at accept: the first check that fails in the order of R205. -/
def acceptError (i : Instr) (s : State) : Option ErrCode :=
  if usesPbox i = true ∧ ¬ Distinct8 s.perm then some .invalidPermutation
  else if usesSbox i = true ∧ ¬ Distinct16 s.subst then some .invalidSubstitution
  else if roundTooLarge i = true then some .roundIndexOutOfRange
  else if usesKey i = true ∧ s.strictKey = true ∧ ∃ j : Fin 8, s.key[j] = 0 then some .invalidKeyNibble
  else ownError i s

/-- The state in which a decoded command leaves the machine that has latched it and cleared the status, with its
accept initialisation still to come (R171). -/
def latched (i : Instr) (s : State) : State :=
  { s with
    opl := i.op, argl := i.arg, tsell := i.tsel, strictl := s.strictKey
    done := false, err := false, errCode := .none }

/-- The state after a decoded command has ended with an error at accept: its latches and the error, and nothing
else (R171, R203). -/
def rejected (i : Instr) (code : ErrCode) (s : State) : State :=
  { latched i s with err := true, errCode := code, busy := false, phase := .idle }

/-- The state after a command has completed, before what it writes is put in: its latches, DONE, and nothing else
(R171, R186). -/
def finished (i : Instr) (s : State) : State :=
  { latched i s with done := true, busy := false, phase := .idle }

/-- The values drawn by samples of width `w`, in the order drawn, each at its first occurrence only, after those of
`got` (R111). -/
def distinctDraws (w : BitVec 3) : (got : List Nibble) → (samples : List Nibble) → List Nibble
  | got, [] => got
  | got, d :: rest =>
    if draw w d ∈ got then distinctDraws w got rest else distinctDraws w (got ++ [draw w d]) rest

/-- The position of a tuple of nibbles 1 to 15 in the lexicographic order of R116, from 0, with k0 most significant. -/
def keyRank (k : Key) : Nat := (List.finRange 8).foldl (fun n i => 15 * n + (k[i].toNat - 1)) 0

/-- `n` ENUM_NEXT commands one after another, each accepted and written back; `none` once one does not complete. -/
def enumNexts : Nat → State → Option State
  | 0, s => some s
  | n + 1, s =>
    (enumNexts n s).bind fun s =>
      match exec .enumNext s with
      | .next t =>
        match coreStep t with
        | .next u => if u.done then some u else none
        | .fault _ | .refused _ => none
      | .fault _ | .refused _ => none

/-- The commands that a phase can belong to (R172, R187). -/
def phaseAllows : Phase → Op → Bool
  | .idle, _ => true
  | .perm, op => op == .encrypt || op == .round || op == .pbox
  | .comp, op => op == .encrypt || op == .round || op == .compress
  | .sub1, op | .bperm, op | .sub2, op | .fb, op => op == .encrypt || op == .round
  | .sample, op => op == .randperm || op == .randsbox || op == .randpbox
  | .wb, _ => true

/-- The phases of a round (R39). -/
def Phase.inRound : Phase → Bool
  | .perm | .comp | .sub1 | .bperm | .sub2 | .fb => true
  | .idle | .wb | .sample => false

/-- What the sampler's fields mean to each other: the size is 8 or 16 with its width, the first CNT entries of BUF are
distinct values below SN, and SEEN marks exactly them (R44, R110, R111, R120). -/
structure SamplerInv (s : State) : Prop where
  size : (s.sn = 8 ∧ s.sw = 3) ∨ (s.sn = 16 ∧ s.sw = 4)
  size_of_op : (s.opl = .randsbox → s.sn = 16) ∧ (s.opl = .randpbox → s.sn = 8)
  count_le : s.cnt.toNat ≤ s.sn.toNat
  entry_lt : ∀ j : Fin 16, j.val < s.cnt.toNat → s.buf[j].toNat < s.sn.toNat
  entry_inj : ∀ i j : Fin 16, i.val < s.cnt.toNat → j.val < s.cnt.toNat → s.buf[i] = s.buf[j] → i = j
  seen_iff : ∀ v : Fin 16,
    s.seen.getLsbD v.val = true ↔ ∃ j : Fin 16, j.val < s.cnt.toNat ∧ s.buf[j].toNat = v.val

/-- What holds at reset and after every step (R31, R32, R38, R39, R41, R43, R120, R202, R206, R207). It rules out the
states in which the sequencer, the round counter or the sampler has left its range. -/
structure Inv (s : State) : Prop where
  /-- BUSY = 1 exactly when PHASE is not IDLE (R38). -/
  busy_iff : s.busy = true ↔ s.phase ≠ .idle
  /-- DONE and ERR are never both 1 (R32). -/
  done_err : ¬ (s.done = true ∧ s.err = true)
  /-- BUSY = 1 implies DONE = 0 and ERR = 0, and no code since the accept (R31, R32). -/
  busy_clear : s.busy = true → s.done = false ∧ s.err = false ∧ s.errCode = .none
  /-- ERR = 1 comes with a code (R203). -/
  err_code : s.err = true → s.errCode ≠ .none
  /-- InvalidBlockLength is never raised (R202). -/
  no_block_length : s.errCode ≠ .invalidBlockLength
  /-- RCTR is in 0..12 (R39). -/
  rctr_le : s.rctr.toNat ≤ 12
  /-- RLIMIT is in 0..12 (R39). -/
  rlimit_le : s.rlimit.toNat ≤ 12
  /-- The phase belongs to the latched command (R187). -/
  phase_op : phaseAllows s.phase s.opl = true
  /-- RCTR ≤ 11 in COMPRESS's COMP phase (R39). -/
  compress_round : s.phase = .comp → s.opl = .compress → s.rctr.toNat ≤ 11
  /-- RCTR < RLIMIT in the phases of a round of ENCRYPT or ROUND, so that RCTR ≤ 11 (R39, R184). -/
  round_open : s.phase.inRound = true → (s.opl = .encrypt ∨ s.opl = .round) →
    s.rctr.toNat < s.rlimit.toNat
  /-- PBOX has an iteration left in PERM (R133). -/
  pbox_left : s.phase = .perm → s.opl = .pbox → s.piter ≠ 0
  /-- PBOX holds a bijection while it is applied (R206). -/
  perm_ok : s.phase.inRound = true → (s.opl = .encrypt ∨ s.opl = .round ∨ s.opl = .pbox) →
    Distinct8 s.perm
  /-- SBOX holds a bijection while it is applied (R207). -/
  subst_ok : s.phase.inRound = true → (s.opl = .encrypt ∨ s.opl = .round) → Distinct16 s.subst
  /-- Each nibble of ENUM_CUR is in 1..15 (R43). -/
  enum_nonzero : ∀ i : Fin 8, s.enumCur[i] ≠ 0
  /-- Once exhausted, ENUM_CUR stays (15,...,15) (R118). -/
  enum_end : s.enumValid = false → s.enumCur = lastKey
  /-- The sampler while it samples. -/
  sampling : s.phase = .sample → SamplerInv s ∧ s.cnt.toNat < s.sn.toNat
  /-- The sampler when its result is written back. -/
  sampled : s.phase = .wb → (s.opl = .randperm ∨ s.opl = .randsbox ∨ s.opl = .randpbox) →
    SamplerInv s ∧ s.cnt = s.sn

/-- The two states differ at most in the fields whose reset value the spec leaves unspecified (R46, U6). -/
def SameButScratch (s u : State) : Prop :=
  u = { s with
    work := u.work, r5 := u.r5, r6 := u.r6, t := u.t, opl := u.opl, argl := u.argl, tsell := u.tsell
    strictl := u.strictl, sn := u.sn, sw := u.sw, seen := u.seen, cnt := u.cnt, buf := u.buf }

/-- The host and the interrupt line see no difference between the two states, and the same is to come. -/
def SameVisible (s u : State) : Prop :=
  (∀ offset, readWindow s offset = readWindow u offset) ∧ irq s = irq u ∧ s.rdata = u.rdata
    ∧ s.schedule = u.schedule ∧ s.rngIn = u.rngIn

/-- Two results that the host cannot tell apart. -/
def SameResult : Result → Result → Prop
  | .next s, .next u => SameVisible s u
  | .fault f, .fault g => f = g
  | .refused r, .refused q => r = q
  | _, _ => False

/-- The two states differ at most in what a host access can change while a command runs: CTRL, WBUSY, the value last
read, and what is still scheduled (R57, R60). -/
def SameCommandState (s u : State) : Prop :=
  u = { s with
    irqEn := u.irqEn, strictKey := u.strictKey, wbusy := u.wbusy, rdata := u.rdata, schedule := u.schedule }

/-- A core slot, or a host read or write inside the interface: what can come between the core steps of a command
without ending it. -/
def interleaves : Event → Bool
  | .core => true
  | .rst => false
  | .host (.read offset width) => accessDefined offset width
  | .host (.write offset width _) => accessDefined offset width
  | .host .wait => false

end Sys2Proof.Machine
end

