-- ==== Sys2Proof/Certificates/Slice0/Obligations.lean ====
section
/-! DEFINITION. The statements about the machine, for the provers. "Rn" is the numbered rule n of spec/. -/

open Sys2Proof Sys2Proof.Machine

/-! ### Command words (30_encoding.md) -/

/-- One word for each command, written out from the rows of R74 and the syntax of R78, decodes to that command, and two
words that R76 and R75 call illegal decode to none. The names of the reasons for which the decoder refuses those two are the model's
choice (log 19): R75 knows only ILLEGAL. -/
def Obligations.CommandWordsDecodeAsTheSyntaxTableSays : Prop :=
  decode 0x00000000 = .ok .nop ∧
  decode 0x00000C01 = .ok (.encrypt 12) ∧
  decode 0x00000702 = .ok (.round 7) ∧
  decode 0x00000503 = .ok (.compress 5) ∧
  decode 0x00005A04 = .ok (.sbox 0x5A) ∧
  decode 0x00000205 = .ok (.pbox 2) ∧
  decode 0x00003706 = .ok (.pboxbit 0x37) ∧
  decode 0x00001007 = .ok (.randperm 16) ∧
  decode 0x00000008 = .ok .randsbox ∧
  decode 0x00000009 = .ok .randpbox ∧
  decode 0x0000000A = .ok .enumReset ∧
  decode 0x0000000B = .ok .enumNext ∧
  decode 0x0002F10C = .ok (.tableRead .off 0xF1) ∧
  decode 0x00015F0C = .ok (.tableRead .un 95) ∧
  decode 0x0000000D = .error .reservedOp ∧
  decode 0x00010001 = .error .tselNotZero

/-- Decoding what the encoder makes of a command gives the command back, for every command at every operand value. -/
def Obligations.DecodingAnEncodedCommandGivesItBack : Prop :=
  ∀ i : Instr, decode (encode i) = .ok i

/-- A word that decodes to a command is that command's encoding: no bit of a legal word is ignored. -/
def Obligations.ADecodedWordIsItsCommandsEncoding : Prop :=
  ∀ (w : Word) (i : Instr), decode w = .ok i → encode i = w

/-- The illegal words are exactly those with OP 0xD to 0xF, Z0 or Z1 not 0, a non-zero ARG on a command that takes none,
or a non-zero TSEL on a command other than TABLE_READ. -/
def Obligations.IllegalWordsAreExactlyThoseThatTheDecodeRuleNames : Prop :=
  ∀ w : Word, (∃ e, decode w = .error e) ↔
    (0xD ≤ w.extractLsb' 0 4 ∨ w.extractLsb' 4 4 ≠ 0 ∨ w.extractLsb' 18 14 ≠ 0 ∨
      (w.extractLsb' 8 8 ≠ 0 ∧ w.extractLsb' 0 4 ∈ [0x0#4, 0x8#4, 0x9#4, 0xA#4, 0xB#4]) ∨
      (w.extractLsb' 16 2 ≠ 0 ∧ w.extractLsb' 0 4 ≠ 0xC))

/-! ### The register window (20_memory.md, 10_state.md) -/

/-- When the next event is a host write of a word to CMD and the word decodes to `i`, the step is `exec i` on the
state with that event taken off. So is the step after `withFetchWord` with the word of `i`. The schedule of events is
the model's (log 4, log 11). -/
def Obligations.AStepOnACommandWriteRunsTheDecodedCommand : Prop :=
  (∀ (s : State) (w : Word) (i : Instr) (rest : List Event),
    s.schedule = .host (.write 0x08 4 w) :: rest → decode w = .ok i →
      step s = exec i { s with schedule := rest }) ∧
  (∀ (s : State) (i : Instr), step (s.withFetchWord 32 (encode i).toNat) = exec i s)

/-- With no event scheduled, or a core slot next, the step is the core's own step. The schedule of events is the
model's (log 4). -/
def Obligations.AStepWithNoHostEventIsACoreStep : Prop :=
  (∀ s : State, s.schedule = [] → step s = coreStep s) ∧
  (∀ (s : State) (rest : List Event), s.schedule = .core :: rest →
    step s = coreStep { s with schedule := rest })

/-- A command word written to CMD is dropped while BUSY = 1, where only WBUSY changes. While BUSY = 0 it is accepted in
the same step: the command is in progress, or has ended with an error. -/
def Obligations.ACommandWriteIsDroppedWhileBusyAndElseAccepted : Prop :=
  ∀ (s : State) (w : Word) (rest : List Event), s.schedule = .host (.write 0x08 4 w) :: rest →
    (s.busy = true → step s = .next { s with schedule := rest, wbusy := true }) ∧
    (s.busy = false → ∃ t, step s = .next t ∧ t.wbusy = s.wbusy ∧ t.done = false ∧
      ((t.busy = true ∧ t.phase ≠ .idle ∧ t.err = false ∧ t.errCode = .none) ∨
       (t.busy = false ∧ t.phase = .idle ∧ t.err = true ∧ t.errCode ≠ .none)))

/-- A word that matches no row of R74 ends at once with IllegalCommand, and nothing but the status changes. -/
def Obligations.AnIllegalWordEndsAtOnceWithIllegalCommand : Prop :=
  ∀ (s : State) (w : Word) (rest : List Event), s.schedule = .host (.write 0x08 4 w) :: rest →
    s.busy = false → (∀ r ∈ rows, w &&& r.mask ≠ r.pattern) →
      step s = .next { s with
        schedule := rest, done := false, err := true, errCode := .illegalCommand, busy := false
        phase := .idle }

/-- A host read returns the register at its offset and changes nothing else. The data registers, RESULT, ENUM and CMD read
as R22 to R28 say; how CTRL and STATUS read is said by ControlAndStatusReadAndWriteFieldByField. The field rdata that holds
the value read is the model's own (log 6). -/
def Obligations.AReadReturnsItsRegisterAndChangesNothing : Prop :=
  (∀ (s : State) (offset : BitVec 8) (rest : List Event), s.schedule = .host (.read offset 4) :: rest →
    offset.toNat % 4 = 0 →
      step s = .next { s with schedule := rest, rdata := readWindow s offset }) ∧
  (∀ s : State,
    readWindow s 0x08 = 0 ∧
    readWindow s 0x0C = s.result.zeroExtend 32 ∧
    readWindow s 0x10 = s.blockLo ∧
    readWindow s 0x14 = s.blockHi ∧
    readWindow s 0x18 = s.keyReg ∧
    readWindow s 0x1C = s.pbox.zeroExtend 32 ∧
    readWindow s 0x20 = s.sboxLo ∧
    readWindow s 0x24 = s.sboxHi ∧
    ∀ i : Fin 8, (readWindow s 0x28).extractLsb' (4 * i.val) 4 = s.enumCur[i])

/-- CTRL and STATUS read field by field, a host write of CTRL sets its two bits, and a host write of STATUS clears the
write-1-to-clear fields whose bit is 1 and changes nothing else. Which rdata a read leaves is the model's (log 6). -/
def Obligations.ControlAndStatusReadAndWriteFieldByField : Prop :=
  ∀ s : State,
    (readWindow s 0x00).getLsbD 0 = s.irqEn ∧ (readWindow s 0x00).getLsbD 1 = s.strictKey ∧
    (readWindow s 0x04).getLsbD 0 = s.busy ∧ (readWindow s 0x04).getLsbD 1 = s.done ∧
    (readWindow s 0x04).getLsbD 2 = s.err ∧
    (readWindow s 0x04).extractLsb' 4 4 = s.errCode.code ∧
    (readWindow s 0x04).getLsbD 8 = s.wbusy ∧ (readWindow s 0x04).getLsbD 9 = !s.enumValid ∧
    (readWindow s 0x04).extractLsb' 12 4 = s.phase.code ∧
    (readWindow s 0x04).extractLsb' 16 4 = s.rctr ∧
    (readWindow s 0x04).extractLsb' 20 3 = s.bpos ∧
    (∀ (v : Word) (rest : List Event),
      (s.schedule = .host (.write 0x00 4 v) :: rest →
        step s = .next { s with schedule := rest, irqEn := v.getLsbD 0, strictKey := v.getLsbD 1 }) ∧
      (s.schedule = .host (.write 0x04 4 v) :: rest →
        step s = .next { s with
          schedule := rest
          done := if v.getLsbD 1 then false else s.done
          err := if v.getLsbD 2 then false else s.err
          wbusy := if v.getLsbD 8 then false else s.wbusy }))

/-- Reserved offsets read 0 and ignore writes, BUSY or not, without setting WBUSY. Reserved bits of the defined registers
read 0, and a write of a register acts as the same write with its reserved bits 0. -/
def Obligations.ReservedOffsetsAndBitsReadZeroAndIgnoreWrites : Prop :=
  (∀ (s : State) (offset : BitVec 8) (v : Word) (rest : List Event),
    0x2C ≤ offset.toNat → offset.toNat % 4 = 0 →
      (s.schedule = .host (.read offset 4) :: rest →
        step s = .next { s with schedule := rest, rdata := 0 }) ∧
      (s.schedule = .host (.write offset 4 v) :: rest → step s = .next { s with schedule := rest })) ∧
  (∀ s : State,
    readWindow s 0x00 &&& 0xFFFFFFFC = 0 ∧
    readWindow s 0x04 &&& 0xFF800C08 = 0 ∧
    readWindow s 0x0C &&& 0xFFFFFF00 = 0 ∧
    readWindow s 0x1C &&& 0xFF000000 = 0) ∧
  (∀ (s : State) (v : Word),
    writeWindow s 0x00 v = writeWindow s 0x00 (v &&& 0x00000003) ∧
    writeWindow s 0x04 v = writeWindow s 0x04 (v &&& 0x00000106) ∧
    writeWindow s 0x1C v = writeWindow s 0x1C (v &&& 0x00FFFFFF))

/-- While BUSY = 1 a host write to a data register or to CMD is dropped and sets WBUSY. Writes to CTRL and STATUS are
performed whatever BUSY is, and writes to RESULT, ENUM and reserved offsets never have an effect. -/
def Obligations.HostWritesToOperandsWhileBusyAreDropped : Prop :=
  ∀ (s : State) (offset : BitVec 8) (v : Word) (rest : List Event),
    s.schedule = .host (.write offset 4 v) :: rest →
      (s.busy = true → offset ∈ [0x08, 0x10, 0x14, 0x18, 0x1C, 0x20, 0x24] →
        step s = .next { s with schedule := rest, wbusy := true }) ∧
      (offset = 0x00 →
        step s = .next { s with schedule := rest, irqEn := v.getLsbD 0, strictKey := v.getLsbD 1 }) ∧
      (offset = 0x04 → step s = .next { s with
          schedule := rest
          done := if v.getLsbD 1 then false else s.done
          err := if v.getLsbD 2 then false else s.err
          wbusy := if v.getLsbD 8 then false else s.wbusy }) ∧
      ((offset = 0x0C ∨ offset = 0x28 ∨ (0x2C ≤ offset.toNat ∧ offset.toNat % 4 = 0)) →
        step s = .next { s with schedule := rest })

/-- While BUSY = 0 a host write to a data register sets that register and nothing else, and the elements it packs become
the fields of the value written, little-endian in element index. -/
def Obligations.HostWritesWhenIdleSetOnlyTheirRegister : Prop :=
  ∀ (s : State) (v : Word) (rest : List Event), s.busy = false →
    (s.schedule = .host (.write 0x10 4 v) :: rest →
      ∃ t, step s = .next t ∧ t = { s with schedule := rest, blockLo := v } ∧
        ∀ i : Fin 8, t.block[i] = if i.val < 4 then v.extractLsb' (8 * i.val) 8 else s.block[i]) ∧
    (s.schedule = .host (.write 0x14 4 v) :: rest →
      ∃ t, step s = .next t ∧ t = { s with schedule := rest, blockHi := v } ∧
        ∀ i : Fin 8, t.block[i] = if i.val < 4 then s.block[i] else v.extractLsb' (8 * (i.val - 4)) 8) ∧
    (s.schedule = .host (.write 0x18 4 v) :: rest →
      ∃ t, step s = .next t ∧ t = { s with schedule := rest, keyReg := v } ∧
        ∀ i : Fin 8, t.key[i] = v.extractLsb' (4 * i.val) 4) ∧
    (s.schedule = .host (.write 0x1C 4 v) :: rest →
      ∃ t, step s = .next t ∧ t = { s with schedule := rest, pbox := v.extractLsb' 0 24 } ∧
        ∀ i : Fin 8, t.perm[i] = v.extractLsb' (3 * i.val) 3) ∧
    (s.schedule = .host (.write 0x20 4 v) :: rest →
      ∃ t, step s = .next t ∧ t = { s with schedule := rest, sboxLo := v } ∧
        ∀ j : Fin 16, t.subst[j] = if j.val < 8 then v.extractLsb' (4 * j.val) 4 else s.subst[j]) ∧
    (s.schedule = .host (.write 0x24 4 v) :: rest →
      ∃ t, step s = .next t ∧ t = { s with schedule := rest, sboxHi := v } ∧
        ∀ j : Fin 16, t.subst[j] = if j.val < 8 then s.subst[j] else v.extractLsb' (4 * (j.val - 8)) 4)

/-- The machine refuses exactly the host accesses that are not 32 bits wide or not at a multiple of 4. -/
def Obligations.ExactlyTheAccessesOutsideTheInterfaceAreRefused : Prop :=
  ∀ (s : State) (r : Refusal), step s = .refused r ↔
    (r = .accessOutsideInterface ∧ ∃ (offset : BitVec 8) (width : Nat) (rest : List Event),
      (s.schedule = .host (.read offset width) :: rest ∨
        ∃ v, s.schedule = .host (.write offset width v) :: rest) ∧
      (width ≠ 4 ∨ offset.toNat % 4 ≠ 0))

/-- A poll of the `wait` loop reads STATUS; with BUSY = 0 the loop ends, and with BUSY = 1 it polls again. The one core slot
between two polls is the model's choice (log 10). -/
def Obligations.TheWaitLoopEndsAfterTheFirstReadWithBusyZero : Prop :=
  ∀ (s : State) (rest : List Event), s.schedule = .host .wait :: rest →
    (s.busy = false → step s = .next { s with schedule := rest, rdata := readWindow s 0x04 }) ∧
    (s.busy = true → step s = .next { s with
      schedule := .core :: .host .wait :: rest, rdata := readWindow s 0x04 })

/-! ### Accept (44_sequencer.md, 60_exceptions.md) -/

/-- The step in which a command is presented changes no data register, no bit of CTRL, not RESULT, not the enumerator, not the
collected values, and, unless it is dropped, not WBUSY. The other fields of STATUS are what it changes. That it takes no sample and
leaves the schedule and the value last read alone is said of the model's own fields (logs 3, 4 and 6). -/
def Obligations.PresentingACommandChangesNoDataRegister : Prop :=
  ∀ (i : Instr) (s t : State), exec i s = .next t →
    t.irqEn = s.irqEn ∧ t.strictKey = s.strictKey ∧ t.blockLo = s.blockLo ∧ t.blockHi = s.blockHi ∧
    t.keyReg = s.keyReg ∧ t.pbox = s.pbox ∧ t.sboxLo = s.sboxLo ∧ t.sboxHi = s.sboxHi ∧
    t.result = s.result ∧ t.enumCur = s.enumCur ∧ t.enumValid = s.enumValid ∧ t.buf = s.buf ∧
    t.schedule = s.schedule ∧ t.rngIn = s.rngIn ∧ t.rdata = s.rdata ∧
    (s.busy = false → t.wbusy = s.wbusy)

/-- A decoded command presented while BUSY = 0 raises the first check that fails in the order of R205, and only the status
and the latches change. What the status held before makes no difference. -/
def Obligations.ACommandRaisesTheFirstCheckThatFails : Prop :=
  (∀ (i : Instr) (s : State) (code : ErrCode), s.busy = false → acceptError i s = some code →
    exec i s = .next (rejected i code s)) ∧
  (∀ (i : Instr) (s : State) (d e : Bool) (c : ErrCode), s.busy = false →
    exec i { s with done := d, err := e, errCode := c } = exec i s)

/-- A command whose checks pass is accepted with the latches of R171, the accept initialisation and the first phase of
R172, and nothing else changes. -/
def Obligations.AnAcceptedCommandIsInitialisedAsTheTableSays : Prop :=
  ∀ (s : State), s.busy = false →
    exec .nop s = .next { latched .nop s with busy := true, phase := .wb } ∧
    (∀ a, acceptError (.encrypt a) s = none → exec (.encrypt a) s = .next { latched (.encrypt a) s with
      busy := true, work := s.block, rctr := 0, rlimit := a.extractLsb' 0 4
      phase := if 0 < a.toNat then .perm else .wb }) ∧
    (∀ a, acceptError (.round a) s = none → exec (.round a) s = .next { latched (.round a) s with
      busy := true, work := s.block, rctr := a.extractLsb' 0 4, rlimit := (a + 1).extractLsb' 0 4
      phase := .perm }) ∧
    (∀ a, acceptError (.compress a) s = none → exec (.compress a) s = .next { latched (.compress a) s with
      busy := true, work := s.block, rctr := a.extractLsb' 0 4, r5 := 0, r6 := 0, bpos := 0
      phase := .comp }) ∧
    (∀ a, acceptError (.sbox a) s = none → exec (.sbox a) s = .next { latched (.sbox a) s with
      busy := true, t := subByte a s.subst, phase := .wb }) ∧
    (∀ a, acceptError (.pbox a) s = none → exec (.pbox a) s = .next { latched (.pbox a) s with
      busy := true, work := s.block, piter := a, phase := if 0 < a.toNat then .perm else .wb }) ∧
    (∀ a, acceptError (.pboxbit a) s = none → exec (.pboxbit a) s = .next { latched (.pboxbit a) s with
      busy := true, t := permBits a s.perm, phase := .wb }) ∧
    (∀ i n, (i, n) ∈ [(Instr.randperm 8, 8), (.randperm 16, 16), (.randsbox, 16), (.randpbox, 8)] →
      exec i s = .next { latched i s with
        busy := true, sn := BitVec.ofNat 5 n, sw := if n = 8 then 3 else 4, seen := 0, cnt := 0
        phase := .sample }) ∧
    exec .enumReset s = .next { latched .enumReset s with busy := true, phase := .wb } ∧
    (acceptError .enumNext s = none →
      exec .enumNext s = .next { latched .enumNext s with busy := true, phase := .wb }) ∧
    (∀ x a, acceptError (.tableRead x a) s = none → ∃ b, tableEntry Config.tables x a = some b ∧
      exec (.tableRead x a) s = .next { latched (.tableRead x a) s with busy := true, t := b, phase := .wb })

/-! ### The commands, from accept to completion

Each says that `exec` answers a next state, that the core's own steps then lead to the completed (or failed) command, and
that nothing but what is named differs from the state before. `coreRun n` is `n` core steps. -/

/-- NOP is accepted and its one core step completes it, with ERR and ERRCODE cleared and nothing else changed. It is dropped
while BUSY = 1, and a word with OP = 0 and any other field not 0 is no command. -/
def Obligations.NopDoesNothingAndCompletes : Prop :=
  decode 0x00000000 = .ok .nop ∧
  (∀ w : Word, w.extractLsb' 0 4 = 0x0 → w ≠ 0x00000000 → ∃ e, decode w = .error e) ∧
  (∀ s : State, s.busy = true → exec .nop s = .next { s with wbusy := true }) ∧
  ∀ s : State, s.busy = false → ∃ t, exec .nop s = .next t ∧ t.busy = true ∧ t.phase = .wb ∧
    coreStep t = .next (finished .nop s)

/-- SBOX substitutes both nibbles of its byte into RESULT, and fails with InvalidSubstitution where SBOX is no bijection. -/
def Obligations.SboxSubstitutesBothNibbles : Prop :=
  ∀ (s : State) (data : Byte),
    decode (0x00000004 ||| (data.zeroExtend 32 <<< 8)) = .ok (.sbox data) ∧
    (s.busy = false → Distinct16 s.subst → ∃ t, exec (.sbox data) s = .next t ∧ t.busy = true ∧
      coreStep t = .next { finished (.sbox data) s with
        t := subByte data s.subst, result := subByte data s.subst }) ∧
    (∀ lo hi : Fin 16, data.toNat = lo.val + 16 * hi.val →
      (subByte data s.subst).toNat = s.subst[lo].toNat + 16 * s.subst[hi].toNat) ∧
    (s.busy = false → ¬ Distinct16 s.subst →
      exec (.sbox data) s = .next (rejected (.sbox data) .invalidSubstitution s))

/-- PBOXBIT moves bit j of its byte to bit P[j] of RESULT, and fails with InvalidPermutation where PBOX is no bijection. -/
def Obligations.PboxbitPermutesTheBitsOfAByte : Prop :=
  ∀ (s : State) (data : Byte),
    decode (0x00000006 ||| (data.zeroExtend 32 <<< 8)) = .ok (.pboxbit data) ∧
    (s.busy = false → Distinct8 s.perm → ∃ t u, exec (.pboxbit data) s = .next t ∧ t.busy = true ∧
      coreStep t = .next u ∧
      u = { finished (.pboxbit data) s with t := u.result, result := u.result } ∧
      ∀ j : Fin 8, u.result.getLsbD s.perm[j].toNat = data.getLsbD j.val) ∧
    (s.busy = false → ¬ Distinct8 s.perm →
      exec (.pboxbit data) s = .next (rejected (.pboxbit data) .invalidPermutation s))

/-- PBOX moves byte j of BLOCK to position P^n(j), in n PERM steps during which BLOCK is unchanged and a writeback step. It
checks PBOX for n = 0 too. -/
def Obligations.PboxPermutesTheBlockNTimes : Prop :=
  ∀ (s : State) (n : Byte),
    decode (0x00000005 ||| (n.zeroExtend 32 <<< 8)) = .ok (.pbox n) ∧
    (s.busy = false → Distinct8 s.perm → ∃ t u, exec (.pbox n) s = .next t ∧
      (∀ k, k ≤ n.toNat → ∃ x, coreRun k t = .next x ∧ x.busy = true ∧
        x.blockLo = s.blockLo ∧ x.blockHi = s.blockHi) ∧
      coreRun (n.toNat + 1) t = .next u ∧
      u = { finished (.pbox n) s with
        work := u.block, piter := 0, blockLo := u.blockLo, blockHi := u.blockHi } ∧
      u.block = permBlockIter s.block s.perm n.toNat ∧
      ∀ j : Fin 8, u.block[(fun i => octalIndex s.perm[i])^[n.toNat] j] = s.block[j]) ∧
    (s.busy = false → ¬ Distinct8 s.perm →
      exec (.pbox n) s = .next (rejected (.pbox n) .invalidPermutation s))

/-- TABLE_READ reads the entry of the selected table into RESULT, and fails with TableIndexOutOfRange beyond it. A word with OP =
0xC and Z0 or Z1 not 0 is no command. -/
def Obligations.TableReadReturnsTheEntry : Prop :=
  ∀ (s : State) (x : TSel) (a : Byte),
    decode (0x0000000C ||| (a.zeroExtend 32 <<< 8) ||| (x.code.zeroExtend 32 <<< 16)) = .ok (.tableRead x a) ∧
    (∀ w : Word, w.extractLsb' 0 4 = 0xC → (w.extractLsb' 4 4 ≠ 0 ∨ w.extractLsb' 18 14 ≠ 0) →
      ∃ e, decode w = .error e) ∧
    (s.busy = false →
      (∀ h : a.toNat < 96, x = .ln → ∃ t, exec (.tableRead x a) s = .next t ∧ t.busy = true ∧
        coreStep t = .next { finished (.tableRead x a) s with
          t := Config.tables.ln[a.toNat].zeroExtend 8, result := Config.tables.ln[a.toNat].zeroExtend 8 }) ∧
      (∀ h : a.toNat < 96, x = .un → ∃ t, exec (.tableRead x a) s = .next t ∧ t.busy = true ∧
        coreStep t = .next { finished (.tableRead x a) s with
          t := Config.tables.un[a.toNat].zeroExtend 8, result := Config.tables.un[a.toNat].zeroExtend 8 }) ∧
      (∀ h : a.toNat < 256, x = .off → ∃ t, exec (.tableRead x a) s = .next t ∧ t.busy = true ∧
        coreStep t = .next { finished (.tableRead x a) s with
          t := Config.tables.offset[a.toNat].zeroExtend 8
          result := Config.tables.offset[a.toNat].zeroExtend 8 }) ∧
      (∀ h : a.toNat < 16, x = .sub → ∃ t, exec (.tableRead x a) s = .next t ∧ t.busy = true ∧
        coreStep t = .next { finished (.tableRead x a) s with
          t := Config.tables.sub[a.toNat].zeroExtend 8, result := Config.tables.sub[a.toNat].zeroExtend 8 }) ∧
      ((((x = .ln ∨ x = .un) ∧ 96 ≤ a.toNat) ∨ (x = .sub ∧ 16 ≤ a.toNat)) →
        exec (.tableRead x a) s = .next (rejected (.tableRead x a) .tableIndexOutOfRange s)))

/-- COMPRESS puts G of BLOCK, KEYREG and the round index into RESULT after 8 COMP steps and a writeback step. Where G is
degenerate it fails at the eighth step with DegenerateInverseLookup, BPOS = 7 and RCTR the round index. A round index above 11
and, under STRICT_KEY, a zero key nibble fail at accept. -/
def Obligations.CompressComputesGOfTheBlock : Prop :=
  ∀ (s : State) (a : Byte), decode (0x00000003 ||| (a.zeroExtend 32 <<< 8)) = .ok (.compress a) ∧
   (s.busy = false →
    (∀ h : a.toNat < 12, ¬ (s.strictKey = true ∧ ∃ j : Fin 8, s.key[j] = 0) →
      ∃ t, exec (.compress a) s = .next t ∧ t.busy = true ∧ t.phase = .comp ∧
        (∀ k, k ≤ 7 → ∃ x, coreRun k t = .next x ∧ x.busy = true ∧ x.result = s.result) ∧
        (∀ c, compressG Config.tables s.block s.key ⟨a.toNat, h⟩ = some c →
          ∃ u, coreRun 9 t = .next u ∧ u = { finished (.compress a) s with
            work := s.block, r5 := u.r5, r6 := u.r6, rctr := a.extractLsb' 0 4, bpos := 0
            t := c, result := c }) ∧
        (compressG Config.tables s.block s.key ⟨a.toNat, h⟩ = none →
          ∃ u, coreRun 8 t = .next u ∧ u = { rejected (.compress a) .degenerateInverseLookup s with
            work := s.block, r5 := u.r5, r6 := u.r6, t := u.t, rctr := a.extractLsb' 0 4, bpos := 7 })) ∧
    (12 ≤ a.toNat → exec (.compress a) s = .next (rejected (.compress a) .roundIndexOutOfRange s)) ∧
    (a.toNat < 12 → s.strictKey = true → (∃ j : Fin 8, s.key[j] = 0) →
      exec (.compress a) s = .next (rejected (.compress a) .invalidKeyNibble s)))

/-- ROUND replaces BLOCK by one round of it with the given index, after 13 phase steps, during which BLOCK is unchanged, and a
writeback step. Where the round is degenerate, it fails in its eighth COMP step and BLOCK is unchanged. -/
def Obligations.RoundRunsOneRoundOnTheBlock : Prop :=
  ∀ (s : State) (a : Byte), decode (0x00000002 ||| (a.zeroExtend 32 <<< 8)) = .ok (.round a) ∧
    (s.busy = false →
      (∀ code, acceptError (.round a) s = some code → exec (.round a) s = .next (rejected (.round a) code s)) ∧
      (∀ h : a.toNat < 12, acceptError (.round a) s = none →
        ∃ t, exec (.round a) s = .next t ∧ t.busy = true ∧ t.phase = .perm ∧
          (∀ m, cipherRound Config.tables s.block s.key s.perm s.subst ⟨a.toNat, h⟩ = some m →
            (∀ k, k ≤ 13 → ∃ x, coreRun k t = .next x ∧ x.busy = true ∧
              x.blockLo = s.blockLo ∧ x.blockHi = s.blockHi) ∧
            ∃ u, coreRun 14 t = .next u ∧ u.block = m ∧ u = { finished (.round a) s with
              work := m, blockLo := u.blockLo, blockHi := u.blockHi, r5 := u.r5, r6 := u.r6, t := m[7]
              rctr := (a + 1).extractLsb' 0 4, rlimit := (a + 1).extractLsb' 0 4, bpos := 0 }) ∧
          (cipherRound Config.tables s.block s.key s.perm s.subst ⟨a.toNat, h⟩ = none →
            ∃ u, coreRun 9 t = .next u ∧ u = { rejected (.round a) .degenerateInverseLookup s with
              work := u.work, r5 := u.r5, r6 := u.r6, t := u.t
              rctr := a.extractLsb' 0 4, rlimit := (a + 1).extractLsb' 0 4, bpos := 7 })))

/-- ENCRYPT replaces BLOCK by its encryption with the given number of rounds, after 13 steps a round, during which BLOCK is
unchanged, and a writeback step, and STATUS.RCTR then reads that number. Where round j is the first degenerate one, ENCRYPT fails
in that round with RCTR = j and BPOS = 7, and BLOCK is unchanged. Every other register keeps its value either way. -/
def Obligations.EncryptRunsItsRoundsOnTheBlock : Prop :=
  ∀ (s : State) (a : Byte), decode (0x00000001 ||| (a.zeroExtend 32 <<< 8)) = .ok (.encrypt a) ∧
    (s.busy = false →
      (∀ code, acceptError (.encrypt a) s = some code →
        exec (.encrypt a) s = .next (rejected (.encrypt a) code s)) ∧
      (acceptError (.encrypt a) s = none →
        ∃ t, exec (.encrypt a) s = .next t ∧ t.busy = true ∧ t.phase = (if a = 0 then .wb else .perm) ∧
          (∀ m, encryptBlock Config.tables s.block s.key s.perm s.subst a.toNat = some m →
            (∀ k, k ≤ 13 * a.toNat → ∃ x, coreRun k t = .next x ∧ x.busy = true ∧
              x.blockLo = s.blockLo ∧ x.blockHi = s.blockHi) ∧
            ∃ u, coreRun (13 * a.toNat + 1) t = .next u ∧ u.block = m ∧ u = { finished (.encrypt a) s with
              work := m, blockLo := u.blockLo, blockHi := u.blockHi, r5 := u.r5, r6 := u.r6, t := u.t
              rctr := a.extractLsb' 0 4, rlimit := a.extractLsb' 0 4, bpos := u.bpos }) ∧
          (∀ (j : Nat) (h : j < 12) (m : Block), j < a.toNat →
            encryptBlock Config.tables s.block s.key s.perm s.subst j = some m →
            cipherRound Config.tables m s.key s.perm s.subst ⟨j, h⟩ = none →
            ∃ u, coreRun (13 * j + 9) t = .next u ∧
              u = { rejected (.encrypt a) .degenerateInverseLookup s with
                work := u.work, r5 := u.r5, r6 := u.r6, t := u.t
                rctr := BitVec.ofNat 4 j, rlimit := a.extractLsb' 0 4, bpos := 7 })))

/-- RANDPERM with 8 or 16, RANDPBOX and RANDSBOX: when the samples that the random-bit port gives hold n distinct
values, and the last sample is the n-th of them, the command writes them in the order drawn as PBOX or SBOX, after one
step a sample and a writeback step. That a draw is the low SW bits of a pending sample is the model's reading (log 3).
-/
def Obligations.RandomPermutationsAreTheDistinctDrawsInOrder : Prop :=
  ∀ (i : Instr) (n : Nat),
    (i, n) ∈ [(Instr.randperm 8, 8), (.randpbox, 8), (.randperm 16, 16), (.randsbox, 16)] →
    ∀ (s : State) (ds : List Nibble) (last : Nibble) (rest : List Nibble) (w : BitVec 3),
      s.busy = false → s.rngIn = ds ++ last :: rest → w = (if n = 8 then 3 else 4) →
      (distinctDraws w [] ds).length < n → (distinctDraws w [] (ds ++ [last])).length = n →
      ∃ t u, exec i s = .next t ∧ t.busy = true ∧ t.phase = .sample ∧
        coreRun (ds.length + 2) t = .next u ∧
        u = { finished i s with
          sn := BitVec.ofNat 5 n, sw := w, seen := u.seen, cnt := BitVec.ofNat 5 n, buf := u.buf
          rngIn := rest, pbox := u.pbox, sboxLo := u.sboxLo, sboxHi := u.sboxHi } ∧
        (n = 8 → u.sboxLo = s.sboxLo ∧ u.sboxHi = s.sboxHi ∧
          ∀ j : Fin 8, (distinctDraws w [] (ds ++ [last]))[j.val]? = some (u.perm[j].zeroExtend 4)) ∧
        (n = 16 → u.pbox = s.pbox ∧
          ∀ j : Fin 16, (distinctDraws w [] (ds ++ [last]))[j.val]? = some u.subst[j])

/-- RANDPERM refuses every size but 8 and 16, and samples nothing. -/
def Obligations.RandpermRefusesEverySizeButEightAndSixteen : Prop :=
  ∀ (s : State) (n : Byte), s.busy = false →
    ((n ≠ 8 ∧ n ≠ 16) → exec (.randperm n) s = .next (rejected (.randperm n) .permSizeUnsupported s)) ∧
    ((n = 8 ∨ n = 16) → ∃ t, exec (.randperm n) s = .next t ∧ t.busy = true ∧ t.phase = .sample)

/-- ENUM_RESET puts the enumerator back to (1,...,1), so that ENUM reads 0x11111111 and ENUM_EXH 0; KEYREG is unchanged. A word
with OP = 0xA and any other field not 0 is no command. -/
def Obligations.EnumResetRestartsTheEnumeration : Prop :=
  decode 0x0000000A = .ok .enumReset ∧
  (∀ w : Word, w.extractLsb' 0 4 = 0xA → w ≠ 0x0000000A → ∃ e, decode w = .error e) ∧
  ∀ s : State, s.busy = false → ∃ t u, exec .enumReset s = .next t ∧ t.busy = true ∧ t.phase = .wb ∧
    coreStep t = .next u ∧
    u = { finished .enumReset s with enumCur := #v[1, 1, 1, 1, 1, 1, 1, 1], enumValid := true } ∧
    readWindow u 0x28 = 0x11111111 ∧ (readWindow u 0x04).getLsbD 9 = false

/-- ENUM_NEXT yields the enumerator's tuple into KEYREG and moves to its successor, or marks the enumeration exhausted after
(15,...,15); with nothing left it fails with KeyEnumExhausted and changes no register. A word with OP = 0xB and any other field
not 0 is no command. -/
def Obligations.EnumNextYieldsTheNextKey : Prop :=
  decode 0x0000000B = .ok .enumNext ∧
  (∀ w : Word, w.extractLsb' 0 4 = 0xB → w ≠ 0x0000000B → ∃ e, decode w = .error e) ∧
  ∀ s : State, s.busy = false →
    (s.enumValid = true → ∃ t u, exec .enumNext s = .next t ∧ t.busy = true ∧ t.phase = .wb ∧
      coreStep t = .next u ∧ u.key = s.enumCur ∧
      u = { finished .enumNext s with
        keyReg := u.keyReg
        enumCur := if s.enumCur = #v[15, 15, 15, 15, 15, 15, 15, 15] then s.enumCur else succKey s.enumCur
        enumValid := if s.enumCur = #v[15, 15, 15, 15, 15, 15, 15, 15] then false else true } ∧
      ((∀ i : Fin 8, s.enumCur[i] ≠ 0) → ∀ i : Fin 8, u.key[i] ≠ 0)) ∧
    (s.enumValid = false → exec .enumNext s = .next (rejected .enumNext .keyEnumExhausted s))

/-- The successor of a tuple of nibbles 1 to 15: trailing 15s become 1, the nibble before them counts up, the rest stay. It is
the next tuple in lexicographic order, k0 most significant. -/
def Obligations.TheSuccessorIsTheNextTupleInLexicographicOrder : Prop :=
  (∀ k : Key, (∀ i : Fin 8, k[i] ≠ 0) → k ≠ #v[15, 15, 15, 15, 15, 15, 15, 15] →
    (∃ j : Fin 8, k[j] ≠ 15 ∧ (succKey k)[j] = k[j] + 1 ∧
      ∀ i : Fin 8, (i < j → (succKey k)[i] = k[i]) ∧ (j < i → k[i] = 15 ∧ (succKey k)[i] = 1)) ∧
    (∀ i : Fin 8, (succKey k)[i] ≠ 0) ∧ keyRank (succKey k) = keyRank k + 1) ∧
  keyRank #v[1, 1, 1, 1, 1, 1, 1, 1] = 0 ∧
  keyRank #v[15, 15, 15, 15, 15, 15, 15, 15] = 15 ^ 8 - 1 ∧
  (∀ k k' : Key, (∀ i : Fin 8, k[i] ≠ 0) → (∀ i : Fin 8, k'[i] ≠ 0) → keyRank k = keyRank k' → k = k')

/-- From the enumerator's first tuple, exactly 15^8 ENUM_NEXT commands succeed. The n-th leaves the tuple of rank n - 1 in
KEYREG, so each tuple is distinct and in order; the next one fails with KeyEnumExhausted. -/
def Obligations.TheEnumerationYieldsExactlyFifteenToTheEighthKeys : Prop :=
  ∀ s : State, s.busy = false → s.enumValid = true → s.enumCur = #v[1, 1, 1, 1, 1, 1, 1, 1] →
    (∀ n : Nat, n < 15 ^ 8 → ∃ u, enumNexts (n + 1) s = some u ∧ u.done = true ∧
      keyRank u.key = n ∧ ∀ i : Fin 8, u.key[i] ≠ 0) ∧
    (∃ u, enumNexts (15 ^ 8) s = some u ∧
      exec .enumNext u = .next (rejected .enumNext .keyEnumExhausted u))

/-! ### Core steps (44_sequencer.md, 43_compress.md, 41_keygen.md) -/

/-- Where the phase goes in a core step, phase by phase and condition by condition: COMP at BPOS = 7 ends the command with
DegenerateInverseLookup where one of the two inverse lookups of byte 7 is degenerate, and goes on where neither is. A host operation
changes the phase only by presenting a command while BUSY = 0, and a reset puts it to IDLE. -/
def Obligations.TheSequencerTakesOnlyTheListedTransitions : Prop :=
  (∀ (s t : State) (op : HostOp) (rest : List Event), s.schedule = .host op :: rest → step s = .next t →
    t.phase ≠ s.phase → s.busy = false ∧ ∃ w, op = .write 0x08 4 w) ∧
  (∀ (s t : State) (rest : List Event), s.schedule = .rst :: rest → step s = .next t → t.phase = .idle) ∧
  ∀ s t : State, s.busy = true → coreStep s = .next t →
    (s.phase = .perm → s.opl = .pbox → t.phase = if s.piter - 1 = 0 then .wb else .perm) ∧
    (s.phase = .perm → s.opl ≠ .pbox → t.phase = .comp) ∧
    (s.phase = .comp → s.bpos ≠ 7 → t.phase = .comp ∧ t.bpos = s.bpos + 1) ∧
    (s.phase = .comp → s.bpos = 7 → ∃ h : s.rctr.toNat < 12,
      let lower := invRow Config.tables (subAt Config.tables (lowerKey Config.tables s.key ⟨s.rctr.toNat, h⟩ 7))
        (s.work[7].extractLsb' 0 4)
      let upper := invRow Config.tables (subAt Config.tables (upperKey Config.tables s.key ⟨s.rctr.toNat, h⟩ 7))
        (s.work[7].extractLsb' 4 4)
      (lower ≠ none → upper ≠ none → t.phase = if s.opl = .compress then .wb else .sub1) ∧
      (lower = none ∨ upper = none →
        t.phase = .idle ∧ t.err = true ∧ t.errCode = .degenerateInverseLookup ∧ t.busy = false)) ∧
    (s.phase = .sub1 → t.phase = .bperm) ∧
    (s.phase = .bperm → t.phase = .sub2) ∧
    (s.phase = .sub2 → t.phase = .fb) ∧
    (s.phase = .fb → t.phase = if s.rctr + 1 = s.rlimit then .wb else .perm) ∧
    (s.phase = .sample → s.rngIn ≠ [] → t.phase = if t.cnt = t.sn then .wb else .sample) ∧
    (s.phase = .wb → t.phase = .idle ∧ t.done = true ∧ t.busy = false)

/-- With BUSY = 0 the core takes no step: with nothing scheduled, or in a core slot, every register keeps its value. -/
def Obligations.AnIdleCoreKeepsEveryRegister : Prop :=
  (∀ s : State, s.busy = false → s.schedule = [] → step s = .next s) ∧
  (∀ (s : State) (rest : List Event), s.busy = false → s.schedule = .core :: rest →
    step s = .next { s with schedule := rest })

/-- The PERM, SUB1, BPERM, SUB2 and FB steps do to the working state what the source's steps 1 and 3 to 6 say, and
nothing else. -/
def Obligations.TheRoundsPhaseStepsDoTheirSubsteps : Prop :=
  ∀ s : State, s.busy = true →
    (s.phase = .perm → s.opl ≠ .pbox → coreStep s = .next { s with
      work := permBlock s.work s.perm, r5 := 0, r6 := 0, bpos := 0, phase := .comp }) ∧
    (s.phase = .perm → s.opl = .pbox → coreStep s = .next { s with
      work := permBlock s.work s.perm, piter := s.piter - 1
      phase := if s.piter - 1 = 0 then .wb else .perm }) ∧
    (s.phase = .sub1 → coreStep s = .next { s with t := subByte s.t s.subst, phase := .bperm }) ∧
    (s.phase = .bperm → coreStep s = .next { s with t := permBits s.t s.perm, phase := .sub2 }) ∧
    (s.phase = .sub2 → coreStep s = .next { s with t := subByte s.t s.subst, phase := .fb }) ∧
    (s.phase = .fb → ∃ u, coreStep s = .next u ∧
      u = { s with
        work := u.work, rctr := s.rctr + 1, phase := if s.rctr + 1 = s.rlimit then .wb else .perm } ∧
      u.work[7] = s.t ∧ ∀ i : Fin 7, u.work[i.val] = s.work[i.val])

/-- The writeback commits what R185 lists for the latched command, sets DONE, clears BUSY, goes to IDLE, and leaves RCTR, BPOS
and every other field as they were. No other core step writes a register that the host sees as data, or the enumerator. -/
def Obligations.TheWritebackAloneCommitsTheCommandsResult : Prop :=
  (∀ s t : State, coreStep s = .next t → s.phase ≠ .wb →
    t.blockLo = s.blockLo ∧ t.blockHi = s.blockHi ∧ t.result = s.result ∧ t.pbox = s.pbox ∧
    t.sboxLo = s.sboxLo ∧ t.sboxHi = s.sboxHi ∧ t.keyReg = s.keyReg ∧ t.enumCur = s.enumCur ∧
    t.enumValid = s.enumValid ∧ t.irqEn = s.irqEn ∧ t.strictKey = s.strictKey ∧ t.wbusy = s.wbusy ∧
    t.schedule = s.schedule ∧ t.rdata = s.rdata) ∧
  ∀ s : State, s.busy = true → s.phase = .wb → ∃ u, coreStep s = .next u ∧
    u = { s with
      done := true, busy := false, phase := .idle
      blockLo := u.blockLo, blockHi := u.blockHi, result := u.result, pbox := u.pbox, sboxLo := u.sboxLo
      sboxHi := u.sboxHi, keyReg := u.keyReg, enumCur := u.enumCur, enumValid := u.enumValid } ∧
    u.block = (if s.opl ∈ [.encrypt, .round, .pbox] then s.work else s.block) ∧
    u.result = (if s.opl ∈ [.compress, .sbox, .pboxbit, .tableRead] then s.t else s.result) ∧
    (∀ j : Fin 8, u.perm[j] =
      if s.opl ∈ [.randperm, .randsbox, .randpbox] ∧ s.sn = 8 then s.buf[j.val].extractLsb' 0 3
      else s.perm[j]) ∧
    u.subst = (if s.opl ∈ [.randperm, .randsbox, .randpbox] ∧ s.sn = 16 then s.buf else s.subst) ∧
    u.key = (if s.opl = .enumNext then s.enumCur else s.key) ∧
    u.enumCur = (if s.opl = .enumReset then #v[1, 1, 1, 1, 1, 1, 1, 1]
      else if s.opl = .enumNext ∧ s.enumCur ≠ #v[15, 15, 15, 15, 15, 15, 15, 15] then succKey s.enumCur
      else s.enumCur) ∧
    u.enumValid = (if s.opl = .enumReset then true
      else if s.opl = .enumNext ∧ s.enumCur = #v[15, 15, 15, 15, 15, 15, 15, 15] then false
      else s.enumValid)

/-- A SAMPLE step takes one draw of SW bits. A value not seen before becomes the next entry of BUF, a value seen before is
discarded, and writeback follows when SN values are collected. That the step waits while the port has no valid sample is the
model's reading (log 3). -/
def Obligations.ASampleStepCollectsANewDrawOrDiscardsIt : Prop :=
  ∀ s : State, s.busy = true → s.phase = .sample → s.cnt.toNat < 16 →
    (s.rngIn = [] → coreStep s = .next s) ∧
    (∀ (d : Nibble) (rest : List Nibble), s.rngIn = d :: rest →
      ∃ t, coreStep s = .next t ∧
        (s.seen.getLsbD (d.toNat % 2 ^ s.sw.toNat) = true →
          t = { s with rngIn := rest, phase := if s.cnt = s.sn then .wb else .sample }) ∧
        (s.seen.getLsbD (d.toNat % 2 ^ s.sw.toNat) = false →
          t = { s with
            rngIn := rest, buf := t.buf, seen := t.seen, cnt := s.cnt + 1
            phase := if s.cnt + 1 = s.sn then .wb else .sample } ∧
          (∀ j : Fin 16, t.buf[j] = if j.val = s.cnt.toNat then
            BitVec.ofNat 4 (d.toNat % 2 ^ s.sw.toNat) else s.buf[j]) ∧
          (∀ v : Fin 16, t.seen.getLsbD v.val = (s.seen.getLsbD v.val ||
            decide (v.val = d.toNat % 2 ^ s.sw.toNat)))))

/-- The 8 COMP steps of a round compute G of WORK, KEYREG and RCTR into T, or raise DegenerateInverseLookup at the eighth. -/
def Obligations.EightCompStepsComputeG : Prop :=
  ∀ (s : State) (h : s.rctr.toNat < 12), s.busy = true → s.phase = .comp → s.bpos = 0 → s.r5 = 0 → s.r6 = 0 →
    (∀ c, compressG Config.tables s.work s.key ⟨s.rctr.toNat, h⟩ = some c →
      ∃ u, coreRun 8 s = .next u ∧ u = { s with
        r5 := highNibble c, r6 := lowNibble c, t := c
        phase := if s.opl = .compress then .wb else .sub1 }) ∧
    (compressG Config.tables s.work s.key ⟨s.rctr.toNat, h⟩ = none →
      ∃ u, coreRun 8 s = .next u ∧ u = { s with
        r5 := u.r5, r6 := u.r6, t := u.t, bpos := 7, err := true, errCode := .degenerateInverseLookup, done := false
        busy := false, phase := .idle })

/-! ### The cipher's functions, for all tables (42_primitives.md, 43_compress.md, 44_sequencer.md) -/

/-- InvRow returns the one index whose entry in the row is n, and none, the degenerate case, where there is not exactly one. Row
0 is degenerate for every n, and every other row has a unique index. -/
def Obligations.TheInverseLookupReturnsTheUniqueIndex : Prop :=
  ∀ (tables : Aut64Tables) (k n : Nibble),
    (∀ i : Nibble, invRow tables k n = some i ↔ ∀ j : Nibble, offsetAt tables k j = n ↔ j = i) ∧
    (k ≠ 0 → ∃ i, invRow tables k n = some i) ∧
    (k = 0 → invRow tables k n = none)

/-- G is degenerate exactly when a row of byte 7 is 0. With TABLE_SUB[0] = 0 and no zero key nibble that cannot happen. At the
BPOS = 7 step of COMP the machine raises DegenerateInverseLookup exactly then. What WORK, T, R5 and R6 hold after the raise is left
open. -/
def Obligations.TheLookupIsDegenerateExactlyOnRowZero : Prop :=
  (∀ (tables : Aut64Tables) (st : Block) (key : Key) (r : Fin 12),
    (compressG tables st key r = none ↔
      subAt tables (lowerKey tables key r 7) = 0 ∨ subAt tables (upperKey tables key r 7) = 0) ∧
    (tables.sub[0] = 0 → (∀ j : Fin 8, key[j] ≠ 0) → compressG tables st key r ≠ none)) ∧
  (∀ (s : State) (h : s.rctr.toNat < 12), s.busy = true → s.phase = .comp → s.bpos = 7 →
    ((∃ t, coreStep s = .next t ∧ t = { s with
        err := true, errCode := .degenerateInverseLookup, done := false, busy := false, phase := .idle
        work := t.work, r5 := t.r5, r6 := t.r6, t := t.t }) ↔
      subAt Config.tables (lowerKey Config.tables s.key ⟨s.rctr.toNat, h⟩ 7) = 0 ∨
      subAt Config.tables (upperKey Config.tables s.key ⟨s.rctr.toNat, h⟩ 7) = 0))

/-- G is the byte whose low nibble is the XOR of TABLE_OFFSET at (key nibble, low data nibble) over bytes 0 to 6 and the inverse
lookup of byte 7, and whose high nibble is the same of the high nibbles. Where an inverse lookup has no unique index, G has no
value. -/
def Obligations.GIsTheXorOfItsForwardAndInverseLookups : Prop :=
  ∀ (tables : Aut64Tables) (st : Block) (key : Key) (r : Fin 12) (il iu : Nibble),
    let lk : Fin 8 → Nibble := fun b => key[octalIndex tables.ln[8 * r.val + b.val]]
    let uk : Fin 8 → Nibble := fun b => key[octalIndex tables.un[8 * r.val + b.val]]
    let lower : Fin 8 → Nibble := fun b => offsetAt tables (lk b) (st[b].extractLsb' 0 4)
    let upper : Fin 8 → Nibble := fun b => offsetAt tables (uk b) (st[b].extractLsb' 4 4)
    let lowerUnique : Nibble → Prop := fun i =>
      ∀ j, offsetAt tables (subAt tables (lk 7)) j = st[7].extractLsb' 0 4 ↔ j = i
    let upperUnique : Nibble → Prop := fun i =>
      ∀ j, offsetAt tables (subAt tables (uk 7)) j = st[7].extractLsb' 4 4 ↔ j = i
    (lowerUnique il → upperUnique iu → ∃ c, compressG tables st key r = some c ∧
      c.extractLsb' 0 4 =
        lower 0 ^^^ lower 1 ^^^ lower 2 ^^^ lower 3 ^^^ lower 4 ^^^ lower 5 ^^^ lower 6 ^^^ il ∧
      c.extractLsb' 4 4 =
        upper 0 ^^^ upper 1 ^^^ upper 2 ^^^ upper 3 ^^^ upper 4 ^^^ upper 5 ^^^ upper 6 ^^^ iu) ∧
    (((∀ i, ¬ lowerUnique i) ∨ (∀ i, ¬ upperUnique i)) → compressG tables st key r = none)

/-- G's corner cases. A zero key nibble adds 0 and a key nibble of 1 adds the data nibble; a data nibble of 0 adds 0 and one of 1
adds the key nibble; the inverse lookup of 0 is 0 and of the row itself is 1, for a row other than 0; and an all-zero state
gives 0 unless byte 7 hits row 0. -/
def Obligations.GHasTheCornerCasesThatTheTablesForce : Prop :=
  ∀ tables : Aut64Tables,
    (∀ n : Nibble, offsetAt tables 0 n = 0) ∧
    (∀ n : Nibble, offsetAt tables 1 n = n) ∧
    (∀ k : Nibble, offsetAt tables k 0 = 0) ∧
    (∀ k : Nibble, offsetAt tables k 1 = k) ∧
    (∀ k : Nibble, k ≠ 0 → invRow tables k 0 = some 0 ∧ invRow tables k k = some 1) ∧
    (∀ (key : Key) (r : Fin 12) (c : Byte),
      compressG tables (Vector.replicate 8 0) key r = some c → c = 0)

/-- For a bijective sbox, SubByte is a bijection on bytes, and SubByte through the inverse sbox undoes it. -/
def Obligations.SubByteThroughABijectiveSboxIsABijection : Prop :=
  ∀ sb : Sbox, Distinct16 sb →
    Function.Bijective (fun b : Byte => subByte b sb) ∧
    ∀ inv : Sbox, (∀ j : Fin 16, inv[nibbleIndex sb[j]] = BitVec.ofNat 4 j.val) →
      ∀ b : Byte, subByte (subByte b sb) inv = b

/-- For a bijective pbox, PermBlock puts byte i at position P[i] and is a bijection on blocks, and as many applications as the
order of P are the identity. -/
def Obligations.PermBlockThroughABijectivePboxIsABijection : Prop :=
  ∀ p : Pbox, Distinct8 p →
    (∀ (b : Block) (i : Fin 8), (permBlock b p)[octalIndex p[i]] = b[i]) ∧
    Function.Bijective (fun b : Block => permBlock b p) ∧
    ∀ n : Nat, (∀ i : Fin 8, (fun j => octalIndex p[j])^[n] i = i) →
      ∀ b : Block, permBlockIter b p n = b

/-- For a bijective pbox, PermBits is a bijection on bytes that keeps the number of set bits. -/
def Obligations.PermBitsThroughABijectivePboxIsABijection : Prop :=
  ∀ p : Pbox, Distinct8 p →
    Function.Bijective (fun b : Byte => permBits b p) ∧
    ∀ b : Byte, ((List.finRange 8).filter fun i => (permBits b p).getLsbD i.val).length =
      ((List.finRange 8).filter fun i => b.getLsbD i.val).length

/-- A round permutes the block and then rewrites byte 7 only, so that bytes 0 to 6 are bytes of the block before, each from a
place of its own; it has a result exactly where G is not degenerate. Encryption with R rounds is rounds 0 to R-1 in turn, so that
one round more is the round of index R on the result, and no round at all is the message itself. -/
def Obligations.EncryptionIsItsRoundsInTurnAndEachRewritesByteSeven : Prop :=
  ∀ (tables : Aut64Tables) (key : Key) (p : Pbox) (sb : Sbox),
    (∀ (st m : Block) (r : Fin 12), cipherRound tables st key p sb r = some m →
      ∃ g, compressG tables (permBlock st p) key r = some g ∧
        m[7] = subByte (permBits (subByte g sb) p) sb ∧
        (∀ i : Fin 7, m[i.val] = (permBlock st p)[i.val]) ∧
        (Distinct8 p → ∃ q : Fin 8 → Fin 8, Function.Injective q ∧ ∀ i : Fin 7, m[i.val] = st[q i.castSucc])) ∧
    (∀ (st : Block) (r : Fin 12) (g : Byte), compressG tables (permBlock st p) key r = some g →
      ∃ m, cipherRound tables st key p sb r = some m) ∧
    (∀ (st : Block) (r : Fin 12), compressG tables (permBlock st p) key r = none →
      cipherRound tables st key p sb r = none) ∧
    (∀ m : Block, encryptBlock tables m key p sb 0 = some m) ∧
    (∀ (m : Block) (n : Nat) (h : n < 12), encryptBlock tables m key p sb (n + 1) =
      (encryptBlock tables m key p sb n).bind fun st => cipherRound tables st key p sb ⟨n, h⟩)

/-! ### Errors, status and interrupt (60_exceptions.md) -/

/-- A step that raises an error ends the command, changes no data register, no result and no enumerator, and keeps RCTR and
BPOS. A core step raises nothing but DegenerateInverseLookup, and only for COMPRESS, ROUND and
ENCRYPT. -/
def Obligations.AnErrorEndsTheCommandAndWritesNothingBack : Prop :=
  (∀ s t : State, step s = .next t → s.err = false → t.err = true →
    t.busy = false ∧ t.phase = .idle ∧ t.done = false ∧ t.errCode ≠ .none ∧
    t.blockLo = s.blockLo ∧ t.blockHi = s.blockHi ∧ t.result = s.result ∧ t.keyReg = s.keyReg ∧
    t.pbox = s.pbox ∧ t.sboxLo = s.sboxLo ∧ t.sboxHi = s.sboxHi ∧ t.enumCur = s.enumCur ∧
    t.enumValid = s.enumValid ∧ t.rctr = s.rctr ∧ t.bpos = s.bpos) ∧
  (∀ s t : State, Inv s → s.busy = true → coreStep s = .next t → t.err = true →
    t.errCode = .degenerateInverseLookup ∧ (s.opl = .compress ∨ s.opl = .round ∨ s.opl = .encrypt))

/-- The error state ends only by a host write of STATUS with bit 2 set, which keeps ERRCODE, by the accept of a
command, or by a reset, both of which clear ERRCODE. A host access is an event of the schedule (log 4). -/
def Obligations.TheErrorStateEndsOnlyByClearingAcceptOrReset : Prop :=
  ∀ s t : State, step s = .next t → s.err = true → t.err = false →
    (∃ v rest, s.schedule = .host (.write 0x04 4 v) :: rest ∧ v.getLsbD 2 = true ∧ t.errCode = s.errCode) ∨
    (∃ w rest i, s.schedule = .host (.write 0x08 4 w) :: rest ∧ decode w = .ok i ∧ s.busy = false ∧
      t.busy = true ∧ t.errCode = .none) ∨
    (∃ rest, s.schedule = .rst :: rest ∧ t.errCode = .none)

/-- A dropped write sets only WBUSY: the command goes on, and IRQ does not change. WBUSY is cleared only by a host write of
STATUS with bit 8 set, or by reset, and set only by a dropped write, which is a write to CMD or a data register while BUSY = 1. -/
def Obligations.WbusyIsStickyAndADroppedWriteIsNoError : Prop :=
  (∀ (s : State) (offset : BitVec 8) (v : Word) (rest : List Event),
    s.schedule = .host (.write offset 4 v) :: rest → s.busy = true →
    offset ∈ [0x08, 0x10, 0x14, 0x18, 0x1C, 0x20, 0x24] →
    ∃ t, step s = .next t ∧ t = { s with schedule := rest, wbusy := true } ∧ irq t = irq s) ∧
  (∀ s t : State, step s = .next t → s.wbusy = true → t.wbusy = false →
    (∃ v rest, s.schedule = .host (.write 0x04 4 v) :: rest ∧ v.getLsbD 8 = true) ∨
    (∃ rest, s.schedule = .rst :: rest)) ∧
  (∀ s t : State, step s = .next t → s.wbusy = false → t.wbusy = true → s.busy = true ∧
    ∃ offset v rest, s.schedule = .host (.write offset 4 v) :: rest ∧
      offset ∈ [0x08#8, 0x10, 0x14, 0x18, 0x1C, 0x20, 0x24])

/-- IRQ is IRQ_EN and (DONE or ERR), as CTRL and STATUS read: asserted by the step that completes a command or raises an error
when IRQ_EN is 1, and cleared by clearing DONE and ERR, by a new accept, or by clearing IRQ_EN. -/
def Obligations.TheInterruptLineFollowsDoneErrAndItsEnable : Prop :=
  (∀ s : State, irq s = ((readWindow s 0x00).getLsbD 0 &&
    ((readWindow s 0x04).getLsbD 1 || (readWindow s 0x04).getLsbD 2))) ∧
  (∀ s t : State, s.busy = true → s.phase = .wb → coreStep s = .next t → irq t = s.irqEn) ∧
  (∀ (c : ErrCode) (s : State), irq (raise c s) = s.irqEn) ∧
  (∀ (i : Instr) (s t : State), s.busy = false → exec i s = .next t → t.busy = true → irq t = false) ∧
  (∀ (s t : State) (v : Word) (rest : List Event), step s = .next t →
    (s.schedule = .host (.write 0x04 4 v) :: rest → v.getLsbD 1 = true → v.getLsbD 2 = true →
      irq t = false) ∧
    (s.schedule = .host (.write 0x00 4 v) :: rest → v.getLsbD 0 = false → irq t = false))

/-! ### Reset (10_state.md, 70_reset_and_hazards.md) -/

/-- An assertion of `rst`, in any phase, gives every register and internal element that R46 lists its reset value.
What R46 leaves unspecified is not stated here. An assertion of rst is an event of the schedule (log 4, log 12). -/
def Obligations.ResetGivesEveryRegisterItsListedValue : Prop :=
  ∀ (s : State) (rest : List Event), s.schedule = .rst :: rest → ∃ t, step s = .next t ∧
    t.irqEn = false ∧ t.strictKey = false ∧ readWindow t 0x00 = 0 ∧ readWindow t 0x04 = 0 ∧
    t.busy = false ∧ t.done = false ∧ t.err = false ∧ t.errCode = .none ∧ t.wbusy = false ∧
    t.blockLo = 0 ∧ t.blockHi = 0 ∧ t.keyReg = 0 ∧ t.pbox = 0 ∧ t.sboxLo = 0 ∧ t.sboxHi = 0 ∧
    t.result = 0 ∧ t.enumCur = #v[1, 1, 1, 1, 1, 1, 1, 1] ∧ readWindow t 0x28 = 0x11111111 ∧
    t.enumValid = true ∧ t.phase = .idle ∧ t.rctr = 0 ∧ t.rlimit = 0 ∧ t.bpos = 0 ∧ t.piter = 0 ∧
    irq t = false

/-! ### Whole-machine rules and invariants -/

/-- RESULT reads with bits 31 to 8 zero, ignores host writes, and changes only at the writeback of COMPRESS, SBOX, PBOXBIT or
TABLE_READ, or by reset, which makes it 0. -/
def Obligations.ResultChangesOnlyAtTheWritebackOfItsFourCommands : Prop :=
  State.reset.result = 0 ∧
  (∀ s : State, readWindow s 0x0C = s.result.zeroExtend 32 ∧ (readWindow s 0x0C).toNat < 256 ∧
    ∀ v, writeWindow s 0x0C v = .next s) ∧
  (∀ s t : State, step s = .next t → t.result ≠ s.result →
    (s.busy = true ∧ s.phase = .wb ∧ s.opl ∈ [.compress, .sbox, .pboxbit, .tableRead]) ∨
    (∃ rest, s.schedule = .rst :: rest ∧ t.result = 0))

/-- BLOCK, KEYREG, PBOX, SBOX and the enumerator change only by a host write while BUSY = 0, at the writeback of the commands that
R22 to R25, R117 and R118 name, or by reset. -/
def Obligations.DataRegistersChangeOnlyByTheirWriters : Prop :=
  ∀ s t : State, step s = .next t → (∀ rest, s.schedule ≠ .rst :: rest) →
    ((t.blockLo ≠ s.blockLo ∨ t.blockHi ≠ s.blockHi) →
      (s.busy = true ∧ s.phase = .wb ∧ s.opl ∈ [.encrypt, .round, .pbox]) ∨
      (s.busy = false ∧ ∃ offset v rest, s.schedule = .host (.write offset 4 v) :: rest ∧
        (offset = 0x10 ∨ offset = 0x14))) ∧
    (t.keyReg ≠ s.keyReg → (s.busy = true ∧ s.phase = .wb ∧ s.opl = .enumNext) ∨
      (s.busy = false ∧ ∃ v rest, s.schedule = .host (.write 0x18 4 v) :: rest)) ∧
    (t.pbox ≠ s.pbox →
      (s.busy = true ∧ s.phase = .wb ∧ s.opl ∈ [.randperm, .randsbox, .randpbox] ∧ s.sn = 8) ∨
      (s.busy = false ∧ ∃ v rest, s.schedule = .host (.write 0x1C 4 v) :: rest)) ∧
    ((t.sboxLo ≠ s.sboxLo ∨ t.sboxHi ≠ s.sboxHi) →
      (s.busy = true ∧ s.phase = .wb ∧ s.opl ∈ [.randperm, .randsbox, .randpbox] ∧ s.sn = 16) ∨
      (s.busy = false ∧ ∃ offset v rest, s.schedule = .host (.write offset 4 v) :: rest ∧
        (offset = 0x20 ∨ offset = 0x24))) ∧
    ((t.enumCur ≠ s.enumCur ∨ t.enumValid ≠ s.enumValid) →
      s.busy = true ∧ s.phase = .wb ∧ (s.opl = .enumReset ∨ s.opl = .enumNext))

/-- The invariant holds at reset. Inv is the structure of Safety.lean, whose fields name their rules. It says nothing
in the reset state about a field whose reset value is the model's choice (log 5). -/
def Obligations.ResetMeetsTheInvariant : Prop := Inv State.reset

/-- Every step keeps the invariant: BUSY = 1 exactly when PHASE is not IDLE, DONE and ERR exclude each other, the
round counter, the boxes in use, the enumerator and the sampler stay in their ranges. Inv is the structure of
Safety.lean, whose fields name their rules. -/
def Obligations.EveryStepKeepsTheInvariant : Prop :=
  ∀ s t : State, Inv s → step s = .next t → Inv t

/-- A machine that meets the invariant never stops with a fault, and a core step of it always has a next state. The
faults are the model's own, for states that no run reaches (log 8). -/
def Obligations.AMachineThatMeetsTheInvariantNeverFaults : Prop :=
  (∀ (s : State) (f : Fault), Inv s → step s ≠ .fault f) ∧
  (∀ s : State, Inv s → ∃ t, coreStep s = .next t)

/-- The permutation that RANDPERM, RANDSBOX or RANDPBOX writes is a bijection. -/
def Obligations.TheGeneratedBoxesAreBijections : Prop :=
  ∀ s t : State, Inv s → s.busy = true → s.phase = .wb →
    (s.opl = .randperm ∨ s.opl = .randsbox ∨ s.opl = .randpbox) → coreStep s = .next t →
      (s.sn = 8 ∧ Distinct8 t.perm) ∨ (s.sn = 16 ∧ Distinct16 t.subst)

/-- However host accesses inside the interface are mixed between the core steps of a command, the state after the last
core step is the one that the core steps alone give, but for CTRL, WBUSY, the value last read and the schedule. The
schedule of events is the model's (log 4). -/
def Obligations.InterleavedHostAccessesDoNotChangeACommandsResult : Prop :=
  ∀ (es : List Event) (s t : State), Inv s → s.schedule = es ++ [.core] →
    (∀ e ∈ es, interleaves e = true) →
    (∀ k, k ≤ es.count .core → ∃ x, coreRun k s = .next x ∧ x.busy = true) →
    coreRun (es.count .core + 1) s = .next t →
    ∃ u, run (es.length + 1) s = .next u ∧ u.schedule = [] ∧ SameCommandState t u

/-- What the fields without a specified reset value hold makes no difference to what the host can see, in any run from
an idle machine: such a field is never read before it is written. The values that the model gives those fields at
reset are its own choice (log 5), and the statement does not rest on them. -/
def Obligations.UnspecifiedResetValuesAreNeverObserved : Prop :=
  ∀ (s u : State), SameButScratch s u → s.busy = false → s.phase = .idle →
    ∀ n : Nat, SameResult (run n s) (run n u)
end

