-- ==== Sys2Proof/Laws/State.lean ====
section
/-! SUPPORT. What each shared update of the state does to each of its fields: one lemma per field per update. -/

namespace Sys2Proof.Machine

/-! The fields after a dropped host write (`dropWrite`). -/

@[simp] theorem dropWrite_irqEn (s : State) : (dropWrite s).irqEn = s.irqEn := rfl
@[simp] theorem dropWrite_strictKey (s : State) : (dropWrite s).strictKey = s.strictKey := rfl
@[simp] theorem dropWrite_busy (s : State) : (dropWrite s).busy = s.busy := rfl
@[simp] theorem dropWrite_done (s : State) : (dropWrite s).done = s.done := rfl
@[simp] theorem dropWrite_err (s : State) : (dropWrite s).err = s.err := rfl
@[simp] theorem dropWrite_errCode (s : State) : (dropWrite s).errCode = s.errCode := rfl
@[simp] theorem dropWrite_wbusy (s : State) : (dropWrite s).wbusy = true := rfl
@[simp] theorem dropWrite_blockLo (s : State) : (dropWrite s).blockLo = s.blockLo := rfl
@[simp] theorem dropWrite_blockHi (s : State) : (dropWrite s).blockHi = s.blockHi := rfl
@[simp] theorem dropWrite_keyReg (s : State) : (dropWrite s).keyReg = s.keyReg := rfl
@[simp] theorem dropWrite_pbox (s : State) : (dropWrite s).pbox = s.pbox := rfl
@[simp] theorem dropWrite_sboxLo (s : State) : (dropWrite s).sboxLo = s.sboxLo := rfl
@[simp] theorem dropWrite_sboxHi (s : State) : (dropWrite s).sboxHi = s.sboxHi := rfl
@[simp] theorem dropWrite_result (s : State) : (dropWrite s).result = s.result := rfl
@[simp] theorem dropWrite_work (s : State) : (dropWrite s).work = s.work := rfl
@[simp] theorem dropWrite_r5 (s : State) : (dropWrite s).r5 = s.r5 := rfl
@[simp] theorem dropWrite_r6 (s : State) : (dropWrite s).r6 = s.r6 := rfl
@[simp] theorem dropWrite_phase (s : State) : (dropWrite s).phase = s.phase := rfl
@[simp] theorem dropWrite_rctr (s : State) : (dropWrite s).rctr = s.rctr := rfl
@[simp] theorem dropWrite_rlimit (s : State) : (dropWrite s).rlimit = s.rlimit := rfl
@[simp] theorem dropWrite_bpos (s : State) : (dropWrite s).bpos = s.bpos := rfl
@[simp] theorem dropWrite_piter (s : State) : (dropWrite s).piter = s.piter := rfl
@[simp] theorem dropWrite_t (s : State) : (dropWrite s).t = s.t := rfl
@[simp] theorem dropWrite_opl (s : State) : (dropWrite s).opl = s.opl := rfl
@[simp] theorem dropWrite_argl (s : State) : (dropWrite s).argl = s.argl := rfl
@[simp] theorem dropWrite_tsell (s : State) : (dropWrite s).tsell = s.tsell := rfl
@[simp] theorem dropWrite_strictl (s : State) : (dropWrite s).strictl = s.strictl := rfl
@[simp] theorem dropWrite_enumCur (s : State) : (dropWrite s).enumCur = s.enumCur := rfl
@[simp] theorem dropWrite_enumValid (s : State) : (dropWrite s).enumValid = s.enumValid := rfl
@[simp] theorem dropWrite_sn (s : State) : (dropWrite s).sn = s.sn := rfl
@[simp] theorem dropWrite_sw (s : State) : (dropWrite s).sw = s.sw := rfl
@[simp] theorem dropWrite_seen (s : State) : (dropWrite s).seen = s.seen := rfl
@[simp] theorem dropWrite_cnt (s : State) : (dropWrite s).cnt = s.cnt := rfl
@[simp] theorem dropWrite_buf (s : State) : (dropWrite s).buf = s.buf := rfl
@[simp] theorem dropWrite_schedule (s : State) : (dropWrite s).schedule = s.schedule := rfl
@[simp] theorem dropWrite_rngIn (s : State) : (dropWrite s).rngIn = s.rngIn := rfl
@[simp] theorem dropWrite_rdata (s : State) : (dropWrite s).rdata = s.rdata := rfl

/-! The fields after an error that is raised (`raise`). -/

@[simp] theorem raise_irqEn (c : ErrCode) (s : State) : (raise c s).irqEn = s.irqEn := rfl
@[simp] theorem raise_strictKey (c : ErrCode) (s : State) : (raise c s).strictKey = s.strictKey := rfl
@[simp] theorem raise_busy (c : ErrCode) (s : State) : (raise c s).busy = false := rfl
@[simp] theorem raise_done (c : ErrCode) (s : State) : (raise c s).done = false := rfl
@[simp] theorem raise_err (c : ErrCode) (s : State) : (raise c s).err = true := rfl
@[simp] theorem raise_errCode (c : ErrCode) (s : State) : (raise c s).errCode = c := rfl
@[simp] theorem raise_wbusy (c : ErrCode) (s : State) : (raise c s).wbusy = s.wbusy := rfl
@[simp] theorem raise_blockLo (c : ErrCode) (s : State) : (raise c s).blockLo = s.blockLo := rfl
@[simp] theorem raise_blockHi (c : ErrCode) (s : State) : (raise c s).blockHi = s.blockHi := rfl
@[simp] theorem raise_keyReg (c : ErrCode) (s : State) : (raise c s).keyReg = s.keyReg := rfl
@[simp] theorem raise_pbox (c : ErrCode) (s : State) : (raise c s).pbox = s.pbox := rfl
@[simp] theorem raise_sboxLo (c : ErrCode) (s : State) : (raise c s).sboxLo = s.sboxLo := rfl
@[simp] theorem raise_sboxHi (c : ErrCode) (s : State) : (raise c s).sboxHi = s.sboxHi := rfl
@[simp] theorem raise_result (c : ErrCode) (s : State) : (raise c s).result = s.result := rfl
@[simp] theorem raise_work (c : ErrCode) (s : State) : (raise c s).work = s.work := rfl
@[simp] theorem raise_r5 (c : ErrCode) (s : State) : (raise c s).r5 = s.r5 := rfl
@[simp] theorem raise_r6 (c : ErrCode) (s : State) : (raise c s).r6 = s.r6 := rfl
@[simp] theorem raise_phase (c : ErrCode) (s : State) : (raise c s).phase = .idle := rfl
@[simp] theorem raise_rctr (c : ErrCode) (s : State) : (raise c s).rctr = s.rctr := rfl
@[simp] theorem raise_rlimit (c : ErrCode) (s : State) : (raise c s).rlimit = s.rlimit := rfl
@[simp] theorem raise_bpos (c : ErrCode) (s : State) : (raise c s).bpos = s.bpos := rfl
@[simp] theorem raise_piter (c : ErrCode) (s : State) : (raise c s).piter = s.piter := rfl
@[simp] theorem raise_t (c : ErrCode) (s : State) : (raise c s).t = s.t := rfl
@[simp] theorem raise_opl (c : ErrCode) (s : State) : (raise c s).opl = s.opl := rfl
@[simp] theorem raise_argl (c : ErrCode) (s : State) : (raise c s).argl = s.argl := rfl
@[simp] theorem raise_tsell (c : ErrCode) (s : State) : (raise c s).tsell = s.tsell := rfl
@[simp] theorem raise_strictl (c : ErrCode) (s : State) : (raise c s).strictl = s.strictl := rfl
@[simp] theorem raise_enumCur (c : ErrCode) (s : State) : (raise c s).enumCur = s.enumCur := rfl
@[simp] theorem raise_enumValid (c : ErrCode) (s : State) : (raise c s).enumValid = s.enumValid := rfl
@[simp] theorem raise_sn (c : ErrCode) (s : State) : (raise c s).sn = s.sn := rfl
@[simp] theorem raise_sw (c : ErrCode) (s : State) : (raise c s).sw = s.sw := rfl
@[simp] theorem raise_seen (c : ErrCode) (s : State) : (raise c s).seen = s.seen := rfl
@[simp] theorem raise_cnt (c : ErrCode) (s : State) : (raise c s).cnt = s.cnt := rfl
@[simp] theorem raise_buf (c : ErrCode) (s : State) : (raise c s).buf = s.buf := rfl
@[simp] theorem raise_schedule (c : ErrCode) (s : State) : (raise c s).schedule = s.schedule := rfl
@[simp] theorem raise_rngIn (c : ErrCode) (s : State) : (raise c s).rngIn = s.rngIn := rfl
@[simp] theorem raise_rdata (c : ErrCode) (s : State) : (raise c s).rdata = s.rdata := rfl

/-! The fields after the end of a writeback (`complete`). -/

@[simp] theorem complete_irqEn (s : State) : (complete s).irqEn = s.irqEn := rfl
@[simp] theorem complete_strictKey (s : State) : (complete s).strictKey = s.strictKey := rfl
@[simp] theorem complete_busy (s : State) : (complete s).busy = false := rfl
@[simp] theorem complete_done (s : State) : (complete s).done = true := rfl
@[simp] theorem complete_err (s : State) : (complete s).err = s.err := rfl
@[simp] theorem complete_errCode (s : State) : (complete s).errCode = s.errCode := rfl
@[simp] theorem complete_wbusy (s : State) : (complete s).wbusy = s.wbusy := rfl
@[simp] theorem complete_blockLo (s : State) : (complete s).blockLo = s.blockLo := rfl
@[simp] theorem complete_blockHi (s : State) : (complete s).blockHi = s.blockHi := rfl
@[simp] theorem complete_keyReg (s : State) : (complete s).keyReg = s.keyReg := rfl
@[simp] theorem complete_pbox (s : State) : (complete s).pbox = s.pbox := rfl
@[simp] theorem complete_sboxLo (s : State) : (complete s).sboxLo = s.sboxLo := rfl
@[simp] theorem complete_sboxHi (s : State) : (complete s).sboxHi = s.sboxHi := rfl
@[simp] theorem complete_result (s : State) : (complete s).result = s.result := rfl
@[simp] theorem complete_work (s : State) : (complete s).work = s.work := rfl
@[simp] theorem complete_r5 (s : State) : (complete s).r5 = s.r5 := rfl
@[simp] theorem complete_r6 (s : State) : (complete s).r6 = s.r6 := rfl
@[simp] theorem complete_phase (s : State) : (complete s).phase = .idle := rfl
@[simp] theorem complete_rctr (s : State) : (complete s).rctr = s.rctr := rfl
@[simp] theorem complete_rlimit (s : State) : (complete s).rlimit = s.rlimit := rfl
@[simp] theorem complete_bpos (s : State) : (complete s).bpos = s.bpos := rfl
@[simp] theorem complete_piter (s : State) : (complete s).piter = s.piter := rfl
@[simp] theorem complete_t (s : State) : (complete s).t = s.t := rfl
@[simp] theorem complete_opl (s : State) : (complete s).opl = s.opl := rfl
@[simp] theorem complete_argl (s : State) : (complete s).argl = s.argl := rfl
@[simp] theorem complete_tsell (s : State) : (complete s).tsell = s.tsell := rfl
@[simp] theorem complete_strictl (s : State) : (complete s).strictl = s.strictl := rfl
@[simp] theorem complete_enumCur (s : State) : (complete s).enumCur = s.enumCur := rfl
@[simp] theorem complete_enumValid (s : State) : (complete s).enumValid = s.enumValid := rfl
@[simp] theorem complete_sn (s : State) : (complete s).sn = s.sn := rfl
@[simp] theorem complete_sw (s : State) : (complete s).sw = s.sw := rfl
@[simp] theorem complete_seen (s : State) : (complete s).seen = s.seen := rfl
@[simp] theorem complete_cnt (s : State) : (complete s).cnt = s.cnt := rfl
@[simp] theorem complete_buf (s : State) : (complete s).buf = s.buf := rfl
@[simp] theorem complete_schedule (s : State) : (complete s).schedule = s.schedule := rfl
@[simp] theorem complete_rngIn (s : State) : (complete s).rngIn = s.rngIn := rfl
@[simp] theorem complete_rdata (s : State) : (complete s).rdata = s.rdata := rfl

/-! The fields after the start of an accept (`clearStatus`). -/

@[simp] theorem clearStatus_irqEn (s : State) : (clearStatus s).irqEn = s.irqEn := rfl
@[simp] theorem clearStatus_strictKey (s : State) : (clearStatus s).strictKey = s.strictKey := rfl
@[simp] theorem clearStatus_busy (s : State) : (clearStatus s).busy = s.busy := rfl
@[simp] theorem clearStatus_done (s : State) : (clearStatus s).done = false := rfl
@[simp] theorem clearStatus_err (s : State) : (clearStatus s).err = false := rfl
@[simp] theorem clearStatus_errCode (s : State) : (clearStatus s).errCode = .none := rfl
@[simp] theorem clearStatus_wbusy (s : State) : (clearStatus s).wbusy = s.wbusy := rfl
@[simp] theorem clearStatus_blockLo (s : State) : (clearStatus s).blockLo = s.blockLo := rfl
@[simp] theorem clearStatus_blockHi (s : State) : (clearStatus s).blockHi = s.blockHi := rfl
@[simp] theorem clearStatus_keyReg (s : State) : (clearStatus s).keyReg = s.keyReg := rfl
@[simp] theorem clearStatus_pbox (s : State) : (clearStatus s).pbox = s.pbox := rfl
@[simp] theorem clearStatus_sboxLo (s : State) : (clearStatus s).sboxLo = s.sboxLo := rfl
@[simp] theorem clearStatus_sboxHi (s : State) : (clearStatus s).sboxHi = s.sboxHi := rfl
@[simp] theorem clearStatus_result (s : State) : (clearStatus s).result = s.result := rfl
@[simp] theorem clearStatus_work (s : State) : (clearStatus s).work = s.work := rfl
@[simp] theorem clearStatus_r5 (s : State) : (clearStatus s).r5 = s.r5 := rfl
@[simp] theorem clearStatus_r6 (s : State) : (clearStatus s).r6 = s.r6 := rfl
@[simp] theorem clearStatus_phase (s : State) : (clearStatus s).phase = s.phase := rfl
@[simp] theorem clearStatus_rctr (s : State) : (clearStatus s).rctr = s.rctr := rfl
@[simp] theorem clearStatus_rlimit (s : State) : (clearStatus s).rlimit = s.rlimit := rfl
@[simp] theorem clearStatus_bpos (s : State) : (clearStatus s).bpos = s.bpos := rfl
@[simp] theorem clearStatus_piter (s : State) : (clearStatus s).piter = s.piter := rfl
@[simp] theorem clearStatus_t (s : State) : (clearStatus s).t = s.t := rfl
@[simp] theorem clearStatus_opl (s : State) : (clearStatus s).opl = s.opl := rfl
@[simp] theorem clearStatus_argl (s : State) : (clearStatus s).argl = s.argl := rfl
@[simp] theorem clearStatus_tsell (s : State) : (clearStatus s).tsell = s.tsell := rfl
@[simp] theorem clearStatus_strictl (s : State) : (clearStatus s).strictl = s.strictl := rfl
@[simp] theorem clearStatus_enumCur (s : State) : (clearStatus s).enumCur = s.enumCur := rfl
@[simp] theorem clearStatus_enumValid (s : State) : (clearStatus s).enumValid = s.enumValid := rfl
@[simp] theorem clearStatus_sn (s : State) : (clearStatus s).sn = s.sn := rfl
@[simp] theorem clearStatus_sw (s : State) : (clearStatus s).sw = s.sw := rfl
@[simp] theorem clearStatus_seen (s : State) : (clearStatus s).seen = s.seen := rfl
@[simp] theorem clearStatus_cnt (s : State) : (clearStatus s).cnt = s.cnt := rfl
@[simp] theorem clearStatus_buf (s : State) : (clearStatus s).buf = s.buf := rfl
@[simp] theorem clearStatus_schedule (s : State) : (clearStatus s).schedule = s.schedule := rfl
@[simp] theorem clearStatus_rngIn (s : State) : (clearStatus s).rngIn = s.rngIn := rfl
@[simp] theorem clearStatus_rdata (s : State) : (clearStatus s).rdata = s.rdata := rfl

/-! The fields after the latches of an accept (`latch`). -/

@[simp] theorem latch_irqEn (o : Op) (a : Byte) (x : TSel) (s : State) : (latch o a x s).irqEn = s.irqEn := rfl
@[simp] theorem latch_strictKey (o : Op) (a : Byte) (x : TSel) (s : State) : (latch o a x s).strictKey = s.strictKey := rfl
@[simp] theorem latch_busy (o : Op) (a : Byte) (x : TSel) (s : State) : (latch o a x s).busy = s.busy := rfl
@[simp] theorem latch_done (o : Op) (a : Byte) (x : TSel) (s : State) : (latch o a x s).done = s.done := rfl
@[simp] theorem latch_err (o : Op) (a : Byte) (x : TSel) (s : State) : (latch o a x s).err = s.err := rfl
@[simp] theorem latch_errCode (o : Op) (a : Byte) (x : TSel) (s : State) : (latch o a x s).errCode = s.errCode := rfl
@[simp] theorem latch_wbusy (o : Op) (a : Byte) (x : TSel) (s : State) : (latch o a x s).wbusy = s.wbusy := rfl
@[simp] theorem latch_blockLo (o : Op) (a : Byte) (x : TSel) (s : State) : (latch o a x s).blockLo = s.blockLo := rfl
@[simp] theorem latch_blockHi (o : Op) (a : Byte) (x : TSel) (s : State) : (latch o a x s).blockHi = s.blockHi := rfl
@[simp] theorem latch_keyReg (o : Op) (a : Byte) (x : TSel) (s : State) : (latch o a x s).keyReg = s.keyReg := rfl
@[simp] theorem latch_pbox (o : Op) (a : Byte) (x : TSel) (s : State) : (latch o a x s).pbox = s.pbox := rfl
@[simp] theorem latch_sboxLo (o : Op) (a : Byte) (x : TSel) (s : State) : (latch o a x s).sboxLo = s.sboxLo := rfl
@[simp] theorem latch_sboxHi (o : Op) (a : Byte) (x : TSel) (s : State) : (latch o a x s).sboxHi = s.sboxHi := rfl
@[simp] theorem latch_result (o : Op) (a : Byte) (x : TSel) (s : State) : (latch o a x s).result = s.result := rfl
@[simp] theorem latch_work (o : Op) (a : Byte) (x : TSel) (s : State) : (latch o a x s).work = s.work := rfl
@[simp] theorem latch_r5 (o : Op) (a : Byte) (x : TSel) (s : State) : (latch o a x s).r5 = s.r5 := rfl
@[simp] theorem latch_r6 (o : Op) (a : Byte) (x : TSel) (s : State) : (latch o a x s).r6 = s.r6 := rfl
@[simp] theorem latch_phase (o : Op) (a : Byte) (x : TSel) (s : State) : (latch o a x s).phase = s.phase := rfl
@[simp] theorem latch_rctr (o : Op) (a : Byte) (x : TSel) (s : State) : (latch o a x s).rctr = s.rctr := rfl
@[simp] theorem latch_rlimit (o : Op) (a : Byte) (x : TSel) (s : State) : (latch o a x s).rlimit = s.rlimit := rfl
@[simp] theorem latch_bpos (o : Op) (a : Byte) (x : TSel) (s : State) : (latch o a x s).bpos = s.bpos := rfl
@[simp] theorem latch_piter (o : Op) (a : Byte) (x : TSel) (s : State) : (latch o a x s).piter = s.piter := rfl
@[simp] theorem latch_t (o : Op) (a : Byte) (x : TSel) (s : State) : (latch o a x s).t = s.t := rfl
@[simp] theorem latch_opl (o : Op) (a : Byte) (x : TSel) (s : State) : (latch o a x s).opl = o := rfl
@[simp] theorem latch_argl (o : Op) (a : Byte) (x : TSel) (s : State) : (latch o a x s).argl = a := rfl
@[simp] theorem latch_tsell (o : Op) (a : Byte) (x : TSel) (s : State) : (latch o a x s).tsell = x := rfl
@[simp] theorem latch_strictl (o : Op) (a : Byte) (x : TSel) (s : State) : (latch o a x s).strictl = s.strictKey := rfl
@[simp] theorem latch_enumCur (o : Op) (a : Byte) (x : TSel) (s : State) : (latch o a x s).enumCur = s.enumCur := rfl
@[simp] theorem latch_enumValid (o : Op) (a : Byte) (x : TSel) (s : State) : (latch o a x s).enumValid = s.enumValid := rfl
@[simp] theorem latch_sn (o : Op) (a : Byte) (x : TSel) (s : State) : (latch o a x s).sn = s.sn := rfl
@[simp] theorem latch_sw (o : Op) (a : Byte) (x : TSel) (s : State) : (latch o a x s).sw = s.sw := rfl
@[simp] theorem latch_seen (o : Op) (a : Byte) (x : TSel) (s : State) : (latch o a x s).seen = s.seen := rfl
@[simp] theorem latch_cnt (o : Op) (a : Byte) (x : TSel) (s : State) : (latch o a x s).cnt = s.cnt := rfl
@[simp] theorem latch_buf (o : Op) (a : Byte) (x : TSel) (s : State) : (latch o a x s).buf = s.buf := rfl
@[simp] theorem latch_schedule (o : Op) (a : Byte) (x : TSel) (s : State) : (latch o a x s).schedule = s.schedule := rfl
@[simp] theorem latch_rngIn (o : Op) (a : Byte) (x : TSel) (s : State) : (latch o a x s).rngIn = s.rngIn := rfl
@[simp] theorem latch_rdata (o : Op) (a : Byte) (x : TSel) (s : State) : (latch o a x s).rdata = s.rdata := rfl

/-! The fields after the first phase of an accepted command (`start`). -/

@[simp] theorem start_irqEn (p : Phase) (s : State) : (start p s).irqEn = s.irqEn := rfl
@[simp] theorem start_strictKey (p : Phase) (s : State) : (start p s).strictKey = s.strictKey := rfl
@[simp] theorem start_busy (p : Phase) (s : State) : (start p s).busy = true := rfl
@[simp] theorem start_done (p : Phase) (s : State) : (start p s).done = s.done := rfl
@[simp] theorem start_err (p : Phase) (s : State) : (start p s).err = s.err := rfl
@[simp] theorem start_errCode (p : Phase) (s : State) : (start p s).errCode = s.errCode := rfl
@[simp] theorem start_wbusy (p : Phase) (s : State) : (start p s).wbusy = s.wbusy := rfl
@[simp] theorem start_blockLo (p : Phase) (s : State) : (start p s).blockLo = s.blockLo := rfl
@[simp] theorem start_blockHi (p : Phase) (s : State) : (start p s).blockHi = s.blockHi := rfl
@[simp] theorem start_keyReg (p : Phase) (s : State) : (start p s).keyReg = s.keyReg := rfl
@[simp] theorem start_pbox (p : Phase) (s : State) : (start p s).pbox = s.pbox := rfl
@[simp] theorem start_sboxLo (p : Phase) (s : State) : (start p s).sboxLo = s.sboxLo := rfl
@[simp] theorem start_sboxHi (p : Phase) (s : State) : (start p s).sboxHi = s.sboxHi := rfl
@[simp] theorem start_result (p : Phase) (s : State) : (start p s).result = s.result := rfl
@[simp] theorem start_work (p : Phase) (s : State) : (start p s).work = s.work := rfl
@[simp] theorem start_r5 (p : Phase) (s : State) : (start p s).r5 = s.r5 := rfl
@[simp] theorem start_r6 (p : Phase) (s : State) : (start p s).r6 = s.r6 := rfl
@[simp] theorem start_phase (p : Phase) (s : State) : (start p s).phase = p := rfl
@[simp] theorem start_rctr (p : Phase) (s : State) : (start p s).rctr = s.rctr := rfl
@[simp] theorem start_rlimit (p : Phase) (s : State) : (start p s).rlimit = s.rlimit := rfl
@[simp] theorem start_bpos (p : Phase) (s : State) : (start p s).bpos = s.bpos := rfl
@[simp] theorem start_piter (p : Phase) (s : State) : (start p s).piter = s.piter := rfl
@[simp] theorem start_t (p : Phase) (s : State) : (start p s).t = s.t := rfl
@[simp] theorem start_opl (p : Phase) (s : State) : (start p s).opl = s.opl := rfl
@[simp] theorem start_argl (p : Phase) (s : State) : (start p s).argl = s.argl := rfl
@[simp] theorem start_tsell (p : Phase) (s : State) : (start p s).tsell = s.tsell := rfl
@[simp] theorem start_strictl (p : Phase) (s : State) : (start p s).strictl = s.strictl := rfl
@[simp] theorem start_enumCur (p : Phase) (s : State) : (start p s).enumCur = s.enumCur := rfl
@[simp] theorem start_enumValid (p : Phase) (s : State) : (start p s).enumValid = s.enumValid := rfl
@[simp] theorem start_sn (p : Phase) (s : State) : (start p s).sn = s.sn := rfl
@[simp] theorem start_sw (p : Phase) (s : State) : (start p s).sw = s.sw := rfl
@[simp] theorem start_seen (p : Phase) (s : State) : (start p s).seen = s.seen := rfl
@[simp] theorem start_cnt (p : Phase) (s : State) : (start p s).cnt = s.cnt := rfl
@[simp] theorem start_buf (p : Phase) (s : State) : (start p s).buf = s.buf := rfl
@[simp] theorem start_schedule (p : Phase) (s : State) : (start p s).schedule = s.schedule := rfl
@[simp] theorem start_rngIn (p : Phase) (s : State) : (start p s).rngIn = s.rngIn := rfl
@[simp] theorem start_rdata (p : Phase) (s : State) : (start p s).rdata = s.rdata := rfl

end Sys2Proof.Machine
end

