-- ==== Sys2Proof/Laws/Ops.lean ====
section
/-! SUPPORT. What the shared operations of the command protocol can do. -/

namespace Sys2Proof.Machine

/-- A command presented while BUSY = 1 is dropped. -/
theorem present_busy {body : State → Result} {s : State} (h : s.busy = true) :
    present body s = .next (dropWrite s) := by simp [present, h]

/-- A command presented while BUSY = 0 is taken in the same step. -/
theorem present_idle {body : State → Result} {s : State} (h : s.busy = false) : present body s = body s := by
  simp [present, h]

/-- The state in which the checks of an accept are made. -/
def latchedFor (i : Instr) (s : State) : State := latch i.op i.arg i.tsel (clearStatus s)

/-- An accept whose first failing check has a code raises it. -/
theorem accept_fails {i : Instr} {checks : State → List Check} {init : State → State} {s : State} {code : ErrCode}
    (hb : s.busy = false) (hc : firstFailure (checks (latchedFor i s)) = some code) :
    accept i checks init s = .next (raise code (latchedFor i s)) := by
  rw [accept, present_idle hb]
  simp only [latchedFor] at hc ⊢
  rw [hc]

/-- An accept whose checks pass performs the command's initialisation. -/
theorem accept_passes {i : Instr} {checks : State → List Check} {init : State → State} {s : State}
    (hb : s.busy = false) (hc : firstFailure (checks (latchedFor i s)) = none) :
    accept i checks init s = .next (init (latchedFor i s)) := by
  rw [accept, present_idle hb]
  simp only [latchedFor] at hc ⊢
  rw [hc]

/-- Everything an accept can do: drop the command, raise the first check that fails, or initialise it. -/
theorem accept_cases {i : Instr} {checks : State → List Check} {init : State → State} {s t : State}
    (h : accept i checks init s = .next t) :
    (s.busy = true ∧ t = dropWrite s) ∨
    (s.busy = false ∧ ∃ code, firstFailure (checks (latchedFor i s)) = some code ∧
      t = raise code (latchedFor i s)) ∨
    (s.busy = false ∧ firstFailure (checks (latchedFor i s)) = none ∧ t = init (latchedFor i s)) := by
  cases hb : s.busy with
  | true =>
    rw [accept, present_busy hb] at h
    simp_all
  | false =>
    cases hc : firstFailure (checks (latchedFor i s)) with
    | some code => rw [accept_fails hb hc] at h; simp_all
    | none => rw [accept_passes hb hc] at h; simp_all

/-- A code that an accept raises is the code of a check that it makes and that fails. -/
theorem firstFailure_mem {checks : List Check} {code : ErrCode} (h : firstFailure checks = some code) :
    ∃ c ∈ checks, c.fails = true ∧ c.code = code := by
  induction checks with
  | nil => simp [firstFailure] at h
  | cons c rest ih =>
    simp only [firstFailure] at h
    split at h
    · simp_all
    · obtain ⟨d, hd, hf, hc⟩ := ih h
      exact ⟨d, by simp [hd], hf, hc⟩

/-- No check fails exactly when each passes. -/
theorem firstFailure_none {checks : List Check} :
    firstFailure checks = none ↔ ∀ c ∈ checks, c.fails = false := by
  induction checks with
  | nil => simp [firstFailure]
  | cons c rest ih =>
    simp only [firstFailure]
    split <;> simp_all

theorem bijective8_iff (p : Pbox) : bijective8 p = true ↔ ∀ i j : Fin 8, i ≠ j → p[i] ≠ p[j] := by
  simp [bijective8]

theorem bijective16_iff (s : Sbox) : bijective16 s = true ↔ ∀ i j : Fin 16, i ≠ j → s[i] ≠ s[j] := by
  simp [bijective16]

end Sys2Proof.Machine
end

