-- ==== Sys2Proof/Laws/Sequencer.lean ====
section
/-! SUPPORT. What one core step does, phase by phase, and how core steps compose. -/

namespace Sys2Proof.Machine

/-- With BUSY = 0 no core step is enabled (R188). -/
theorem coreStep_idle {s : State} (h : s.busy = false) : coreStep s = .next s := by
  simp [coreStep, coreStepWith, h]

/-- With BUSY = 1 a core step is the step of its phase (R187, R188). -/
theorem coreStep_busy {s : State} (h : s.busy = true) : coreStep s = phaseStep Config.tables s := by
  simp [coreStep, coreStepWith, h]

theorem coreStep_perm {s : State} (h : s.busy = true) (hp : s.phase = .perm) :
    coreStep s = .next (permStep s) := by simp [coreStep_busy h, phaseStep, hp]

theorem coreStep_comp {s : State} (h : s.busy = true) (hp : s.phase = .comp) :
    coreStep s = compStep Config.tables s := by simp [coreStep_busy h, phaseStep, hp]

theorem coreStep_sub1 {s : State} (h : s.busy = true) (hp : s.phase = .sub1) :
    coreStep s = .next (sub1Step s) := by simp [coreStep_busy h, phaseStep, hp]

theorem coreStep_bperm {s : State} (h : s.busy = true) (hp : s.phase = .bperm) :
    coreStep s = .next (bpermStep s) := by simp [coreStep_busy h, phaseStep, hp]

theorem coreStep_sub2 {s : State} (h : s.busy = true) (hp : s.phase = .sub2) :
    coreStep s = .next (sub2Step s) := by simp [coreStep_busy h, phaseStep, hp]

theorem coreStep_fb {s : State} (h : s.busy = true) (hp : s.phase = .fb) :
    coreStep s = .next (fbStep s) := by simp [coreStep_busy h, phaseStep, hp]

theorem coreStep_wb {s : State} (h : s.busy = true) (hp : s.phase = .wb) :
    coreStep s = .next (writeback s) := by simp [coreStep_busy h, phaseStep, hp]

theorem coreStep_sample {s : State} (h : s.busy = true) (hp : s.phase = .sample) :
    coreStep s = sampleStep s := by simp [coreStep_busy h, phaseStep, hp]

/-- A COMP step below byte position 7 (R156). -/
theorem compStep_forward {tables : Aut64Tables} {s : State} (hr : s.rctr.toNat < 12) (hp : s.bpos ≠ 7) :
    compStep tables s = .next (compForward tables ⟨s.rctr.toNat, hr⟩ s) := by
  rw [compStep, dif_pos hr, if_neg hp]

/-- The COMP step of byte position 7 where neither inverse lookup is degenerate (R156). -/
theorem compStep_last {tables : Aut64Tables} {s : State} {terms : Nibble × Nibble} (hr : s.rctr.toNat < 12)
    (hp : s.bpos = 7) (h : inverseTerms tables s.key ⟨s.rctr.toNat, hr⟩ s.work = some terms) :
    compStep tables s = .next (compLast terms s) := by
  simp [compStep, hr, hp, h]

/-- The COMP step of byte position 7 where an inverse lookup is degenerate (R151, R211). -/
theorem compStep_degenerate {tables : Aut64Tables} {s : State} (hr : s.rctr.toNat < 12) (hp : s.bpos = 7)
    (h : inverseTerms tables s.key ⟨s.rctr.toNat, hr⟩ s.work = none) :
    compStep tables s = .next (raise .degenerateInverseLookup s) := by
  simp [compStep, hr, hp, h]

/-- A SAMPLE step with no sample pending waits. -/
theorem sampleStep_wait {s : State} (h : s.rngIn = []) : sampleStep s = .next s := by
  simp [sampleStep, h]

/-- A SAMPLE step discards a value seen before (R111). -/
theorem sampleStep_seen {s : State} {d : Nibble} {rest : List Nibble} (h : s.rngIn = d :: rest)
    (hs : s.seen.getLsbD (draw s.sw d).toNat = true) :
    sampleStep s = .next (endSample { s with rngIn := rest }) := by
  simp [sampleStep, h, hs]

/-- A SAMPLE step collects a new value (R111). -/
theorem sampleStep_new {s : State} {d : Nibble} {rest : List Nibble} (h : s.rngIn = d :: rest)
    (hs : s.seen.getLsbD (draw s.sw d).toNat = false) (hc : s.cnt.toNat < 16) :
    sampleStep s = .next (endSample (collect (draw s.sw d) ⟨s.cnt.toNat, hc⟩ { s with rngIn := rest })) := by
  simp [sampleStep, h, hs, hc]

theorem coreRun_zero (s : State) : coreRun 0 s = .next s := rfl

theorem coreRun_succ {s t : State} (n : Nat) (h : coreStep s = .next t) : coreRun (n + 1) s = coreRun n t := by
  simp [coreRun, h]

/-- Core steps compose. -/
theorem coreRun_add {s t : State} (m n : Nat) (h : coreRun m s = .next t) :
    coreRun (m + n) s = coreRun n t := by
  induction m generalizing s with
  | zero => simp [coreRun] at h; simp [h]
  | succ m ih =>
    rw [Nat.add_right_comm]
    simp only [coreRun] at h ⊢
    cases hs : coreStep s with
    | next x => rw [hs] at h; exact ih h
    | fault f => simp [hs] at h
    | refused r => simp [hs] at h

end Sys2Proof.Machine
end

