-- ==== Sys2Proof/Laws/Accept.lean ====
section
/-! SUPPORT. The accept of every command in one form: its checks, its accept initialisation, and all that it can change. -/

namespace Sys2Proof.Machine

/-- The checks that a command makes at accept, in their order. -/
def checksOf : Instr → State → List Check
  | .nop, _ => []
  | .encrypt a, s => [checkPbox s, checkSbox s, checkRound a 12, checkKey s]
  | .round a, s => [checkPbox s, checkSbox s, checkRound a 11, checkKey s]
  | .compress a, s => [checkRound a 11, checkKey s]
  | .sbox _, s => [checkSbox s]
  | .pbox _, s => [checkPbox s]
  | .pboxbit _, s => [checkPbox s]
  | .randperm n, _ => [checkPermSize n]
  | .randsbox, _ => [checkPermSize 16]
  | .randpbox, _ => [checkPermSize 8]
  | .enumReset, _ => []
  | .enumNext, s => [checkEnum s]
  | .tableRead x a, _ => [checkTableIndex x a]

/-- The accept initialisation of a command whose checks pass. -/
def initOf : Instr → State → State
  | .nop, s => start .wb s
  | .encrypt a, s => start (if a = 0 then .wb else .perm)
      { s with work := s.block, rctr := 0, rlimit := a.truncate 4 }
  | .round a, s => start .perm
      { s with work := s.block, rctr := a.truncate 4, rlimit := a.truncate 4 + 1 }
  | .compress a, s => start .comp
      { s with work := s.block, rctr := a.truncate 4, r5 := 0, r6 := 0, bpos := 0 }
  | .sbox d, s => start .wb { s with t := subByte d s.subst }
  | .pbox n, s => start (if n = 0 then .wb else .perm) { s with work := s.block, piter := n }
  | .pboxbit d, s => start .wb { s with t := permBits d s.perm }
  | .randperm n, s => startSampler n s
  | .randsbox, s => startSampler 16 s
  | .randpbox, s => startSampler 8 s
  | .enumReset, s => start .wb s
  | .enumNext, s => start .wb s
  | .tableRead x a, s => start .wb { s with t := (tableEntry Config.tables x a).getD s.t }

/-- Every command is an accept with its checks and its initialisation. -/
theorem exec_eq (i : Instr) (s : State) : exec i s = accept i (checksOf i) (initOf i) s := by cases i <;> rfl

/-- A check never carries the code `none`, and never InvalidBlockLength (R202). -/
theorem checksOf_code {i : Instr} {s : State} {c : Check} (h : c ∈ checksOf i s) :
    c.code ≠ .none ∧ c.code ≠ .invalidBlockLength := by
  cases i <;>
    simp [checksOf, checkPbox, checkSbox, checkRound, checkKey, checkPermSize, checkEnum, checkTableIndex] at h <;>
    aesop

/-- An accept initialisation puts BUSY to 1 and leaves IDLE, and writes nothing but internal elements. -/
theorem initOf_frame (i : Instr) (s : State) : (initOf i s).phase ≠ .idle ∧ initOf i s =
    { s with
      busy := true, phase := (initOf i s).phase, work := (initOf i s).work, rctr := (initOf i s).rctr
      rlimit := (initOf i s).rlimit, r5 := (initOf i s).r5, r6 := (initOf i s).r6, bpos := (initOf i s).bpos
      t := (initOf i s).t, piter := (initOf i s).piter, sn := (initOf i s).sn, sw := (initOf i s).sw
      seen := (initOf i s).seen, cnt := (initOf i s).cnt } := by
  cases i <;> refine ⟨?_, rfl⟩ <;> simp only [initOf, startSampler, start] <;> (try split) <;> simp

/-- Every command presented while BUSY = 1 is dropped. -/
theorem exec_busy (i : Instr) {s : State} (h : s.busy = true) : exec i s = .next (dropWrite s) := by
  rw [exec_eq, accept, present_busy h]

/-- Everything that presenting a command while BUSY = 0 can do: raise a check's code, or initialise the command. -/
theorem exec_idle (i : Instr) {s : State} (h : s.busy = false) :
    (∃ code, code ≠ .none ∧ firstFailure (checksOf i (latchedFor i s)) = some code ∧
      exec i s = .next (raise code (latchedFor i s))) ∨
    (firstFailure (checksOf i (latchedFor i s)) = none ∧ exec i s = .next (initOf i (latchedFor i s))) := by
  cases hc : firstFailure (checksOf i (latchedFor i s)) with
  | some code =>
    obtain ⟨c, hm, _, rfl⟩ := firstFailure_mem hc
    exact .inl ⟨c.code, (checksOf_code hm).1, rfl, by rw [exec_eq, accept_fails h hc]⟩
  | none => exact .inr ⟨rfl, by rw [exec_eq, accept_passes h hc]⟩

theorem acceptIllegal_busy {s : State} (h : s.busy = true) : acceptIllegal s = .next (dropWrite s) := by
  rw [acceptIllegal, present_busy h]

theorem acceptIllegal_idle {s : State} (h : s.busy = false) :
    acceptIllegal s = .next (raise .illegalCommand (clearStatus s)) := by
  rw [acceptIllegal, present_idle h]

end Sys2Proof.Machine
end

