-- ==== Sys2Proof/Laws/Bus.lean ====
section
/-! SUPPORT. What one step does for each kind of event, and which register stands at each offset. -/

namespace Sys2Proof.Machine

theorem step_nil {s : State} (h : s.schedule = []) : step s = coreStep s := by simp [step, advance, h]

theorem step_core {s : State} {rest : List Event} (h : s.schedule = .core :: rest) :
    step s = coreStep { s with schedule := rest } := by simp [step, advance, h, takeEvent]

theorem step_rst {s : State} {rest : List Event} (h : s.schedule = .rst :: rest) :
    step s = .next (assertReset { s with schedule := rest }) := by simp [step, advance, h, takeEvent]

theorem step_host {s : State} {op : HostOp} {rest : List Event} (h : s.schedule = .host op :: rest) :
    step s = hostStep op { s with schedule := rest } := by simp [step, advance, h, takeEvent]

/-- A write inside the interface is a write at its offset in the window. -/
theorem hostStep_write {s : State} {offset : BitVec 8} {v : Word} (h : offset.toNat % 4 = 0) :
    hostStep (.write offset 4 v) s = writeWindow s offset v := by simp [hostStep, accessDefined, h]

/-- A read inside the interface returns the window's value and changes nothing else. -/
theorem hostStep_read {s : State} {offset : BitVec 8} (h : offset.toNat % 4 = 0) :
    hostStep (.read offset 4) s = .next { s with rdata := readWindow s offset } := by
  simp [hostStep, accessDefined, h]

theorem regAt_offset (r : Reg) : regAt r.offset = some r := by cases r <;> rfl

/-- An offset from 0x2C up is reserved (R50). -/
theorem regAt_reserved {offset : BitVec 8} (h : 0x2C ≤ offset.toNat) : regAt offset = none := by
  simp only [regAt, List.find?_eq_none]
  intro r _ hr
  simp only [beq_iff_eq] at hr
  subst hr
  cases r <;> simp [Reg.offset] at h

/-- A register stands at an offset exactly if it is the register's own (R50). -/
theorem regAt_eq_some {offset : BitVec 8} {r : Reg} : regAt offset = some r ↔ offset = r.offset := by
  constructor
  · intro h
    have := List.find?_some h
    simpa using (beq_iff_eq.mp this).symm
  · rintro rfl
    exact regAt_offset r

theorem readWindow_offset (s : State) (r : Reg) : readWindow s r.offset = readReg s r := by
  simp [readWindow, regAt_offset]

theorem writeWindow_offset (s : State) (r : Reg) (v : Word) : writeWindow s r.offset v = writeReg s v r := by
  simp [writeWindow, regAt_offset]

theorem writeData_busy {write : State → State} {s : State} (h : s.busy = true) :
    writeData write s = dropWrite s := by simp [writeData, h]

theorem writeData_idle {write : State → State} {s : State} (h : s.busy = false) :
    writeData write s = write s := by simp [writeData, h]

end Sys2Proof.Machine
end

