-- ==== Sys2Proof/Laws/Inversion.lean ====
section
/-! SUPPORT. Once for each operation that can answer several ways: everything it can do when it answers a next state. The
later proofs cite these and unfold nothing. -/

namespace Sys2Proof.Machine

/-! What a decoded operand sequence rests on. -/

theorem State.block_congr {s u : State} (hl : u.blockLo = s.blockLo) (hh : u.blockHi = s.blockHi) :
    u.block = s.block := by rw [State.block, State.block, hl, hh]

theorem State.key_congr {s u : State} (h : u.keyReg = s.keyReg) : u.key = s.key := by
  rw [State.key, State.key, h]

theorem State.perm_congr {s u : State} (h : u.pbox = s.pbox) : u.perm = s.perm := by
  rw [State.perm, State.perm, h]

theorem State.subst_congr {s u : State} (hl : u.sboxLo = s.sboxLo) (hh : u.sboxHi = s.sboxHi) :
    u.subst = s.subst := by rw [State.subst, State.subst, hl, hh]

/-! The phase steps. -/

/-- A PERM step writes WORK, PITER, R5, R6, BPOS and PHASE only. -/
theorem permStep_frame (s : State) : permStep s =
    { s with
      work := (permStep s).work, piter := (permStep s).piter, r5 := (permStep s).r5, r6 := (permStep s).r6
      bpos := (permStep s).bpos, phase := (permStep s).phase } := by
  unfold permStep
  split <;> rfl

/-- A COMP step ends the command, at byte position 7 only, or moves on by one byte position. -/
theorem compStep_cases {tables : Aut64Tables} {s t : State} (h : compStep tables s = .next t) :
    (t = raise .degenerateInverseLookup s ∧ s.bpos = 7) ∨
    t = { s with
      r5 := t.r5, r6 := t.r6, t := t.t, bpos := s.bpos + 1
      phase := if s.bpos = 7 then (if s.opl = .compress then .wb else .sub1) else s.phase } := by
  unfold compStep at h
  split at h
  · split at h
    · rename_i h7
      split at h
      · cases h
        right
        rw [h7]
        simp only [if_true]
        rfl
      · cases h
        exact .inl ⟨rfl, h7⟩
    · rename_i h7
      cases h
      right
      rw [if_neg h7]
      rfl
  · cases h

/-- A SAMPLE step writes the sampler's fields, PHASE, and what is left of the samples. -/
theorem sampleStep_frame {s t : State} (h : sampleStep s = .next t) :
    t = { s with rngIn := t.rngIn, buf := t.buf, seen := t.seen, cnt := t.cnt, phase := t.phase } := by
  unfold sampleStep at h
  split at h
  · cases h
    rfl
  · simp only at h
    split at h
    · cases h
      rfl
    · split at h
      · cases h
        rfl
      · cases h

/-- A sampler's writeback writes PBOX or SBOX only. -/
theorem writeSample_frame (s : State) : writeSample s =
    { s with
      pbox := (writeSample s).pbox, sboxLo := (writeSample s).sboxLo, sboxHi := (writeSample s).sboxHi } := by
  unfold writeSample
  split
  · rfl
  · split <;> rfl

/-- ENUM_NEXT's writeback writes KEYREG and the enumerator only. -/
theorem yieldKey_frame (s : State) : yieldKey s =
    { s with
      keyReg := (yieldKey s).keyReg, enumCur := (yieldKey s).enumCur, enumValid := (yieldKey s).enumValid } := by
  unfold yieldKey
  split <;> rfl

/-- A writeback completes the command and writes data registers, RESULT and the enumerator only. -/
theorem writeback_frame (s : State) : writeback s =
    { s with
      done := true, busy := false, phase := .idle
      blockLo := (writeback s).blockLo, blockHi := (writeback s).blockHi, result := (writeback s).result
      pbox := (writeback s).pbox, sboxLo := (writeback s).sboxLo, sboxHi := (writeback s).sboxHi
      keyReg := (writeback s).keyReg, enumCur := (writeback s).enumCur, enumValid := (writeback s).enumValid } := by
  unfold writeback
  split
  all_goals try rfl
  · rw [writebackRandperm, writeSample_frame]
    rfl
  · rw [writebackRandsbox, writeSample_frame]
    rfl
  · rw [writebackRandpbox, writeSample_frame]
    rfl
  · rw [writebackEnumNext, yieldKey_frame]
    rfl

/-- A core step with BUSY = 1 is the step of one of the phases, never of IDLE. -/
theorem coreStep_cases {s t : State} (hb : s.busy = true) (h : coreStep s = .next t) :
    (s.phase = .perm ∧ t = permStep s) ∨
    (s.phase = .comp ∧ compStep Config.tables s = .next t) ∨
    (s.phase = .sub1 ∧ t = sub1Step s) ∨
    (s.phase = .bperm ∧ t = bpermStep s) ∨
    (s.phase = .sub2 ∧ t = sub2Step s) ∨
    (s.phase = .fb ∧ t = fbStep s) ∨
    (s.phase = .wb ∧ t = writeback s) ∨
    (s.phase = .sample ∧ sampleStep s = .next t) := by
  rw [coreStep_busy hb] at h
  cases hp : s.phase <;> simp_all [phaseStep]

/-! Presenting a command, the bus, and the step. -/

/-- Presenting a command drops it, raises a check's code, or initialises it. -/
theorem exec_cases {i : Instr} {s t : State} (h : exec i s = .next t) :
    (s.busy = true ∧ t = dropWrite s) ∨
    (s.busy = false ∧ ∃ code, code ≠ .none ∧ t = raise code (latchedFor i s)) ∨
    (s.busy = false ∧ t = initOf i (latchedFor i s)) := by
  cases hb : s.busy with
  | true =>
    rw [exec_busy i hb] at h
    cases h
    exact .inl ⟨rfl, rfl⟩
  | false =>
    rcases exec_idle i hb with ⟨code, hc, _, he⟩ | ⟨_, he⟩ <;> rw [he] at h <;> cases h
    · exact .inr (.inl ⟨rfl, code, hc, rfl⟩)
    · exact .inr (.inr ⟨rfl, rfl⟩)

/-- A write to CMD drops the word, presents the command it decodes to, or raises IllegalCommand. -/
theorem writeCmd_cases {w : Word} {s t : State} (h : writeCmd w s = .next t) :
    (s.busy = true ∧ t = dropWrite s) ∨
    (s.busy = false ∧ ∃ i, decode w = .ok i ∧ exec i s = .next t) ∨
    (s.busy = false ∧ t = raise .illegalCommand (clearStatus s)) := by
  cases hb : s.busy with
  | true =>
    unfold writeCmd at h
    split at h
    · rw [exec_busy _ hb] at h
      cases h
      exact .inl ⟨rfl, rfl⟩
    · rw [acceptIllegal_busy hb] at h
      cases h
      exact .inl ⟨rfl, rfl⟩
  | false =>
    unfold writeCmd at h
    split at h
    · rename_i i hi
      exact .inr (.inl ⟨rfl, i, hi, h⟩)
    · rw [acceptIllegal_idle hb] at h
      cases h
      exact .inr (.inr ⟨rfl, rfl⟩)

/-- Everything that a write in the window can do. -/
theorem writeWindow_cases {s t : State} {offset : BitVec 8} {v : Word} (h : writeWindow s offset v = .next t) :
    t = s ∨
    (offset = 0x00 ∧ t = writeCtrl v s) ∨
    (offset = 0x04 ∧ t = writeStatus v s) ∨
    (offset = 0x08 ∧ writeCmd v s = .next t) ∨
    (offset ∈ [0x10#8, 0x14, 0x18, 0x1C, 0x20, 0x24] ∧ s.busy = true ∧ t = dropWrite s) ∨
    (s.busy = false ∧
      ((offset = 0x10 ∧ t = { s with blockLo := v }) ∨
       (offset = 0x14 ∧ t = { s with blockHi := v }) ∨
       (offset = 0x18 ∧ t = { s with keyReg := v }) ∨
       (offset = 0x1C ∧ t = { s with pbox := v.truncate 24 }) ∨
       (offset = 0x20 ∧ t = { s with sboxLo := v }) ∨
       (offset = 0x24 ∧ t = { s with sboxHi := v }))) := by
  unfold writeWindow at h
  split at h
  · rename_i r hr
    rw [regAt_eq_some] at hr
    subst hr
    cases hb : s.busy <;> cases r <;> simp only [writeReg, writeData, hb, if_true] at h
    case false.cmd => exact .inr (.inr (.inr (.inl ⟨rfl, h⟩)))
    case true.cmd => exact .inr (.inr (.inr (.inl ⟨rfl, h⟩)))
    all_goals
      cases h
      simp [Reg.offset]
  · cases h
    exact .inl rfl

/-- Everything that a step can do when it answers a next state. -/
theorem step_cases {s t : State} (h : step s = .next t) :
    (s.schedule = [] ∧ coreStep s = .next t) ∨
    (∃ rest, s.schedule = .core :: rest ∧ coreStep { s with schedule := rest } = .next t) ∨
    (∃ rest, s.schedule = .rst :: rest ∧ t = assertReset { s with schedule := rest }) ∨
    (∃ rest, s.schedule = .host .wait :: rest ∧ t = pollStatus { s with schedule := rest }) ∨
    (∃ rest offset, s.schedule = .host (.read offset 4) :: rest ∧ offset.toNat % 4 = 0 ∧
      t = { s with schedule := rest, rdata := readWindow s offset }) ∨
    (∃ rest offset v, s.schedule = .host (.write offset 4 v) :: rest ∧ offset.toNat % 4 = 0 ∧
      writeWindow { s with schedule := rest } offset v = .next t) := by
  unfold step advance at h
  split at h
  · exact .inl ⟨‹_›, h⟩
  · rename_i e rest he
    cases e with
    | core => exact .inr (.inl ⟨rest, he, h⟩)
    | rst =>
      cases h
      exact .inr (.inr (.inl ⟨rest, he, rfl⟩))
    | host op =>
      cases op with
      | wait =>
        cases h
        exact .inr (.inr (.inr (.inl ⟨rest, he, rfl⟩)))
      | read offset width =>
        simp only [takeEvent, hostStep] at h
        split at h
        · rename_i hd
          simp only [accessDefined, decide_eq_true_eq] at hd
          obtain ⟨rfl, hd⟩ := hd
          cases h
          exact .inr (.inr (.inr (.inr (.inl ⟨rest, offset, he, hd, rfl⟩))))
        · cases h
      | write offset width v =>
        simp only [takeEvent, hostStep] at h
        split at h
        · rename_i hd
          simp only [accessDefined, decide_eq_true_eq] at hd
          obtain ⟨rfl, hd⟩ := hd
          exact .inr (.inr (.inr (.inr (.inr ⟨rest, offset, v, he, hd, h⟩))))
        · cases h

end Sys2Proof.Machine
end

