-- ==== Sys2Proof/Laws/Operands.lean ====
section
/-! SUPPORT. Reading a packed register gives back what was packed into it, and packing what was read gives back the
register (spec/20_memory.md R56). -/

namespace Sys2Proof.Machine

theorem byteOf_packBytes (b0 b1 b2 b3 : Byte) (i : Fin 4) :
    byteOf (packBytes b0 b1 b2 b3) i = #v[b0, b1, b2, b3][i] := by
  apply BitVec.eq_of_getLsbD_eq
  intro j hj
  fin_cases i <;> simp [byteOf, packBytes, hj] <;> interval_cases j <;> simp

theorem nibbleOf_packNibbles (k : Vector Nibble 8) (i : Fin 8) : nibbleOf (packNibbles k) i = k[i] := by
  apply BitVec.eq_of_getLsbD_eq
  intro j hj
  fin_cases i <;> simp [nibbleOf, packNibbles, hj] <;> interval_cases j <;> simp

theorem packBytes_byteOf (w : Word) :
    packBytes (byteOf w 0) (byteOf w 1) (byteOf w 2) (byteOf w 3) = w := by
  apply BitVec.eq_of_getLsbD_eq
  intro j hj
  interval_cases j <;> simp [byteOf, packBytes]

theorem packNibbles_keyOf (w : Word) : packNibbles (keyOf w) = w := by
  apply BitVec.eq_of_getLsbD_eq
  intro j hj
  interval_cases j <;> simp [keyOf, nibbleOf, packNibbles]

theorem keyOf_packNibbles (k : Key) : keyOf (packNibbles k) = k := by
  apply Vector.ext
  intro i hi
  simpa [keyOf] using nibbleOf_packNibbles k ⟨i, hi⟩

theorem pboxOf_packPbox (p : Pbox) : pboxOf (packPbox p) = p := by
  apply Vector.ext
  intro i hi
  apply BitVec.eq_of_getLsbD_eq
  intro j hj
  interval_cases i <;> simp [pboxOf, packPbox, hj] <;> interval_cases j <;> simp

theorem packPbox_pboxOf (w : BitVec 24) : packPbox (pboxOf w) = w := by
  apply BitVec.eq_of_getLsbD_eq
  intro j hj
  interval_cases j <;> simp [pboxOf, packPbox]

theorem sboxOf_pack (s : Sbox) : sboxOf (packNibbles (sboxLow s)) (packNibbles (sboxHigh s)) = s := by
  apply Vector.ext
  intro i hi
  by_cases h : i < 8
  · simp [sboxOf, h, nibbleOf_packNibbles, sboxLow]
  · have : i - 8 + 8 = i := by omega
    simp [sboxOf, h, nibbleOf_packNibbles, sboxHigh, this]

theorem sboxLow_sboxOf (lo hi : Word) : packNibbles (sboxLow (sboxOf lo hi)) = lo := by
  have h : sboxLow (sboxOf lo hi) = keyOf lo := by
    apply Vector.ext
    intro i hi
    simp [sboxLow, sboxOf, keyOf]
  rw [h, packNibbles_keyOf]

theorem sboxHigh_sboxOf (lo hi : Word) : packNibbles (sboxHigh (sboxOf lo hi)) = hi := by
  have h : sboxHigh (sboxOf lo hi) = keyOf hi := by
    apply Vector.ext
    intro i hi
    simp [sboxHigh, sboxOf, keyOf]
  rw [h, packNibbles_keyOf]

theorem blockOf_pack (b : Block) : blockOf (blockLoOf b) (blockHiOf b) = b := by
  apply Vector.ext
  intro i hi
  interval_cases i <;> simp [blockOf, blockLoOf, blockHiOf, byteOf_packBytes]

theorem blockLoOf_blockOf (lo hi : Word) : blockLoOf (blockOf lo hi) = lo := by
  simp [blockLoOf, blockOf, packBytes_byteOf]

theorem blockHiOf_blockOf (lo hi : Word) : blockHiOf (blockOf lo hi) = hi := by
  simp [blockHiOf, blockOf, packBytes_byteOf]

/-- A byte is its two nibbles (R55). -/
theorem joinNibbles_high_low (b : Byte) : joinNibbles (highNibble b) (lowNibble b) = b := by
  apply BitVec.eq_of_getLsbD_eq
  intro j hj
  interval_cases j <;> simp [joinNibbles, highNibble, lowNibble]

@[simp] theorem lowNibble_joinNibbles (h l : Nibble) : lowNibble (joinNibbles h l) = l := by
  apply BitVec.eq_of_getLsbD_eq
  intro j hj
  interval_cases j <;> simp [joinNibbles, lowNibble]

@[simp] theorem highNibble_joinNibbles (h l : Nibble) : highNibble (joinNibbles h l) = h := by
  apply BitVec.eq_of_getLsbD_eq
  intro j hj
  interval_cases j <;> simp [joinNibbles, highNibble]

@[simp] theorem nibbleIndex_inj {a b : Nibble} : nibbleIndex a = nibbleIndex b ↔ a = b := by
  simp [nibbleIndex, Fin.ext_iff, BitVec.toNat_inj]

@[simp] theorem octalIndex_inj {a b : BitVec 3} : octalIndex a = octalIndex b ↔ a = b := by
  simp [octalIndex, Fin.ext_iff, BitVec.toNat_inj]

@[simp] theorem nibbleIndex_ofNat (i : Fin 16) : nibbleIndex (BitVec.ofNat 4 i.val) = i := by
  apply Fin.ext
  simp [nibbleIndex]

@[simp] theorem octalIndex_ofNat (i : Fin 8) : octalIndex (BitVec.ofNat 3 i.val) = i := by
  apply Fin.ext
  simp [octalIndex]

end Sys2Proof.Machine
end

