-- ==== Sys2Proof/Laws/PerInstr.lean ====
section
/-! SUPPORT. The family `EncodeFields`: the word of every command carries its OP, its operand and its table select, and 0
in Z0 and Z1 (spec/30_encoding.md R70, R78). -/

namespace Sys2Proof.Laws.EncodeFields

/-- The five fields of format C in the command's word. -/
def Statement (i : Instr) : Prop :=
  opField (encode i) = i.op.code ∧ argField (encode i) = i.arg ∧ tselField (encode i) = i.tsel.code ∧
    z0Field (encode i) = 0 ∧ z1Field (encode i) = 0

theorem nop : Statement .nop := by simp only [Statement]; decide

theorem encrypt (rounds : Byte) : Statement (.encrypt rounds) := by
  simp only [Statement]; revert rounds; decide +kernel

theorem round (index : Byte) : Statement (.round index) := by
  simp only [Statement]; revert index; decide +kernel

theorem compress (index : Byte) : Statement (.compress index) := by
  simp only [Statement]; revert index; decide +kernel

theorem sbox (data : Byte) : Statement (.sbox data) := by
  simp only [Statement]; revert data; decide +kernel

theorem pbox (count : Byte) : Statement (.pbox count) := by
  simp only [Statement]; revert count; decide +kernel

theorem pboxbit (data : Byte) : Statement (.pboxbit data) := by
  simp only [Statement]; revert data; decide +kernel

theorem randperm (size : Byte) : Statement (.randperm size) := by
  simp only [Statement]; revert size; decide +kernel

theorem randsbox : Statement .randsbox := by simp only [Statement]; decide

theorem randpbox : Statement .randpbox := by simp only [Statement]; decide

theorem enumReset : Statement .enumReset := by simp only [Statement]; decide

theorem enumNext : Statement .enumNext := by simp only [Statement]; decide

theorem tableRead (table : TSel) (index : Byte) : Statement (.tableRead table index) := by
  simp only [Statement]; revert index; cases table <;> decide +kernel

end Sys2Proof.Laws.EncodeFields
end

