-- ==== Sys2Proof/Laws/Tables.lean ====
section
/-! SUPPORT. What R93 to R97 say of the table lookups, and G's forward sum written out. -/

namespace Sys2Proof.Machine

/-- R94: row 0 is constant zero. -/
theorem offsetAt_zero (tables : Aut64Tables) (n : Nibble) : offsetAt tables 0 n = 0 := by
  have h := tables.offset_row_zero (nibbleIndex n)
  simpa [offsetAt, nibbleIndex] using h

/-- R95: row 1 is the identity. -/
theorem offsetAt_one (tables : Aut64Tables) (n : Nibble) : offsetAt tables 1 n = n := by
  have h := tables.offset_row_one (nibbleIndex n)
  simpa [offsetAt, nibbleIndex] using h

/-- R93: the table is symmetric. -/
theorem offsetAt_comm (tables : Aut64Tables) (k n : Nibble) : offsetAt tables k n = offsetAt tables n k :=
  tables.offset_symmetric (nibbleIndex k) (nibbleIndex n)

/-- R96: every row but row 0 is injective. -/
theorem offsetAt_injective (tables : Aut64Tables) {k : Nibble} (hk : k ≠ 0) :
    Function.Injective (offsetAt tables k) := by
  intro i j h
  have hk' : nibbleIndex k ≠ 0 := fun h => hk (BitVec.eq_of_toNat_eq (congrArg Fin.val h))
  have hij := tables.offset_row_perm (nibbleIndex k) (nibbleIndex i) (nibbleIndex j) hk' h
  exact BitVec.eq_of_toNat_eq (congrArg Fin.val hij)

/-- R97: TABLE_SUB is injective. -/
theorem subAt_injective (tables : Aut64Tables) : Function.Injective (subAt tables) := by
  intro i j h
  exact BitVec.eq_of_toNat_eq (congrArg Fin.val (tables.sub_perm (nibbleIndex i) (nibbleIndex j) h))

/-- The forward sum of G, byte position by byte position. -/
theorem forwardSum_eq (tables : Aut64Tables) (key : Key) (r : Fin 12) (st : Block) :
    forwardSum tables key r st =
      (let f := fun b : Fin 8 => forwardTerms tables key r b st
       ((f 0).1 ^^^ (f 1).1 ^^^ (f 2).1 ^^^ (f 3).1 ^^^ (f 4).1 ^^^ (f 5).1 ^^^ (f 6).1,
        (f 0).2 ^^^ (f 1).2 ^^^ (f 2).2 ^^^ (f 3).2 ^^^ (f 4).2 ^^^ (f 5).2 ^^^ (f 6).2)) := by
  simp [forwardSum, List.finRange, List.ofFn, Fin.foldr, Fin.foldr.loop, Fin.castSucc, Fin.castAdd]

end Sys2Proof.Machine
end

