-- ==== Sys2Proof/Tests/Slice0.lean ====
section
/-! SUPPORT. The model's own tests: expected values from spec/95_test_vectors.md (named V-x) or worked out by hand from the
rule named. Then, for every statement with hypotheses, a witness that meets them. Vectors marked ASSUMED in the spec use the
candidate tables of R98, which are the default value of `Aut64Tables`. -/

namespace Sys2Proof.Tests

-- One theorem at a time: many kernel evaluations side by side take a thread's stack each.
set_option Elab.async false

open Sys2Proof Sys2Proof.Machine

/-! ### Helpers -/

/-- A field of the next state that a meaning or a step answers. -/
def after {α : Type} (r : Result) (f : State → α) : Option α :=
  match r with
  | .next t => some (f t)
  | .fault _ => none
  | .refused _ => none

/-- P of the spec's vectors. -/
def vectorPbox : Pbox := #v[2, 0, 6, 5, 7, 4, 3, 1]

/-- S of the spec's vectors. -/
def vectorSbox : Sbox := #v[5, 11, 7, 12, 4, 8, 0, 3, 13, 9, 6, 1, 2, 14, 10, 15]

/-- The key of the spec's vectors. -/
def vectorKey : Key := #v[10, 8, 4, 14, 5, 4, 8, 11]

/-- The message of the spec's vectors. -/
def vectorBlock : Block := #v[1, 2, 3, 4, 5, 6, 7, 8]

/-- An idle machine with the vectors' operands, as the register values of S9 in 95_test_vectors.md. -/
def loaded : State :=
  { State.reset with
    pbox := 0x2E7B82, keyReg := 0xB845E48A, sboxLo := 0x3084C7B5, sboxHi := 0xFAE2169D
    blockLo := 0x04030201, blockHi := 0x08070605 }

/-- The same machine in a phase of a command. -/
def during (op : Op) (phase : Phase) : State := { loaded with busy := true, opl := op, phase := phase }

/-- A machine whose next event is this host operation. -/
def facing (s : State) (op : HostOp) : State := { s with schedule := [.host op] }

/-! ### Well-formedness: each check refuses an ill-formed command -/

theorem test_wellFormed_encrypt : Instr.wellFormed (.encrypt 12) = true ∧ Instr.wellFormed (.encrypt 13) = false := by
  decide

theorem test_wellFormed_round : Instr.wellFormed (.round 11) = true ∧ Instr.wellFormed (.round 12) = false := by decide

theorem test_wellFormed_compress : Instr.wellFormed (.compress 11) = true ∧ Instr.wellFormed (.compress 12) = false := by
  decide

theorem test_wellFormed_randperm : Instr.wellFormed (.randperm 16) = true ∧ Instr.wellFormed (.randperm 4) = false := by
  decide

theorem test_wellFormed_tableRead :
    Instr.wellFormed (.tableRead .ln 95) = true ∧ Instr.wellFormed (.tableRead .ln 96) = false ∧
    Instr.wellFormed (.tableRead .un 96) = false ∧ Instr.wellFormed (.tableRead .off 255) = true ∧
    Instr.wellFormed (.tableRead .sub 16) = false := by decide

/-! ### Decoding: words written out from R74 and the vectors' command columns -/

theorem test_decode_nop : decode 0x00000000 = .ok .nop := by decide
theorem test_decode_encrypt : decode 0x00000801 = .ok (.encrypt 8) := by decide
theorem test_decode_round : decode 0x00000B02 = .ok (.round 11) := by decide
theorem test_decode_compress : decode 0x00000103 = .ok (.compress 1) := by decide
theorem test_decode_sbox : decode 0x00005A04 = .ok (.sbox 0x5A) := by decide
theorem test_decode_pbox : decode 0x00000805 = .ok (.pbox 8) := by decide
theorem test_decode_pboxbit : decode 0x00003706 = .ok (.pboxbit 0x37) := by decide
theorem test_decode_randperm : decode 0x00001007 = .ok (.randperm 16) := by decide
theorem test_decode_randsbox : decode 0x00000008 = .ok .randsbox := by decide
theorem test_decode_randpbox : decode 0x00000009 = .ok .randpbox := by decide
theorem test_decode_enumReset : decode 0x0000000A = .ok .enumReset := by decide
theorem test_decode_enumNext : decode 0x0000000B = .ok .enumNext := by decide
theorem test_decode_tableRead :
    decode 0x0000600C = .ok (.tableRead .ln 96) ∧ decode 0x00015F0C = .ok (.tableRead .un 95) ∧
    decode 0x0002230C = .ok (.tableRead .off 0x23) ∧ decode 0x0003100C = .ok (.tableRead .sub 16) := by decide

/-- V-T13, V-K9 and the reserved operations of R76. -/
theorem test_decode_illegal :
    decode 0x0004000C = .error .z1NotZero ∧ decode 0x00000108 = .error .argNotZero ∧
    decode 0x0000000F = .error .reservedOp ∧ decode 0x00000011 = .error .z0NotZero ∧
    decode 0x00010004 = .error .tselNotZero := by decide

theorem test_decodeTableWord :
    decodeTableWord 32 0x00015F0C = some (.tableRead .un 95) ∧ decodeTableWord 32 0x0000000D = none := by decide

theorem test_assembly : Instr.assembly (.tableRead .off 255) = "tread off, #255" := by decide

/-! ### The commands -/

/-- R31: BUSY and PHASE = WB. -/
theorem test_nop_accept : after (exec .nop State.reset) statusWord = some 0x00007001 := by decide

/-- R173: NOP clears ERR and ERRCODE. -/
theorem test_nop_clears_error :
    after (exec .nop { State.reset with err := true, errCode := .degenerateInverseLookup, bpos := 7 }) statusWord =
      some 0x00707001 := by decide

/-- V-E13: `encrypt #13` fails with code 4. -/
theorem test_encrypt_thirteen : after (exec (.encrypt 13) loaded) statusWord = some 0x00000044 := by decide +kernel

/-- V-E1 and V-E2, ASSUMED. -/
theorem test_encrypt_vectors :
    encryptBlock default vectorBlock vectorKey vectorPbox vectorSbox 1 = some #v[2, 8, 1, 7, 6, 4, 3, 0x22] ∧
    encryptBlock default vectorBlock vectorKey vectorPbox vectorSbox 2 = some #v[8, 0x22, 2, 3, 4, 7, 1, 0x4F] := by
  decide +kernel

/-- R172: `round #11` starts in PERM with RCTR = 11 and RLIMIT = 12. -/
theorem test_round_accept :
    after (exec (.round 11) loaded) (fun t => (t.phase, t.rctr, t.rlimit, t.work)) =
      some (.perm, 11, 12, vectorBlock) := by decide +kernel

/-- R183: FB of `round #11` puts T into byte 7 and goes to WB. -/
theorem test_round_feedback :
    (fbStep { during .round .fb with rctr := 11, rlimit := 12, t := 0xAB }).work[7] = 0xAB ∧
    (fbStep { during .round .fb with rctr := 11, rlimit := 12 }).phase = .wb := by decide

/-- V-G4: `compress #12` fails with code 4. -/
theorem test_compress_twelve : after (exec (.compress 12) State.reset) statusWord = some 0x00000044 := by decide

/-- V-G10, ASSUMED: rounds 0, 3, 5 and 7. -/
theorem test_compress_vectors :
    compressG default vectorBlock vectorKey 0 = some 0x0B ∧ compressG default vectorBlock vectorKey 3 = some 0x09 ∧
    compressG default vectorBlock vectorKey 5 = some 0x0F ∧ compressG default vectorBlock vectorKey 7 = some 0x06 := by
  decide +kernel

/-- V-S1. -/
theorem test_sbox_vector : after (exec (.sbox 0x5A) loaded) State.t = some 0x86 := by decide +kernel

/-- V-S8: `sbox` with the reset SBOX fails with code 3. -/
theorem test_sbox_reset : after (exec (.sbox 0x5A) State.reset) statusWord = some 0x00000034 := by decide

/-- V-P1. -/
theorem test_pbox_vector : permBlock vectorBlock vectorPbox = #v[2, 8, 1, 7, 6, 4, 3, 5] := by decide +kernel

/-- V-P6: `pbox #0` checks PBOX. -/
theorem test_pbox_zero_checks : after (exec (.pbox 0) State.reset) statusWord = some 0x00000024 := by decide

/-- V-B1 and V-B5. -/
theorem test_pboxbit_vectors : permBits 0x37 vectorPbox = 0xD5 ∧ permBits 0x80 vectorPbox = 0x02 := by decide +kernel

/-- V-B7: `pboxbit` with the reset PBOX fails with code 2. -/
theorem test_pboxbit_reset : after (exec (.pboxbit 0x37) State.reset) statusWord = some 0x00000024 := by decide

/-- V-K7: `randperm #4` fails with code 9. -/
theorem test_randperm_four : after (exec (.randperm 4) State.reset) statusWord = some 0x00000094 := by decide

/-- R111, the third draw of V-K1: the second 2 is rejected. -/
theorem test_randperm_duplicate :
    after (coreStep { during .randperm .sample with sn := 8, sw := 3, cnt := 2, seen := 0x5, rngIn := [0xA, 6] })
      (fun t => (t.cnt, t.seen, t.rngIn, t.phase)) = some (2, 0x5, [6], .sample) := by decide

/-- V-K5, the writeback. -/
theorem test_randsbox_writeback :
    after (coreStep { during .randsbox .wb with sn := 16, cnt := 16, buf := vectorSbox })
      (fun t => (t.sboxLo, t.sboxHi, t.pbox)) = some (0x3084C7B5, 0xFAE2169D, 0x2E7B82) := by decide +kernel

/-- V-K3, the writeback. -/
theorem test_randpbox_writeback :
    after (coreStep { during .randpbox .wb with
        sn := 8, cnt := 8, buf := #v[7, 6, 5, 4, 3, 2, 1, 0, 9, 9, 9, 9, 9, 9, 9, 9] })
      (fun t => (t.pbox, t.sboxLo)) = some (0x053977, 0x3084C7B5) := by decide +kernel

/-- V-K18, the writeback. -/
theorem test_enumReset_writeback :
    after (coreStep { during .enumReset .wb with enumCur := lastKey, enumValid := false })
      (fun t => (readWindow t 0x28, t.enumValid, t.keyReg)) = some (0x11111111, true, 0xB845E48A) := by decide +kernel

/-- V-K10, the writeback after reset, and V-K16, the last tuple. -/
theorem test_enumNext_writeback :
    after (coreStep (during .enumNext .wb)) (fun t => (t.keyReg, readWindow t 0x28)) = some (0x11111111, 0x21111111) ∧
    after (coreStep { during .enumNext .wb with enumCur := lastKey })
      (fun t => (t.keyReg, readWindow t 0x28, t.enumValid)) = some (0xFFFFFFFF, 0xFFFFFFFF, false) := by decide +kernel

/-- V-K13 to V-K15. -/
theorem test_enumNext_successor :
    packNibbles (succKey #v[1, 1, 1, 1, 1, 1, 15, 15]) = 0x11211111 ∧
    packNibbles (succKey #v[1, 15, 15, 15, 15, 15, 15, 15]) = 0x11111112 ∧
    packNibbles (succKey #v[14, 15, 15, 15, 15, 15, 15, 15]) = 0x1111111F := by decide +kernel

/-- V-T7, V-T9 and V-T10, ASSUMED. -/
theorem test_tableRead_vectors :
    after (acceptTableRead default .off 0x23 State.reset) State.t = some 0x06 ∧
    after (acceptTableRead default .ln 0 State.reset) State.t = some 0x04 ∧
    after (acceptTableRead default .un 95 State.reset) State.t = some 0x07 := by decide +kernel

/-- V-T11 and V-T12: an index beyond the table fails with code 10. -/
theorem test_tableRead_range :
    after (exec (.tableRead .ln 96) State.reset) statusWord = some 0x000000A4 ∧
    after (exec (.tableRead .sub 16) State.reset) statusWord = some 0x000000A4 := by decide

/-! ### The bus -/

/-- R232: at reset `encrypt #12` fails with InvalidPermutation. -/
theorem test_step_runs_fetched_word :
    after (step (State.reset.withFetchWord 32 0x00000C01)) statusWord = some 0x00000024 := by decide

/-- R52: a byte access and a misaligned access are refused. -/
theorem test_access_refused :
    step (facing State.reset (.read 0x10 1)) = .refused .accessOutsideInterface ∧
    step (facing State.reset (.write 0x12 4 5)) = .refused .accessOutsideInterface :=
  ⟨rfl, rfl⟩

/-- R24, R51: the upper byte of PBOX holds no state. -/
theorem test_pbox_upper_byte :
    after (step (facing State.reset (.write 0x1C 4 0xAAFAC688))) (readWindow · 0x1C) = some 0x00FAC688 := by decide

/-- R31: a write of 0x106 to STATUS clears DONE, ERR and WBUSY and keeps ERRCODE. -/
theorem test_status_clear :
    after (step (facing { State.reset with err := true, errCode := .illegalCommand, wbusy := true } (.write 0x04 4 0x106)))
      statusWord = some 0x00000070 := by decide

/-- R214. -/
theorem test_irq : irq { State.reset with irqEn := true, err := true } = true ∧ irq { State.reset with done := true } = false := by
  decide

/-! ### Witnesses: for each statement with hypotheses, a state and operands that meet them

Each is named after its statement. A statement with several clauses has a witness for each, at a boundary of its range. -/

/-- Two words, one decoding to a command with an operand at each end of its range. -/
theorem witness_ADecodedWordIsItsCommandsEncoding :
    decode 0x00000001 = .ok (.encrypt 0) ∧ decode 0x0003FF0C = .ok (.tableRead .sub 255) := by decide

theorem witness_AStepOnACommandWriteRunsTheDecodedCommand :
    (facing loaded (.write 0x08 4 0x00000C01)).schedule = .host (.write 0x08 4 0x00000C01) :: [] ∧
    decode 0x00000C01 = .ok (.encrypt 12) := by decide

theorem witness_AStepWithNoHostEventIsACoreStep :
    State.reset.schedule = [] ∧ ({ loaded with schedule := [.core] } : State).schedule = .core :: [] := by decide

theorem witness_ACommandWriteIsDroppedWhileBusyAndElseAccepted :
    (facing (during .encrypt .perm) (.write 0x08 4 0)).schedule = .host (.write 0x08 4 0) :: [] ∧
    (facing (during .encrypt .perm) (.write 0x08 4 0)).busy = true ∧
    (facing loaded (.write 0x08 4 0)).schedule = .host (.write 0x08 4 0) :: [] ∧
    (facing loaded (.write 0x08 4 0)).busy = false := by decide

theorem witness_AnIllegalWordEndsAtOnceWithIllegalCommand :
    (facing loaded (.write 0x08 4 0x0000000D)).schedule = .host (.write 0x08 4 0x0000000D) :: [] ∧
    loaded.busy = false ∧ ∀ r ∈ rows, (0x0000000D : Word) &&& r.mask ≠ r.pattern := by decide

/-- The lowest and the highest offset. -/
theorem witness_AReadReturnsItsRegisterAndChangesNothing :
    (facing loaded (.read 0x00 4)).schedule = .host (.read 0x00 4) :: [] ∧ (0x00 : BitVec 8).toNat % 4 = 0 ∧
    (facing loaded (.read 0xFC 4)).schedule = .host (.read 0xFC 4) :: [] ∧ (0xFC : BitVec 8).toNat % 4 = 0 := by decide

theorem witness_ControlAndStatusReadAndWriteFieldByField :
    (facing loaded (.write 0x00 4 3)).schedule = .host (.write 0x00 4 3) :: [] ∧
    (facing loaded (.write 0x04 4 0x106)).schedule = .host (.write 0x04 4 0x106) :: [] := by decide

/-- The first and the last reserved offset. -/
theorem witness_ReservedOffsetsAndBitsReadZeroAndIgnoreWrites :
    0x2C ≤ (0x2C : BitVec 8).toNat ∧ (0x2C : BitVec 8).toNat % 4 = 0 ∧
    0x2C ≤ (0xFC : BitVec 8).toNat ∧ (0xFC : BitVec 8).toNat % 4 = 0 ∧
    (facing loaded (.read 0x2C 4)).schedule = .host (.read 0x2C 4) :: [] ∧
    (facing loaded (.write 0xFC 4 1)).schedule = .host (.write 0xFC 4 1) :: [] := by decide

/-- The lowest and the highest offset of the first clause, and an offset for each other clause. -/
theorem witness_HostWritesToOperandsWhileBusyAreDropped :
    (during .pbox .perm).busy = true ∧
    (0x08 : BitVec 8) ∈ [0x08#8, 0x10, 0x14, 0x18, 0x1C, 0x20, 0x24] ∧
    (0x24 : BitVec 8) ∈ [0x08#8, 0x10, 0x14, 0x18, 0x1C, 0x20, 0x24] ∧
    (∀ o ∈ [0x00#8, 0x04, 0x08, 0x0C, 0x24, 0x28, 0x2C, 0xFC],
      (facing (during .pbox .perm) (.write o 4 7)).schedule = .host (.write o 4 7) :: []) ∧
    0x2C ≤ (0xFC : BitVec 8).toNat ∧ (0xFC : BitVec 8).toNat % 4 = 0 := by decide

theorem witness_HostWritesWhenIdleSetOnlyTheirRegister :
    ∀ o ∈ [0x10#8, 0x14, 0x18, 0x1C, 0x20, 0x24],
      (facing loaded (.write o 4 7)).busy = false ∧
      (facing loaded (.write o 4 7)).schedule = .host (.write o 4 7) :: [] := by decide

theorem witness_TheWaitLoopEndsAfterTheFirstReadWithBusyZero :
    (facing loaded .wait).schedule = .host .wait :: [] ∧ (facing loaded .wait).busy = false ∧
    (facing (during .nop .wb) .wait).schedule = .host .wait :: [] ∧ (facing (during .nop .wb) .wait).busy = true := by
  decide

/-- A command that is taken and one that is dropped. -/
theorem witness_PresentingACommandChangesNoDataRegister :
    (∃ t, exec (.encrypt 12) loaded = .next t) ∧ (∃ t, exec (.encrypt 12) (during .nop .wb) = .next t) ∧
    loaded.busy = false := ⟨⟨_, rfl⟩, ⟨_, rfl⟩, rfl⟩

/-- Each code that an accept can raise. -/
theorem witness_ACommandRaisesTheFirstCheckThatFails :
    loaded.busy = false ∧ State.reset.busy = false ∧
    acceptError (.encrypt 13) State.reset = some .invalidPermutation ∧
    acceptError (.round 12) { State.reset with pbox := 0x2E7B82 } = some .invalidSubstitution ∧
    acceptError (.encrypt 13) loaded = some .roundIndexOutOfRange ∧
    acceptError (.compress 12) { State.reset with strictKey := true } = some .roundIndexOutOfRange ∧
    acceptError (.compress 11) { State.reset with strictKey := true } = some .invalidKeyNibble ∧
    acceptError (.randperm 9) State.reset = some .permSizeUnsupported ∧
    acceptError .enumNext { State.reset with enumValid := false } = some .keyEnumExhausted ∧
    acceptError (.tableRead .un 96) State.reset = some .tableIndexOutOfRange := by decide +kernel

/-- Each clause at the ends of its operand's range. -/
theorem witness_AnAcceptedCommandIsInitialisedAsTheTableSays :
    loaded.busy = false ∧
    (∀ a ∈ [0#8, 12], acceptError (.encrypt a) loaded = none) ∧
    (∀ a ∈ [0#8, 11], acceptError (.round a) loaded = none ∧ acceptError (.compress a) loaded = none) ∧
    (∀ a ∈ [0#8, 255], acceptError (.sbox a) loaded = none ∧ acceptError (.pbox a) loaded = none ∧
      acceptError (.pboxbit a) loaded = none) ∧
    (Instr.randperm 8, 8) ∈ [(Instr.randperm 8, 8), (.randperm 16, 16), (.randsbox, 16), (.randpbox, 8)] ∧
    (Instr.randpbox, 8) ∈ [(Instr.randperm 8, 8), (.randperm 16, 16), (.randsbox, 16), (.randpbox, 8)] ∧
    acceptError .enumNext loaded = none ∧
    acceptError (.tableRead .ln 95) loaded = none ∧ acceptError (.tableRead .sub 15) loaded = none := by
  decide +kernel

theorem witness_NopDoesNothingAndCompletes :
    loaded.busy = false ∧ (during .nop .wb).busy = true ∧
    (0x00000100 : Word).extractLsb' 0 4 = 0x0 ∧ (0x00000100 : Word) ≠ 0x00000000 := by decide

theorem witness_SboxSubstitutesBothNibbles :
    loaded.busy = false ∧ Distinct16 loaded.subst ∧
    (0x5A : Byte).toNat = (0xA : Fin 16).val + 16 * (0x5 : Fin 16).val ∧
    State.reset.busy = false ∧ ¬ Distinct16 State.reset.subst := by decide +kernel

theorem witness_PboxbitPermutesTheBitsOfAByte :
    loaded.busy = false ∧ Distinct8 loaded.perm ∧ State.reset.busy = false ∧ ¬ Distinct8 State.reset.perm := by
  decide +kernel

theorem witness_PboxPermutesTheBlockNTimes :
    loaded.busy = false ∧ Distinct8 loaded.perm ∧ 255 ≤ (255 : Byte).toNat ∧
    State.reset.busy = false ∧ ¬ Distinct8 State.reset.perm := by decide +kernel

/-- Both sides of each bound. -/
theorem witness_TableReadReturnsTheEntry :
    loaded.busy = false ∧ (95 : Byte).toNat < 96 ∧ (255 : Byte).toNat < 256 ∧ (15 : Byte).toNat < 16 ∧
    96 ≤ (96 : Byte).toNat ∧ 16 ≤ (16 : Byte).toNat ∧
    (0x8000000C : Word).extractLsb' 0 4 = 0xC ∧ (0x8000000C : Word).extractLsb' 18 14 ≠ 0 ∧
    (0x0000001C : Word).extractLsb' 4 4 ≠ 0 := by decide

theorem witness_RandpermRefusesEverySizeButEightAndSixteen :
    loaded.busy = false ∧ ((7 : Byte) ≠ 8 ∧ (7 : Byte) ≠ 16) ∧ ((255 : Byte) ≠ 8 ∧ (255 : Byte) ≠ 16) ∧
    ((16 : Byte) = 8 ∨ (16 : Byte) = 16) := by decide

/-- The draws of V-K1 and of V-K6. -/
theorem witness_RandomPermutationsAreTheDistinctDrawsInOrder :
    loaded.busy = false ∧
    (Instr.randpbox, 8) ∈ [(Instr.randperm 8, 8), (.randpbox, 8), (.randperm 16, 16), (.randsbox, 16)] ∧
    ({ loaded with rngIn := [2, 0, 2, 6, 5, 7, 4, 3, 1] } : State).rngIn =
      [2, 0, 2, 6, 5, 7, 4, 3] ++ 1 :: [] ∧
    (3 : BitVec 3) = (if (8 : Nat) = 8 then 3 else 4) ∧
    (distinctDraws 3 [] [2, 0, 2, 6, 5, 7, 4, 3]).length < 8 ∧
    (distinctDraws 3 [] ([2, 0, 2, 6, 5, 7, 4, 3] ++ [1])).length = 8 ∧
    (Instr.randperm 16, 16) ∈ [(Instr.randperm 8, 8), (.randpbox, 8), (.randperm 16, 16), (.randsbox, 16)] ∧
    (4 : BitVec 3) = (if (16 : Nat) = 8 then 3 else 4) ∧
    (distinctDraws 4 [] [15, 15, 0, 14, 1, 13, 2, 12, 3, 11, 4, 10, 5, 9, 6, 8]).length < 16 ∧
    (distinctDraws 4 [] ([15, 15, 0, 14, 1, 13, 2, 12, 3, 11, 4, 10, 5, 9, 6, 8] ++ [7])).length = 16 := by decide

theorem witness_EnumResetRestartsTheEnumeration :
    loaded.busy = false ∧ (0x0000010A : Word).extractLsb' 0 4 = 0xA ∧ (0x0000010A : Word) ≠ 0x0000000A := by decide

/-- The first tuple, the last tuple, and the exhausted enumerator. -/
theorem witness_EnumNextYieldsTheNextKey :
    loaded.busy = false ∧ loaded.enumValid = true ∧ (∀ i : Fin 8, loaded.enumCur[i] ≠ 0) ∧
    ({ loaded with enumCur := lastKey } : State).enumCur = #v[15, 15, 15, 15, 15, 15, 15, 15] ∧
    ({ loaded with enumValid := false } : State).enumValid = false ∧
    (0x8000000B : Word).extractLsb' 0 4 = 0xB ∧ (0x8000000B : Word) ≠ 0x0000000B := by decide

/-- The first tuple and the one whose successor carries through seven positions. -/
theorem witness_TheSuccessorIsTheNextTupleInLexicographicOrder :
    (∀ i : Fin 8, (#v[1, 1, 1, 1, 1, 1, 1, 1] : Key)[i] ≠ 0) ∧
    (#v[1, 1, 1, 1, 1, 1, 1, 1] : Key) ≠ #v[15, 15, 15, 15, 15, 15, 15, 15] ∧
    (∀ i : Fin 8, (#v[14, 15, 15, 15, 15, 15, 15, 15] : Key)[i] ≠ 0) ∧
    (#v[14, 15, 15, 15, 15, 15, 15, 15] : Key) ≠ #v[15, 15, 15, 15, 15, 15, 15, 15] ∧
    keyRank (#v[14, 15, 15, 15, 15, 15, 15, 15] : Key) = keyRank (#v[14, 15, 15, 15, 15, 15, 15, 15] : Key) := by decide

theorem witness_TheEnumerationYieldsExactlyFifteenToTheEighthKeys :
    loaded.busy = false ∧ loaded.enumValid = true ∧ loaded.enumCur = #v[1, 1, 1, 1, 1, 1, 1, 1] ∧
    2562890624 < 15 ^ 8 := by decide

/-! Witnesses that rest on the tables of this machine, which are not known. A key of eight equal nibbles k selects row
`TABLE_SUB[k]` for byte 7 in every round; TABLE_SUB is a permutation, so one k gives row 0 and another does not. -/

/-- The key of eight nibbles k. -/
def uniformKey (k : Nibble) : Key := Vector.replicate 8 k

/-- The vectors' machine with such a key. -/
def keyed (k : Nibble) : State := { loaded with keyReg := packNibbles (uniformKey k) }

theorem keyed_key (k : Nibble) : (keyed k).key = uniformKey k := keyOf_packNibbles _

theorem keyed_lower (k : Nibble) (r : Fin 12) (b : Fin 8) : lowerKey Config.tables (uniformKey k) r b = k := by
  simp [lowerKey, uniformKey]

theorem keyed_upper (k : Nibble) (r : Fin 12) (b : Fin 8) : upperKey Config.tables (uniformKey k) r b = k := by
  simp [upperKey, uniformKey]

/-- A nibble that the permutation TABLE_SUB sends to 0 (V-G6). -/
theorem exists_row_zero : ∃ k : Nibble, subAt Config.tables k = 0 :=
  Finite.injective_iff_surjective.mp (subAt_injective Config.tables) 0

/-- A non-zero nibble that it does not send to 0: 1 or 2. -/
theorem exists_row_ne_zero : ∃ k : Nibble, k ≠ 0 ∧ subAt Config.tables k ≠ 0 := by
  by_cases h : subAt Config.tables 1 = 0
  · refine ⟨2, by decide, fun h2 => ?_⟩
    exact absurd (subAt_injective Config.tables (h.trans h2.symm)) (by decide)
  · exact ⟨1, by decide, h⟩

/-- The lookup in row 0 finds sixteen indices or none. -/
theorem lookup_row_zero (n : Nibble) : invRow Config.tables 0 n = none := by
  simp only [invRow, offsetAt_zero]
  revert n
  decide

/-- The lookup in another row finds one. -/
theorem lookup_other_row {k : Nibble} (hk : k ≠ 0) (n : Nibble) : invRow Config.tables k n ≠ none := by
  obtain ⟨i, hi⟩ := Finite.injective_iff_surjective.mp (offsetAt_injective Config.tables hk) n
  have hL : (List.finRange 16).filter (fun j => offsetAt Config.tables k (BitVec.ofNat 4 j.val) == n) =
      [nibbleIndex i] := by
    have hmem : ∀ j : Fin 16, (offsetAt Config.tables k (BitVec.ofNat 4 j.val) == n) = (j == nibbleIndex i) := by
      intro j
      have hj : offsetAt Config.tables k (BitVec.ofNat 4 j.val) = n ↔ j = nibbleIndex i := by
        rw [← hi, (offsetAt_injective Config.tables hk).eq_iff]
        constructor
        · rintro rfl
          exact (nibbleIndex_ofNat j).symm
        · rintro rfl
          exact BitVec.eq_of_toNat_eq (by simp [nibbleIndex])
      rw [Bool.eq_iff_iff]
      simpa using hj
    simp only [hmem]
    generalize nibbleIndex i = j
    revert j
    decide
  unfold invRow
  rw [hL]
  exact Option.some_ne_none _

/-- Such a key is degenerate for every block and round. -/
theorem degenerate_key {k : Nibble} (hk : subAt Config.tables k = 0) (st : Block) (r : Fin 12) :
    compressG Config.tables st (uniformKey k) r = none := by
  unfold compressG inverseTerms
  rw [keyed_lower, hk, lookup_row_zero]
  exact Option.map_none ..

/-- And such a key for none. -/
theorem working_key {k : Nibble} (hk : subAt Config.tables k ≠ 0) (st : Block) (r : Fin 12) :
    ∃ c, compressG Config.tables st (uniformKey k) r = some c := by
  have hl := lookup_other_row hk (lowNibble st[7])
  have hu := lookup_other_row hk (highNibble st[7])
  simp only [compressG, inverseTerms, keyed_lower, keyed_upper]
  obtain ⟨il, hil⟩ := Option.ne_none_iff_exists'.mp hl
  obtain ⟨iu, hiu⟩ := Option.ne_none_iff_exists'.mp hu
  rw [hil, hiu]
  exact ⟨_, rfl⟩

theorem working_round {k : Nibble} (hk : subAt Config.tables k ≠ 0) (st : Block) (p : Pbox) (sb : Sbox) (r : Fin 12) :
    ∃ m, cipherRound Config.tables st (uniformKey k) p sb r = some m := by
  obtain ⟨c, hc⟩ := working_key hk (permBlock st p) r
  exact ⟨_, by simp only [cipherRound, hc, Option.map_some]; rfl⟩

theorem working_rounds {k : Nibble} (hk : subAt Config.tables k ≠ 0) (p : Pbox) (sb : Sbox) :
    ∀ (n first : Nat) (st : Block), first + n ≤ 12 →
      ∃ m, cipherRounds Config.tables (uniformKey k) p sb n first st = some m
  | 0, _, st, _ => ⟨st, rfl⟩
  | n + 1, first, st, h => by
    have hf : first < 12 := by omega
    obtain ⟨x, hx⟩ := working_round hk st p sb ⟨first, hf⟩
    obtain ⟨m, hm⟩ := working_rounds hk p sb n (first + 1) x (by omega)
    exact ⟨m, by simp [cipherRounds, hf, hx, hm]⟩

/-- Both outcomes of G, at the ends of the round index's range, and the two checks at accept. -/
theorem witness_CompressComputesGOfTheBlock :
    (∃ k : Nibble, (keyed k).busy = false ∧ (∀ a ∈ [0#8, 11], a.toNat < 12) ∧
      ¬ ((keyed k).strictKey = true ∧ ∃ j : Fin 8, (keyed k).key[j] = 0) ∧
      ∀ r : Fin 12, ∃ c, compressG Config.tables (keyed k).block (keyed k).key r = some c) ∧
    (∃ k : Nibble, (keyed k).busy = false ∧ ¬ ((keyed k).strictKey = true ∧ ∃ j : Fin 8, (keyed k).key[j] = 0) ∧
      ∀ r : Fin 12, compressG Config.tables (keyed k).block (keyed k).key r = none) ∧
    12 ≤ (12 : Byte).toNat ∧
    ({ State.reset with strictKey := true } : State).strictKey = true ∧ ∃ j : Fin 8, State.reset.key[j] = 0 := by
  obtain ⟨k, _, hk⟩ := exists_row_ne_zero
  obtain ⟨z, hz⟩ := exists_row_zero
  refine ⟨⟨k, rfl, by decide, fun h => absurd h.1 Bool.false_ne_true, fun r => ?_⟩,
    ⟨z, rfl, fun h => absurd h.1 Bool.false_ne_true, fun r => ?_⟩, by decide, rfl, 0, by decide⟩
  · rw [keyed_key]
    exact working_key hk _ r
  · rw [keyed_key]
    exact degenerate_key hz _ r

theorem keyed_acceptError (k : Nibble) :
    (∀ a ∈ [0#8, 11], acceptError (.round a) (keyed k) = none) ∧
    ∀ a ∈ [0#8, 1, 12], acceptError (.encrypt a) (keyed k) = none := by
  revert k
  decide +kernel

/-- Both outcomes of the round, at the ends of the index's range, and a failing check. -/
theorem witness_RoundRunsOneRoundOnTheBlock :
    (∃ k : Nibble, (keyed k).busy = false ∧ (∀ a ∈ [0#8, 11], acceptError (.round a) (keyed k) = none) ∧
      ∀ r : Fin 12, ∃ m, cipherRound Config.tables (keyed k).block (keyed k).key (keyed k).perm (keyed k).subst r = some m) ∧
    (∃ k : Nibble, (keyed k).busy = false ∧ (∀ a ∈ [0#8, 11], acceptError (.round a) (keyed k) = none) ∧
      ∀ r : Fin 12, cipherRound Config.tables (keyed k).block (keyed k).key (keyed k).perm (keyed k).subst r = none) ∧
    acceptError (.round 12) loaded = some .roundIndexOutOfRange := by
  obtain ⟨k, _, hk⟩ := exists_row_ne_zero
  obtain ⟨z, hz⟩ := exists_row_zero
  refine ⟨⟨k, rfl, (keyed_acceptError k).1, fun r => ?_⟩, ⟨z, rfl, (keyed_acceptError z).1, fun r => ?_⟩,
    by decide +kernel⟩
  · rw [keyed_key]
    exact working_round hk _ _ _ r
  · rw [keyed_key, cipherRound, degenerate_key hz]
    rfl

/-- No rounds and twelve that succeed, and a first round that fails. -/
theorem witness_EncryptRunsItsRoundsOnTheBlock :
    (∃ k : Nibble, (keyed k).busy = false ∧ ∀ a ∈ [0#8, 12], acceptError (.encrypt a) (keyed k) = none ∧
      ∃ m, encryptBlock Config.tables (keyed k).block (keyed k).key (keyed k).perm (keyed k).subst a.toNat = some m) ∧
    (∃ (k : Nibble) (m : Block), (keyed k).busy = false ∧ acceptError (.encrypt 12) (keyed k) = none ∧ 0 < (12 : Byte).toNat ∧
      encryptBlock Config.tables (keyed k).block (keyed k).key (keyed k).perm (keyed k).subst 0 = some m ∧
      cipherRound Config.tables m (keyed k).key (keyed k).perm (keyed k).subst 0 = none) ∧
    acceptError (.encrypt 13) loaded = some .roundIndexOutOfRange := by
  obtain ⟨k, _, hk⟩ := exists_row_ne_zero
  obtain ⟨z, hz⟩ := exists_row_zero
  refine ⟨⟨k, rfl, fun a ha => ⟨(keyed_acceptError k).2 a ?_, ?_⟩⟩, ⟨z, _, rfl, (keyed_acceptError z).2 12 (by decide),
    by decide, rfl, ?_⟩, by decide +kernel⟩
  · revert a
    decide
  · rw [keyed_key]
    refine working_rounds hk _ _ _ 0 _ ?_
    revert a
    decide
  · rw [keyed_key, cipherRound, degenerate_key hz]
    rfl

/-- Both outcomes, in the first and the last round. -/
theorem witness_EightCompStepsComputeG :
    ∀ i ∈ [0#4, 11], ∃ k z : Nibble, ∃ h : i.toNat < 12,
      (∃ c, compressG Config.tables loaded.work (uniformKey k) ⟨i.toNat, h⟩ = some c) ∧
      compressG Config.tables loaded.work (uniformKey z) ⟨i.toNat, h⟩ = none ∧
      (∀ x ∈ [k, z], let s : State := { keyed x with busy := true, phase := .comp, opl := .compress, rctr := i }
        s.busy = true ∧ s.phase = .comp ∧ s.bpos = 0 ∧ s.r5 = 0 ∧ s.r6 = 0 ∧ s.rctr = i ∧ s.work = loaded.work ∧
        s.key = uniformKey x) := by
  intro i hi
  obtain ⟨k, _, hk⟩ := exists_row_ne_zero
  obtain ⟨z, hz⟩ := exists_row_zero
  refine ⟨k, z, by revert i; decide, working_key hk _ _, degenerate_key hz _ _, fun x _ => ?_⟩
  exact ⟨rfl, rfl, rfl, rfl, rfl, rfl, rfl, keyed_key x⟩

/-- Row 0 and another row. -/
theorem witness_TheInverseLookupReturnsTheUniqueIndex : (1 : Nibble) ≠ 0 ∧ (0 : Nibble) = 0 := by decide

/-- The candidate tables have TABLE_SUB[0] = 0; the machine's step is at BPOS = 7 in the last round. -/
theorem witness_TheLookupIsDegenerateExactlyOnRowZero :
    (default : Aut64Tables).sub[0] = 0 ∧ (∀ j : Fin 8, vectorKey[j] ≠ 0) ∧
    (let s : State := { during .compress .comp with bpos := 7, rctr := 11 }
     s.rctr.toNat < 12 ∧ s.busy = true ∧ s.phase = .comp ∧ s.bpos = 7) := by decide +kernel

/-- With the candidate tables: unique indices for the vectors' key, and none for the key of zeros. -/
theorem witness_GIsTheXorOfItsForwardAndInverseLookups :
    (∃ il iu : Nibble,
      (∀ j, offsetAt default (subAt default (lowerKey default vectorKey 0 7)) j = vectorBlock[7].extractLsb' 0 4 ↔ j = il) ∧
      ∀ j, offsetAt default (subAt default (upperKey default vectorKey 0 7)) j = vectorBlock[7].extractLsb' 4 4 ↔ j = iu) ∧
    ∀ i : Nibble, ¬ ∀ j,
      offsetAt default (subAt default (lowerKey default (uniformKey 0) 0 7)) j = vectorBlock[7].extractLsb' 0 4 ↔ j = i := by
  decide +kernel

theorem witness_GHasTheCornerCasesThatTheTablesForce :
    (15 : Nibble) ≠ 0 ∧ compressG default (Vector.replicate 8 0) (uniformKey 1) 11 = some 0 := by decide +kernel

/-- A round that has a result, a round that has none, and the last round that can be added. -/
theorem witness_EncryptionIsItsRoundsInTurnAndEachRewritesByteSeven :
    cipherRound default vectorBlock vectorKey vectorPbox vectorSbox 0 = some #v[2, 8, 1, 7, 6, 4, 3, 0x22] ∧
    Distinct8 vectorPbox ∧ (∃ g, compressG default (permBlock vectorBlock vectorPbox) vectorKey 0 = some g) ∧
    compressG default (permBlock vectorBlock vectorPbox) (uniformKey 0) 0 = none ∧ 11 < 12 := by decide +kernel

theorem witness_SubByteThroughABijectiveSboxIsABijection :
    Distinct16 vectorSbox ∧
    ∀ j : Fin 16, (#v[6, 11, 12, 7, 4, 0, 10, 2, 5, 9, 14, 1, 3, 8, 13, 15] : Sbox)[nibbleIndex vectorSbox[j]] =
      BitVec.ofNat 4 j.val := by decide +kernel

/-- The vectors' pbox has order 8 (V-P3). -/
theorem witness_PermBlockThroughABijectivePboxIsABijection :
    Distinct8 vectorPbox ∧ ∀ i : Fin 8, (fun j => octalIndex vectorPbox[j])^[8] i = i := by decide +kernel

theorem witness_PermBitsThroughABijectivePboxIsABijection : Distinct8 vectorPbox := by decide +kernel

/-! Witnesses for the sequencer, the errors and the invariants. -/

/-- COMPRESS before byte 7 of its first round, with such a key. -/
def looking (k : Nibble) : State := { keyed k with busy := true, phase := .comp, opl := .compress, bpos := 7 }

theorem looking_inv (k : Nibble) : Inv (looking k) := by
  have h : Inv (looking 0) := by constructor <;> first | decide | (intro h; cases h)
  exact ⟨h.busy_iff, h.done_err, h.busy_clear, h.err_code, h.no_block_length, h.rctr_le, h.rlimit_le, h.phase_op,
    h.compress_round, h.round_open, h.pbox_left, h.perm_ok, h.subst_ok, h.enum_nonzero, h.enum_end,
    (fun hp => by cases hp), fun hp => by cases hp⟩

theorem looking_key (k : Nibble) : (looking k).key = uniformKey k := keyed_key k

theorem looking_row_zero {k : Nibble} (hk : subAt Config.tables k = 0) :
    invRow Config.tables (subAt Config.tables (lowerKey Config.tables (looking k).key 0 7))
      ((looking k).work[7].extractLsb' 0 4) = none := by
  rw [looking_key, keyed_lower, hk, lookup_row_zero]

theorem looking_degenerate {k : Nibble} (hk : subAt Config.tables k = 0) :
    coreStep (looking k) = .next (raise .degenerateInverseLookup (looking k)) := by
  refine compStep_degenerate (s := looking k) (show (0 : Nat) < 12 by decide) rfl ?_
  unfold inverseTerms
  rw [looking_key, keyed_lower, hk, lookup_row_zero]

/-- With the other kind of key, both lookups find an index and the step goes on. -/
theorem looking_goes_on {k : Nibble} (hk : subAt Config.tables k ≠ 0) :
    ∃ t, coreStep (looking k) = .next t ∧
      invRow Config.tables (subAt Config.tables (lowerKey Config.tables (looking k).key 0 7))
        ((looking k).work[7].extractLsb' 0 4) ≠ none ∧
      invRow Config.tables (subAt Config.tables (upperKey Config.tables (looking k).key 0 7))
        ((looking k).work[7].extractLsb' 4 4) ≠ none := by
  have hl := lookup_other_row hk (lowNibble (looking k).work[7])
  have hu := lookup_other_row hk (highNibble (looking k).work[7])
  rw [looking_key, keyed_lower, keyed_upper]
  obtain ⟨il, hil⟩ := Option.ne_none_iff_exists'.mp hl
  obtain ⟨iu, hiu⟩ := Option.ne_none_iff_exists'.mp hu
  refine ⟨_, compStep_last (s := looking k) (terms := (iu, il)) (show (0 : Nat) < 12 by decide) rfl ?_, hl, hu⟩
  unfold inverseTerms
  rw [looking_key, keyed_lower, keyed_upper, hil, hiu]

/-- Each phase's clause, with the conditions that divide it. -/
theorem witness_TheSequencerTakesOnlyTheListedTransitions :
    (∃ t, step (facing loaded (.write 0x08 4 0)) = .next t ∧ t.phase ≠ loaded.phase) ∧
    (∃ t, step { during .pbox .perm with schedule := [.rst] } = .next t) ∧
    (∃ t, coreStep { during .pbox .perm with piter := 1 } = .next t) ∧
    (∃ t, coreStep { during .pbox .perm with piter := 255 } = .next t) ∧
    (∃ t, coreStep (during .round .perm) = .next t) ∧
    (∃ t, coreStep { during .round .comp with bpos := 6 } = .next t) ∧
    (∃ k t, coreStep (looking k) = .next t ∧
      invRow Config.tables (subAt Config.tables (lowerKey Config.tables (looking k).key 0 7))
        ((looking k).work[7].extractLsb' 0 4) ≠ none ∧
      invRow Config.tables (subAt Config.tables (upperKey Config.tables (looking k).key 0 7))
        ((looking k).work[7].extractLsb' 4 4) ≠ none) ∧
    (∃ k t, coreStep (looking k) = .next t ∧
      invRow Config.tables (subAt Config.tables (lowerKey Config.tables (looking k).key 0 7))
        ((looking k).work[7].extractLsb' 0 4) = none) ∧
    (∃ t, coreStep (during .round .sub1) = .next t) ∧
    (∃ t, coreStep (during .round .bperm) = .next t) ∧
    (∃ t, coreStep (during .round .sub2) = .next t) ∧
    (∃ t, coreStep { during .round .fb with rctr := 11, rlimit := 12 } = .next t) ∧
    (∃ t, coreStep { during .encrypt .fb with rctr := 0, rlimit := 12 } = .next t) ∧
    (∃ t, coreStep { during .randpbox .sample with sn := 8, sw := 3, cnt := 7, rngIn := [5] } = .next t) ∧
    (∃ t, coreStep (during .nop .wb) = .next t) := by
  obtain ⟨k, _, hk⟩ := exists_row_ne_zero
  obtain ⟨z, hz⟩ := exists_row_zero
  exact ⟨⟨_, rfl, by decide⟩, ⟨_, rfl⟩, ⟨_, rfl⟩, ⟨_, rfl⟩, ⟨_, rfl⟩, ⟨_, rfl⟩, ⟨k, looking_goes_on hk⟩,
    ⟨z, _, looking_degenerate hz, looking_row_zero hz⟩, ⟨_, rfl⟩, ⟨_, rfl⟩, ⟨_, rfl⟩, ⟨_, rfl⟩, ⟨_, rfl⟩, ⟨_, rfl⟩,
    ⟨_, rfl⟩⟩

theorem witness_AnIdleCoreKeepsEveryRegister :
    loaded.busy = false ∧ loaded.schedule = [] ∧ ({ loaded with schedule := [.core] } : State).schedule = .core :: [] := by
  decide

theorem witness_TheRoundsPhaseStepsDoTheirSubsteps :
    (∀ p ∈ [Phase.perm, .sub1, .bperm, .sub2, .fb],
      (during .encrypt p).busy = true ∧ (during .encrypt p).phase = p ∧ (during .encrypt p).opl ≠ .pbox) ∧
    (during .pbox .perm).opl = .pbox := by decide

/-- The writeback of each command, and a core step of another phase. -/
theorem witness_TheWritebackAloneCommitsTheCommandsResult :
    (∃ t, coreStep (during .round .fb) = .next t) ∧ (during .round .fb).phase ≠ .wb ∧
    ∀ op ∈ [Op.nop, .encrypt, .round, .compress, .sbox, .pbox, .pboxbit, .randperm, .randsbox, .randpbox, .enumReset,
        .enumNext, .tableRead],
      (during op .wb).busy = true ∧ (during op .wb).phase = .wb := ⟨⟨_, rfl⟩, by decide, by decide⟩

/-- The first draw and the last, a value seen and a value not seen, and no sample. -/
theorem witness_ASampleStepCollectsANewDrawOrDiscardsIt :
    (let s : State := { during .randperm .sample with sn := 16, sw := 4, cnt := 15, seen := 0xFFFE, rngIn := [0] }
     s.busy = true ∧ s.phase = .sample ∧ s.cnt.toNat < 16 ∧ s.rngIn = 0 :: [] ∧
     s.seen.getLsbD ((0 : Nibble).toNat % 2 ^ s.sw.toNat) = false ∧
     s.seen.getLsbD ((15 : Nibble).toNat % 2 ^ s.sw.toNat) = true) ∧
    (during .randperm .sample).cnt.toNat < 16 ∧ (during .randperm .sample).rngIn = [] := by decide

/-- An error at accept, an illegal word, and the degenerate lookup in a state that meets the invariant. -/
theorem witness_AnErrorEndsTheCommandAndWritesNothingBack :
    (∃ t, step (facing loaded (.write 0x08 4 0x00000D01)) = .next t ∧ t.err = true) ∧
    (∃ t, step (facing loaded (.write 0x08 4 0x0000000F)) = .next t ∧ t.err = true) ∧
    loaded.err = false ∧
    ∃ (k : Nibble) (t : State), Inv (looking k) ∧ (looking k).busy = true ∧ coreStep (looking k) = .next t ∧
      t.err = true := by
  obtain ⟨k, hk⟩ := exists_row_zero
  exact ⟨⟨_, rfl, rfl⟩, ⟨_, rfl, rfl⟩, rfl, k, _, looking_inv k, rfl, looking_degenerate hk, rfl⟩

/-- The three ways out. -/
theorem witness_TheErrorStateEndsOnlyByClearingAcceptOrReset :
    let s : State := { loaded with err := true, errCode := .illegalCommand }
    (∃ t, step (facing s (.write 0x04 4 0x4)) = .next t ∧ t.err = false) ∧
    (∃ t, step (facing s (.write 0x08 4 0x0)) = .next t ∧ t.err = false) ∧
    (∃ t, step { s with schedule := [.rst] } = .next t ∧ t.err = false) ∧ s.err = true :=
  ⟨⟨_, rfl, rfl⟩, ⟨_, rfl, rfl⟩, ⟨_, rfl, rfl⟩, rfl⟩

theorem witness_WbusyIsStickyAndADroppedWriteIsNoError :
    (∃ t, step (facing (during .nop .wb) (.write 0x24 4 0)) = .next t ∧ t.wbusy = true) ∧
    (∃ t, step (facing (during .nop .wb) (.write 0x08 4 0)) = .next t ∧ t.wbusy = true) ∧
    (during .nop .wb).busy = true ∧ (during .nop .wb).wbusy = false ∧
    (0x24 : BitVec 8) ∈ [0x08#8, 0x10, 0x14, 0x18, 0x1C, 0x20, 0x24] ∧
    (∃ t, step (facing { loaded with wbusy := true } (.write 0x04 4 0x100)) = .next t ∧ t.wbusy = false) ∧
    (∃ t, step { loaded with wbusy := true, schedule := [.rst] } = .next t ∧ t.wbusy = false) :=
  ⟨⟨_, rfl, rfl⟩, ⟨_, rfl, rfl⟩, rfl, rfl, by decide, ⟨_, rfl, rfl⟩, ⟨_, rfl, rfl⟩⟩

theorem witness_TheInterruptLineFollowsDoneErrAndItsEnable :
    (∃ t, coreStep (during .nop .wb) = .next t) ∧ (during .nop .wb).busy = true ∧
    (∃ t, exec .nop loaded = .next t ∧ t.busy = true) ∧ loaded.busy = false ∧
    (∃ t, step (facing loaded (.write 0x04 4 0x6)) = .next t) ∧ (0x6 : Word).getLsbD 1 = true ∧
    (0x6 : Word).getLsbD 2 = true ∧
    (∃ t, step (facing loaded (.write 0x00 4 0x2)) = .next t) ∧ (0x2 : Word).getLsbD 0 = false :=
  ⟨⟨_, rfl⟩, rfl, ⟨_, rfl, rfl⟩, rfl, ⟨_, rfl⟩, by decide, by decide, ⟨_, rfl⟩, by decide⟩

theorem witness_ResetGivesEveryRegisterItsListedValue :
    ({ during .encrypt .comp with schedule := [.rst] } : State).schedule = .rst :: [] := by decide

/-- A writeback and a reset that change RESULT. -/
theorem witness_ResultChangesOnlyAtTheWritebackOfItsFourCommands :
    (∃ t, step { during .sbox .wb with t := 0x86 } = .next t ∧ t.result ≠ loaded.result) ∧
    (∃ t, step { loaded with result := 1, schedule := [.rst] } = .next t ∧ t.result ≠ 1) :=
  ⟨⟨_, rfl, by decide⟩, ⟨_, rfl, by decide⟩⟩

/-- A change of each register, by a host write and by a writeback. -/
theorem witness_DataRegistersChangeOnlyByTheirWriters :
    (∀ o ∈ [0x10#8, 0x14, 0x18, 0x1C, 0x20, 0x24], ∃ t, step (facing loaded (.write o 4 7)) = .next t ∧
      readWindow t o ≠ readWindow loaded o) ∧
    (∃ t, step (during .pbox .wb) = .next t ∧ t.blockLo ≠ loaded.blockLo) ∧
    (∃ t, step (during .enumNext .wb) = .next t ∧ t.keyReg ≠ loaded.keyReg ∧ t.enumCur ≠ loaded.enumCur) ∧
    (∃ t, step { during .randpbox .wb with sn := 8 } = .next t ∧ t.pbox ≠ loaded.pbox) ∧
    (∃ t, step { during .randsbox .wb with sn := 16 } = .next t ∧ t.sboxLo ≠ loaded.sboxLo) ∧
    ∀ rest, (during .pbox .wb).schedule ≠ .rst :: rest := by
  refine ⟨?_, ⟨_, rfl, by decide⟩, ⟨_, rfl, by decide, by decide⟩, ⟨_, rfl, by decide⟩, ⟨_, rfl, by decide⟩,
    fun _ h => by cases h⟩
  intro o ho
  fin_cases ho <;> exact ⟨_, rfl, by decide⟩

/-- A sampler about to write its pbox back. -/
def sampled : State := { during .randpbox .wb with sn := 8, sw := 3, cnt := 8, seen := 0xFF, buf := #v[
  7, 6, 5, 4, 3, 2, 1, 0, 0, 0, 0, 0, 0, 0, 0, 0] }

theorem sampled_inv : Inv sampled := by
  constructor <;> first | decide | (intro h; cases h; done) | (intro _ _; refine ⟨⟨?_, ?_, ?_, ?_, ?_, ?_⟩, ?_⟩ <;> decide)

/-- A round of ENCRYPT in SUB1. -/
def substituting : State := { during .encrypt .sub1 with rlimit := 12 }

theorem substituting_inv : Inv substituting := by
  constructor <;> first | decide +kernel | (intro h; cases h)

theorem witness_EveryStepKeepsTheInvariant :
    Inv sampled ∧ (∃ t, step sampled = .next t) ∧ Inv substituting ∧ ∃ t, step substituting = .next t :=
  ⟨sampled_inv, ⟨_, rfl⟩, substituting_inv, ⟨_, rfl⟩⟩

theorem witness_AMachineThatMeetsTheInvariantNeverFaults : Inv sampled ∧ Inv substituting :=
  ⟨sampled_inv, substituting_inv⟩

theorem witness_TheGeneratedBoxesAreBijections :
    Inv sampled ∧ sampled.busy = true ∧ sampled.phase = .wb ∧
    (sampled.opl = .randperm ∨ sampled.opl = .randsbox ∨ sampled.opl = .randpbox) ∧ ∃ t, coreStep sampled = .next t :=
  ⟨sampled_inv, rfl, rfl, .inr (.inr rfl), ⟨_, rfl⟩⟩

/-- Two core steps of a round with a dropped write, a write of CTRL and a read between them. -/
theorem witness_InterleavedHostAccessesDoNotChangeACommandsResult :
    let es : List Event := [.core, .host (.write 0x10 4 5), .host (.write 0x00 4 3), .host (.read 0x04 4)]
    let s : State := { substituting with schedule := es ++ [.core] }
    Inv s ∧ s.schedule = es ++ [.core] ∧ (∀ e ∈ es, interleaves e = true) ∧
    (∀ k, k ≤ es.count .core → ∃ x, coreRun k s = .next x ∧ x.busy = true) ∧
    ∃ t, coreRun (es.count .core + 1) s = .next t := by
  refine ⟨?_, rfl, by decide, ?_, ⟨_, rfl⟩⟩
  · constructor <;> first | decide +kernel | (intro h; cases h)
  · intro k hk
    have hk : k ≤ 1 := hk
    interval_cases k
    · exact ⟨_, rfl, rfl⟩
    · exact ⟨_, rfl, rfl⟩

/-- The reset state, and the same with other values in the unspecified fields. -/
theorem witness_UnspecifiedResetValuesAreNeverObserved :
    SameButScratch State.reset { State.reset with t := 0xA5, work := vectorBlock, opl := .encrypt, buf := vectorSbox, cnt := 7 } ∧
    State.reset.busy = false ∧ State.reset.phase = .idle := ⟨rfl, rfl, rfl⟩

end Sys2Proof.Tests
end

section
/-! PROOFS of the statements about the state (spec/10_state.md): which steps change RESULT (R26). -/

namespace Sys2Proof.Machine

/-- The commands whose writeback writes RESULT (R26). -/
def writesResult : List Op := [.compress, .sbox, .pboxbit, .tableRead]

@[simp] theorem permStep_result (s : State) : (permStep s).result = s.result := by rw [permStep_frame]

@[simp] theorem writeSample_result (s : State) : (writeSample s).result = s.result := by rw [writeSample_frame]

@[simp] theorem yieldKey_result (s : State) : (yieldKey s).result = s.result := by rw [yieldKey_frame]

@[simp] theorem initOf_result (i : Instr) (s : State) : (initOf i s).result = s.result := by rw [(initOf_frame i s).2]

@[simp] theorem pollStatus_result (s : State) : (pollStatus s).result = s.result := by
  unfold pollStatus
  dsimp only
  split <;> rfl

theorem compStep_result {s t : State} (h : compStep Config.tables s = .next t) : t.result = s.result := by
  rcases compStep_cases h with ⟨rfl, -⟩ | ht
  · rfl
  · rw [ht]

theorem sampleStep_result {s t : State} (h : sampleStep s = .next t) : t.result = s.result := by
  rw [sampleStep_frame h]

/-- The writeback of a command that R26 does not name leaves RESULT alone. -/
theorem writeback_result {s : State} (h : s.opl ∉ writesResult) : (writeback s).result = s.result := by
  cases ho : s.opl <;> simp only [writeback, ho]
  case compress | sbox | pboxbit | tableRead => simp [ho, writesResult] at h
  case nop | encrypt | round | pbox | enumReset => rfl
  case randperm | randsbox | randpbox => exact writeSample_result s
  case enumNext => exact yieldKey_result s

/-- The only core step that can change RESULT is the writeback of one of its commands. -/
theorem coreStep_result_changed {s t : State} (h : coreStep s = .next t) (hne : t.result ≠ s.result) :
    s.busy = true ∧ s.phase = .wb ∧ s.opl ∈ writesResult := by
  cases hb : s.busy with
  | false =>
    rw [coreStep_idle hb] at h
    cases h
    exact absurd rfl hne
  | true =>
    rcases coreStep_cases hb h with
      ⟨-, rfl⟩ | ⟨-, hc⟩ | ⟨-, rfl⟩ | ⟨-, rfl⟩ | ⟨-, rfl⟩ | ⟨-, rfl⟩ | ⟨hp, rfl⟩ | ⟨-, hs⟩
    · exact absurd (permStep_result s) hne
    · exact absurd (compStep_result hc) hne
    · exact absurd rfl hne
    · exact absurd rfl hne
    · exact absurd rfl hne
    · exact absurd rfl hne
    · exact ⟨rfl, hp, by_contra fun ho => hne (writeback_result ho)⟩
    · exact absurd (sampleStep_result hs) hne

/-- Presenting a command leaves RESULT alone, whether it is dropped, rejected or started. -/
theorem exec_result {i : Instr} {s t : State} (h : exec i s = .next t) : t.result = s.result := by
  rcases exec_cases h with ⟨-, rfl⟩ | ⟨-, code, -, rfl⟩ | ⟨-, rfl⟩
  · rfl
  · rfl
  · exact initOf_result i _

theorem writeCmd_result {w : Word} {s t : State} (h : writeCmd w s = .next t) : t.result = s.result := by
  rcases writeCmd_cases h with ⟨-, rfl⟩ | ⟨-, i, -, he⟩ | ⟨-, rfl⟩
  · rfl
  · exact exec_result he
  · rfl

/-- No host write changes RESULT. -/
theorem writeWindow_result {s t : State} {offset : BitVec 8} {v : Word} (h : writeWindow s offset v = .next t) :
    t.result = s.result := by
  rcases writeWindow_cases h with rfl | ⟨-, rfl⟩ | ⟨-, rfl⟩ | ⟨-, hc⟩ | ⟨-, -, rfl⟩ | ⟨-, hd⟩
  · rfl
  · rfl
  · rfl
  · exact writeCmd_result hc
  · rfl
  · rcases hd with ⟨-, rfl⟩ | ⟨-, rfl⟩ | ⟨-, rfl⟩ | ⟨-, rfl⟩ | ⟨-, rfl⟩ | ⟨-, rfl⟩ <;> rfl

/-- A step that changes RESULT is the writeback of one of its commands, or a reset. -/
theorem step_result_changed {s t : State} (h : step s = .next t) (hne : t.result ≠ s.result) :
    (s.busy = true ∧ s.phase = .wb ∧ s.opl ∈ writesResult) ∨
    (∃ rest, s.schedule = .rst :: rest ∧ t.result = 0) := by
  rcases step_cases h with ⟨-, hc⟩ | ⟨rest, -, hc⟩ | ⟨rest, hs, rfl⟩ | ⟨rest, -, rfl⟩ |
    ⟨rest, offset, -, -, rfl⟩ | ⟨rest, offset, v, -, -, hw⟩
  · exact .inl (coreStep_result_changed hc hne)
  · exact .inl (coreStep_result_changed (s := { s with schedule := rest }) hc hne)
  · exact .inr ⟨rest, hs, rfl⟩
  · exact absurd (pollStatus_result _) hne
  · exact absurd rfl hne
  · exact absurd (writeWindow_result hw) hne

/-- RESULT reads with bits 31 to 8 zero (R26). -/
theorem readWindow_result_lt (s : State) : (readWindow s Reg.result.offset).toNat < 256 := by
  simpa [readWindow_offset, readReg] using Nat.lt_of_le_of_lt (Nat.mod_le _ _) s.result.isLt

/-- Settles O52: one case per event of a step (`step_cases`), each of which leaves RESULT alone but for the writeback
of its commands and the reset. -/
theorem resultChangesOnlyAtTheWritebackOfItsFourCommands :
    Obligations.ResultChangesOnlyAtTheWritebackOfItsFourCommands :=
  ⟨rfl,
   fun s => ⟨readWindow_offset s .result, readWindow_result_lt s, writeWindow_offset s .result⟩,
   fun _ _ => step_result_changed⟩

end Sys2Proof.Machine
end

section
/-! PROOFS of the statements about the register window (spec/20_memory.md): reserved offsets and bits (R51), the
accesses that are refused (R52), and host writes against BUSY (R57). -/

namespace Sys2Proof.Machine

/-! A host access inside the interface, as one step. -/

/-- A step on a host write inside the interface is the write at its offset of the window (R52). -/
theorem step_write {s : State} {offset : BitVec 8} {v : Word} {rest : List Event}
    (hs : s.schedule = .host (.write offset 4 v) :: rest) (ha : offset.toNat % 4 = 0) :
    step s = writeWindow { s with schedule := rest } offset v := by
  rw [step_host hs, hostStep_write ha]

/-- A step on a host read inside the interface returns the window's value (R52, R54). -/
theorem step_read {s : State} {offset : BitVec 8} {rest : List Event}
    (hs : s.schedule = .host (.read offset 4) :: rest) (ha : offset.toNat % 4 = 0) :
    step s = .next { s with schedule := rest, rdata := readWindow { s with schedule := rest } offset } := by
  rw [step_host hs, hostStep_read ha]

theorem Reg.offset_aligned (r : Reg) : r.offset.toNat % 4 = 0 := by cases r <;> rfl

/-- A step on a host write of a register is that register's write. -/
theorem step_writeReg {s : State} {v : Word} {rest : List Event} (r : Reg)
    (hs : s.schedule = .host (.write r.offset 4 v) :: rest) :
    step s = writeReg { s with schedule := rest } v r := by
  rw [step_write hs r.offset_aligned, writeWindow_offset]

/-! Reserved offsets (R51). -/

theorem readWindow_reserved (s : State) {offset : BitVec 8} (h : 0x2C ≤ offset.toNat) : readWindow s offset = 0 := by
  simp [readWindow, regAt_reserved h]

theorem writeWindow_reserved (s : State) (v : Word) {offset : BitVec 8} (h : 0x2C ≤ offset.toNat) :
    writeWindow s offset v = .next s := by
  simp [writeWindow, regAt_reserved h]

/-- A step on a write to a reserved offset only takes the write off the schedule. -/
theorem step_write_reserved {s : State} {offset : BitVec 8} {v : Word} {rest : List Event}
    (hr : 0x2C ≤ offset.toNat) (ha : offset.toNat % 4 = 0)
    (hs : s.schedule = .host (.write offset 4 v) :: rest) : step s = .next { s with schedule := rest } := by
  rw [step_write hs ha, writeWindow_reserved _ v hr]

/-! Reserved bits (R51). -/

/-- A field of `w` bits at bit `k` of a register meets a mask in no bit if the mask leaves those positions clear. -/
theorem field_and_eq_zero {w : Nat} (x : BitVec w) (k : Nat) {mask : Word}
    (hm : (BitVec.allOnes w).setWidth 32 <<< k &&& mask = 0) : (x.setWidth 32 <<< k) &&& mask = 0 := by
  rw [← BitVec.and_allOnes (x := x), BitVec.setWidth_and, BitVec.shiftLeft_and_distrib, BitVec.and_assoc, hm]
  exact BitVec.and_zero

/-- The same for a flag. -/
theorem flagAt_and_eq_zero (b : Bool) (k : Nat) {mask : Word}
    (hm : (BitVec.allOnes 1).setWidth 32 <<< k &&& mask = 0) : flagAt b k &&& mask = 0 :=
  field_and_eq_zero (BitVec.ofBool b) k hm

theorem or_and_eq_zero_iff {x y mask : Word} : (x ||| y) &&& mask = 0 ↔ x &&& mask = 0 ∧ y &&& mask = 0 := by
  rw [BitVec.and_or_distrib_right]
  exact BitVec.or_eq_zero_iff

theorem ctrlWord_reserved (s : State) : ctrlWord s &&& 0xFFFFFFFC = 0 :=
  or_and_eq_zero_iff.mpr
    ⟨flagAt_and_eq_zero s.irqEn 0 (by decide), flagAt_and_eq_zero s.strictKey 1 (by decide)⟩

theorem statusWord_reserved (s : State) : statusWord s &&& 0xFF800C08 = 0 := by
  simp only [statusWord, or_and_eq_zero_iff, and_assoc]
  exact ⟨flagAt_and_eq_zero s.busy 0 (by decide), flagAt_and_eq_zero s.done 1 (by decide),
    flagAt_and_eq_zero s.err 2 (by decide), field_and_eq_zero s.errCode.code 4 (by decide),
    flagAt_and_eq_zero s.wbusy 8 (by decide), flagAt_and_eq_zero (!s.enumValid) 9 (by decide),
    field_and_eq_zero s.phase.code 12 (by decide), field_and_eq_zero s.rctr 16 (by decide),
    field_and_eq_zero s.bpos 20 (by decide)⟩

theorem readReg_result_reserved (s : State) : readReg s .result &&& 0xFFFFFF00 = 0 := by
  simpa [readReg] using field_and_eq_zero s.result 0 (mask := 0xFFFFFF00) (by decide)

theorem readReg_pbox_reserved (s : State) : readReg s .pbox &&& 0xFF000000 = 0 := by
  simpa [readReg] using field_and_eq_zero s.pbox 0 (mask := 0xFF000000) (by decide)

/-- CTRL takes bits 0 and 1 of the value written only. -/
theorem writeCtrl_masked (v : Word) (s : State) : writeCtrl (v &&& 0x00000003) s = writeCtrl v s := by
  simp [writeCtrl]

/-- STATUS takes bits 1, 2 and 8 of the value written only. -/
theorem writeStatus_masked (v : Word) (s : State) : writeStatus (v &&& 0x00000106) s = writeStatus v s := by
  simp [writeStatus]

/-- PBOX takes bits 0 to 23 of the value written only. -/
theorem truncate_pbox_masked (v : Word) : (v &&& 0x00FFFFFF).truncate 24 = v.truncate 24 := by
  have hm : (0x00FFFFFF : Word).setWidth 24 = BitVec.allOnes 24 := by decide
  rw [BitVec.truncate, BitVec.setWidth_and, hm, BitVec.and_allOnes]

theorem writeReg_pbox_masked (s : State) (v : Word) : writeReg s (v &&& 0x00FFFFFF) .pbox = writeReg s v .pbox := by
  simp only [writeReg, truncate_pbox_masked]

/-- Settles O11: no register stands at a reserved offset, and a register's reserved bits hold no field of it. -/
theorem reservedOffsetsAndBitsReadZeroAndIgnoreWrites :
    Obligations.ReservedOffsetsAndBitsReadZeroAndIgnoreWrites := by
  refine ⟨fun s offset v rest hr ha => ⟨fun hs => ?_, step_write_reserved hr ha⟩, fun s => ⟨?_, ?_, ?_, ?_⟩,
    fun s v => ⟨?_, ?_, ?_⟩⟩
  · rw [step_read hs ha, readWindow_reserved _ hr]
  · exact ctrlWord_reserved s
  · exact statusWord_reserved s
  · exact readReg_result_reserved s
  · exact readReg_pbox_reserved s
  · exact congrArg Host.Outcome.next (writeCtrl_masked v s).symm
  · exact congrArg Host.Outcome.next (writeStatus_masked v s).symm
  · exact (writeReg_pbox_masked s v).symm

/-! Host writes against BUSY (R57). -/

/-- The registers whose host write is dropped while BUSY = 1 (R57). -/
def operandRegs : List Reg := [.cmd, .blockLo, .blockHi, .keyReg, .pbox, .sboxLo, .sboxHi]

theorem writeCmd_busy {s : State} (w : Word) (h : s.busy = true) : writeCmd w s = .next (dropWrite s) := by
  unfold writeCmd
  split
  · exact exec_busy _ h
  · exact acceptIllegal_busy h

/-- While BUSY = 1 a write of an operand register is dropped. -/
theorem writeReg_busy {s : State} (v : Word) {r : Reg} (hr : r ∈ operandRegs) (h : s.busy = true) :
    writeReg s v r = .next (dropWrite s) := by
  cases r
  case cmd => exact writeCmd_busy v h
  case ctrl | status | result | enum => simp [operandRegs] at hr
  all_goals exact congrArg Host.Outcome.next (writeData_busy h)

/-- A write of STATUS clears each write-1-to-clear field whose bit is 1 (R31). -/
theorem writeStatus_eq (v : Word) (s : State) : writeStatus v s =
    { s with
      done := if v.getLsbD 1 then false else s.done
      err := if v.getLsbD 2 then false else s.err
      wbusy := if v.getLsbD 8 then false else s.wbusy } := by
  have clear (old bit : Bool) : (old && !bit) = if bit then false else old := by cases bit <;> simp
  simp only [writeStatus, clear]

/-- Settles O12: each offset is that of one register, or reserved, and the register's own write says what happens. -/
theorem hostWritesToOperandsWhileBusyAreDropped : Obligations.HostWritesToOperandsWhileBusyAreDropped := by
  intro s offset v rest hs
  refine ⟨fun hb ho => ?_, ?_, ?_, ?_⟩
  · obtain ⟨r, hr, rfl⟩ : ∃ r ∈ operandRegs, r.offset = offset := List.mem_map.mp ho
    exact (step_writeReg r hs).trans (writeReg_busy v hr hb)
  · rintro rfl
    exact step_writeReg .ctrl hs
  · rintro rfl
    rw [step_writeReg .status hs, writeReg, writeStatus_eq]
  · rintro (rfl | rfl | ⟨hr, ha⟩)
    · exact step_writeReg .result hs
    · exact step_writeReg .enum hs
    · exact step_write_reserved hr ha hs

/-! What is refused (R52): no core step and no write of a register, so only an access outside the interface. -/

theorem exec_next (i : Instr) (s : State) : ∃ t, exec i s = .next t := by
  cases hb : s.busy with
  | true => exact ⟨_, exec_busy i hb⟩
  | false => obtain ⟨code, -, -, he⟩ | ⟨-, he⟩ := exec_idle i hb <;> exact ⟨_, he⟩

theorem acceptIllegal_next (s : State) : ∃ t, acceptIllegal s = .next t := by
  cases hb : s.busy with
  | true => exact ⟨_, acceptIllegal_busy hb⟩
  | false => exact ⟨_, acceptIllegal_idle hb⟩

/-- A write of a register always answers a next state. -/
theorem writeReg_next (s : State) (v : Word) (r : Reg) : ∃ t, writeReg s v r = .next t := by
  cases r
  case cmd =>
    simp only [writeReg, writeCmd]
    split
    · exact exec_next _ s
    · exact acceptIllegal_next s
  all_goals exact ⟨_, rfl⟩

theorem writeWindow_next (s : State) (offset : BitVec 8) (v : Word) : ∃ t, writeWindow s offset v = .next t := by
  unfold writeWindow
  split
  · exact writeReg_next s v _
  · exact ⟨s, rfl⟩

theorem compStep_ne_refused (tables : Aut64Tables) (s : State) (r : Refusal) : compStep tables s ≠ .refused r := by
  unfold compStep
  split_ifs
  · split <;> simp
  · simp
  · simp

theorem sampleStep_ne_refused (s : State) (r : Refusal) : sampleStep s ≠ .refused r := by
  unfold sampleStep
  split
  · simp
  · dsimp only
    split_ifs <;> simp

theorem coreStep_ne_refused (s : State) (r : Refusal) : coreStep s ≠ .refused r := by
  cases hb : s.busy with
  | false => simp [coreStep_idle hb]
  | true =>
    rw [coreStep_busy hb]
    unfold phaseStep
    split
    case h_3 => exact compStep_ne_refused _ s r
    case h_9 => exact sampleStep_ne_refused s r
    all_goals simp

theorem accessDefined_eq_false {offset : BitVec 8} {width : Nat} :
    accessDefined offset width = false ↔ width ≠ 4 ∨ offset.toNat % 4 ≠ 0 := by
  simp only [accessDefined, decide_eq_false_iff_not, not_and_or, ne_eq]

/-- A host operation is refused exactly if it is an access outside the interface. -/
theorem hostStep_eq_refused {op : HostOp} {s : State} {r : Refusal} : hostStep op s = .refused r ↔
    r = .accessOutsideInterface ∧ ∃ offset width, (op = .read offset width ∨ ∃ v, op = .write offset width v) ∧
      accessDefined offset width = false := by
  cases op with
  | wait => simp [hostStep]
  | read offset width => cases hd : accessDefined offset width <;> simp [hostStep, hd, @eq_comm _ r]
  | write offset width v =>
    obtain ⟨t, ht⟩ := writeWindow_next s offset v
    cases hd : accessDefined offset width <;> simp [hostStep, hd, ht, @eq_comm _ r]

/-- A step is refused exactly if the next event is a host operation that is. -/
theorem step_eq_refused {s : State} {r : Refusal} : step s = .refused r ↔
    ∃ op rest, s.schedule = .host op :: rest ∧ hostStep op { s with schedule := rest } = .refused r := by
  cases hs : s.schedule with
  | nil => simp [step_nil hs, coreStep_ne_refused]
  | cons e rest =>
    cases e with
    | core => simp [step_core hs, coreStep_ne_refused]
    | rst => simp [step_rst hs]
    | host op => simp [step_host hs]

/-- Settles O14: of all events only a host access outside the interface is refused (`step_eq_refused`,
`hostStep_eq_refused`). -/
theorem exactlyTheAccessesOutsideTheInterfaceAreRefused :
    Obligations.ExactlyTheAccessesOutsideTheInterfaceAreRefused := by
  intro s r
  simp only [step_eq_refused, hostStep_eq_refused, accessDefined_eq_false]
  constructor
  · rintro ⟨op, rest, hs, hr, offset, width, hop, hd⟩
    refine ⟨hr, offset, width, rest, ?_, hd⟩
    rcases hop with rfl | ⟨v, rfl⟩
    · exact .inl hs
    · exact .inr ⟨v, hs⟩
  · rintro ⟨hr, offset, width, rest, hs | ⟨v, hs⟩, hd⟩
    · exact ⟨_, rest, hs, hr, offset, width, .inl rfl, hd⟩
    · exact ⟨_, rest, hs, hr, offset, width, .inr ⟨v, rfl⟩, hd⟩

end Sys2Proof.Machine
end

section
/-! PROOFS of the statement about the constant tables (spec/40_tables.md): TABLE_READ (R102), and what the decoder
makes of a word by its OP (R74, R75). -/

namespace Sys2Proof

/-! The decoder by OP: the row at position OP is the only one that a word can match. -/

/-- Every row of R74 fixes all of OP, at the row's own position. -/
theorem rows_op (k : Fin 13) : opField rows[k.val].mask = BitVec.allOnes 4 ∧ (opField rows[k.val].pattern).toNat = k := by
  revert k
  decide

theorem opField_and (w v : Word) : opField (w &&& v) = opField w &&& opField v := BitVec.extractLsb'_and

theorem z0Field_and (w v : Word) : z0Field (w &&& v) = z0Field w &&& z0Field v := BitVec.extractLsb'_and

theorem z1Field_and (w v : Word) : z1Field (w &&& v) = z1Field w &&& z1Field v := BitVec.extractLsb'_and

/-- A word matches no row but the one at position OP. -/
theorem opField_of_match {w : Word} {k : Nat} (hk : k < rows.length) (h : w &&& rows[k].mask = rows[k].pattern) :
    (opField w).toNat = k := by
  obtain ⟨hmask, hpattern⟩ := rows_op ⟨k, hk⟩
  calc (opField w).toNat = (opField (w &&& rows[k].mask)).toNat := by rw [opField_and, hmask, BitVec.and_allOnes]
    _ = k := by rw [h, hpattern]

/-- A word decodes by the row at position OP, or is illegal. -/
theorem decode_eq_of_row {w : Word} {r : Row} (hr : rows[(opField w).toNat]? = some r) :
    decode w = if w &&& r.mask = r.pattern then .ok (r.build (argField w) (TSel.ofCode (tselField w)))
      else .error (illegalReason w) := by
  obtain ⟨hlt, hr⟩ := List.getElem?_eq_some_iff.mp hr
  unfold decode
  split_ifs with hm
  · have hfind : rows.find? (fun r => w &&& r.mask == r.pattern) = some r := by
      refine List.find?_eq_some_iff_getElem.mpr ⟨beq_iff_eq.mpr hm, _, hlt, hr, fun j hj => ?_⟩
      have hne : w &&& rows[j].mask ≠ rows[j].pattern := fun h => hj.ne (opField_of_match _ h).symm
      simp [hne]
    rw [hfind]
  · have hfind : rows.find? (fun r => w &&& r.mask == r.pattern) = none := by
      refine List.find?_eq_none.mpr fun q hq hp => hm ?_
      obtain ⟨k, hk, rfl⟩ := List.getElem_of_mem hq
      obtain rfl := opField_of_match hk (beq_iff_eq.mp hp)
      exact hr ▸ beq_iff_eq.mp hp
    rw [hfind]

/-! TABLE_READ's words. -/

/-- A word with TABLE_READ's OP is TABLE_READ if it matches the row of R74, else illegal. -/
theorem decode_of_opField_tableRead {w : Word} (hop : opField w = 0xC) :
    decode w = if w &&& 0xFFFC00FF = 0x0000000C then .ok (.tableRead (TSel.ofCode (tselField w)) (argField w))
      else .error (illegalReason w) := by
  have hr : rows[(opField w).toNat]? =
      some ⟨"TABLE_READ", 0x0000000C, 0xFFFC00FF, fun a t => .tableRead t a⟩ := by rw [hop]; rfl
  exact decode_eq_of_row hr

/-- TABLE_READ's row fixes Z0 and Z1 to 0. -/
theorem z0_z1_of_match_tableRead {w : Word} (h : w &&& 0xFFFC00FF = 0x0000000C) : z0Field w = 0 ∧ z1Field w = 0 := by
  have h0 := congrArg z0Field h
  have h1 := congrArg z1Field h
  rw [z0Field_and, show z0Field 0xFFFC00FF = BitVec.allOnes 4 by decide, BitVec.and_allOnes] at h0
  rw [z1Field_and, show z1Field 0xFFFC00FF = BitVec.allOnes 14 by decide, BitVec.and_allOnes] at h1
  exact ⟨h0, h1⟩

/-- A word with TABLE_READ's OP and Z0 or Z1 not 0 is no command. -/
theorem decode_tableRead_reserved {w : Word} (hop : opField w = 0xC) (hz : z0Field w ≠ 0 ∨ z1Field w ≠ 0) :
    ∃ e, decode w = .error e := by
  refine ⟨illegalReason w, ?_⟩
  rw [decode_of_opField_tableRead hop, if_neg]
  intro hm
  obtain ⟨h0, h1⟩ := z0_z1_of_match_tableRead hm
  exact hz.elim (· h0) (· h1)

@[simp] theorem TSel.ofCode_code (x : TSel) : TSel.ofCode x.code = x := by cases x <;> rfl

/-- The word of a TABLE_READ matches its row: neither operand reaches into a bit that the row fixes. -/
theorem encode_tableRead_match (x : TSel) (a : Byte) : encode (.tableRead x a) &&& 0xFFFC00FF = 0x0000000C := by
  have ha : (a.zeroExtend 32 <<< 8) &&& (0xFFFC00FF : Word) = 0 := Machine.field_and_eq_zero a 8 (by decide)
  have hx : (x.code.zeroExtend 32 <<< 16) &&& (0xFFFC00FF : Word) = 0 := Machine.field_and_eq_zero x.code 16 (by decide)
  simp only [encode, Instr.op, Instr.arg, Instr.tsel, BitVec.and_or_distrib_right, ha, hx]
  decide

/-- A TABLE_READ is what its word decodes to. -/
theorem decode_encode_tableRead (x : TSel) (a : Byte) : decode (encode (.tableRead x a)) = .ok (.tableRead x a) := by
  obtain ⟨hop, harg, htsel, -, -⟩ := Laws.EncodeFields.tableRead x a
  rw [decode_of_opField_tableRead hop, if_pos (encode_tableRead_match x a), harg, htsel, TSel.ofCode_code]
  rfl

namespace Machine

/-! TABLE_READ's accept and writeback. -/

/-- A table has an entry at exactly the indices below its size (R102). -/
theorem tableEntry_isSome (tables : Aut64Tables) (x : TSel) (a : Byte) :
    (tableEntry tables x a).isSome = true ↔ a.toNat < x.size := by
  cases x <;> simp [tableEntry, TSel.size]

/-- TABLE_READ of an entry is accepted and completes in one core step, with the entry in T and RESULT. -/
theorem tableRead_completes {x : TSel} {a b : Byte} {s : State} (hb : s.busy = false)
    (he : tableEntry Config.tables x a = some b) :
    ∃ t, exec (.tableRead x a) s = .next t ∧ t.busy = true ∧
      coreStep t = .next { finished (.tableRead x a) s with t := b, result := b } := by
  have hlt : a.toNat < x.size := (tableEntry_isSome _ _ _).mp (by rw [he]; rfl)
  have hchecks : firstFailure (checksOf (.tableRead x a) (latchedFor (.tableRead x a) s)) = none := by
    simp [firstFailure_none, checksOf, checkTableIndex, hlt]
  refine ⟨_, by rw [exec_eq, accept_passes hb hchecks], rfl, ?_⟩
  rw [coreStep_wb rfl rfl]
  simp only [initOf, he, Option.getD_some]
  rfl

/-- TABLE_READ beyond the table's last entry is rejected (R102). -/
theorem tableRead_rejected {x : TSel} {a : Byte} {s : State} (hb : s.busy = false) (h : x.size ≤ a.toNat) :
    exec (.tableRead x a) s = .next (rejected (.tableRead x a) .tableIndexOutOfRange s) := by
  have hchecks : firstFailure (checksOf (.tableRead x a) (latchedFor (.tableRead x a) s)) =
      some .tableIndexOutOfRange := by simp [checksOf, firstFailure, checkTableIndex, h]
  rw [exec_eq, accept_fails hb hchecks]
  rfl

/-- Settles O23: the words by the row at their OP, each table's read by its entry (`tableRead_completes`), and the failure
by the table's size (`tableRead_rejected`). -/
theorem tableReadReturnsTheEntry : Obligations.TableReadReturnsTheEntry := by
  intro s x a
  refine ⟨decode_encode_tableRead x a, fun w => decode_tableRead_reserved, fun hb => ⟨?ln, ?un, ?off, ?sub, ?beyond⟩⟩
  case ln | un | off | sub =>
    rintro h rfl
    exact tableRead_completes hb (by simp [tableEntry, h])
  case beyond => rintro (⟨rfl | rfl, h⟩ | ⟨rfl, h⟩) <;> exact tableRead_rejected hb h

end Machine
end Sys2Proof
end

section
/-! PROOFS of the statements about key material (spec/41_keygen.md): the sizes of RANDPERM (R112), and the enumerator:
ENUM_RESET (R117), ENUM_NEXT (R118), the order of the tuples (R116) and their number (R119). -/

namespace Sys2Proof

/-- A row of R74 that fixes every bit is met by one word only, so any other word with its OP is illegal (R75). -/
theorem decode_error_of_full_row {w : Word} (k : Fin 13) (hop : opField w = BitVec.ofNat 4 k)
    (hmask : rows[k.val].mask = BitVec.allOnes 32) (hw : w ≠ rows[k.val].pattern) : ∃ e, decode w = .error e := by
  have hk : (opField w).toNat = k := by rw [hop, BitVec.toNat_ofNat, Nat.mod_eq_of_lt (by omega)]
  have hrow : rows[(opField w).toNat]? = some rows[k.val] := by rw [hk, List.getElem?_eq_getElem]
  rw [decode_eq_of_row hrow, hmask, BitVec.and_allOnes, if_neg hw]
  exact ⟨_, rfl⟩

namespace Machine

/-! What an accept with BUSY = 0 answers, by its first failing check. -/

theorem exec_rejected {i : Instr} {s : State} {code : ErrCode} (hb : s.busy = false)
    (hc : firstFailure (checksOf i (latchedFor i s)) = some code) : exec i s = .next (rejected i code s) := by
  rw [exec_eq, accept_fails hb hc]
  rfl

theorem exec_started {i : Instr} {s : State} (hb : s.busy = false)
    (hc : firstFailure (checksOf i (latchedFor i s)) = none) : exec i s = .next (initOf i (latchedFor i s)) := by
  rw [exec_eq, accept_passes hb hc]

/-! RANDPERM's sizes (R112). -/

/-- Settles O28: RANDPERM's one check is on its size. -/
theorem randpermRefusesEverySizeButEightAndSixteen : Obligations.RandpermRefusesEverySizeButEightAndSixteen := by
  refine fun s n hb => ⟨fun hn => exec_rejected hb ?_, fun hn => ⟨_, exec_started hb ?_, rfl, rfl⟩⟩
  · simpa [checksOf, checkPermSize, firstFailure] using hn
  · simpa [firstFailure_none, checksOf, checkPermSize, ← or_iff_not_imp_left] using hn

/-! The enumerator's commands (R117, R118). -/

theorem lastKey_eq : lastKey = #v[15, 15, 15, 15, 15, 15, 15, 15] := rfl

theorem packNibbles_firstKey : packNibbles firstKey = 0x11111111 := by decide

/-- STATUS shows ENUM_EXH at bit 9 (R31). -/
theorem statusWord_enumExh (s : State) : (statusWord s).getLsbD 9 = !s.enumValid := by
  simp [statusWord, flagAt]

/-- ENUM_RESET is accepted and restarts the enumerator in one core step. -/
theorem enumReset_completes {s : State} (hb : s.busy = false) :
    ∃ t, exec .enumReset s = .next t ∧ t.busy = true ∧ t.phase = .wb ∧
      coreStep t = .next (restartEnum (finished .enumReset s)) :=
  ⟨_, exec_started hb rfl, rfl, rfl, coreStep_wb rfl rfl⟩

/-- Settles O29: the words by the one row of their OP, the command by `enumReset_completes`. -/
theorem enumResetRestartsTheEnumeration : Obligations.EnumResetRestartsTheEnumeration := by
  refine ⟨rfl, fun w hop hw => decode_error_of_full_row 10 hop rfl hw, fun s hb => ?_⟩
  obtain ⟨t, he, hbusy, hphase, hwb⟩ := enumReset_completes hb
  refine ⟨t, _, he, hbusy, hphase, hwb, rfl, ?_, statusWord_enumExh _⟩
  exact (readWindow_offset _ .enum).trans packNibbles_firstKey

/-- What ENUM_NEXT writes: the tuple into KEYREG, and the successor or the end of the enumeration. -/
theorem yieldKey_eq (s : State) : yieldKey s =
    { s with
      keyReg := packNibbles s.enumCur
      enumCur := if s.enumCur = lastKey then s.enumCur else succKey s.enumCur
      enumValid := if s.enumCur = lastKey then false else s.enumValid } := by
  unfold yieldKey
  split <;> rfl

/-- The key after ENUM_NEXT is the tuple that the enumerator held. -/
theorem yieldKey_key (s : State) : (yieldKey s).key = s.enumCur := by
  rw [yieldKey_eq, State.key, keyOf_packNibbles]

/-- ENUM_NEXT with a tuple left is accepted and yields it in one core step. -/
theorem enumNext_completes {s : State} (hb : s.busy = false) (hv : s.enumValid = true) :
    ∃ t, exec .enumNext s = .next t ∧ t.busy = true ∧ t.phase = .wb ∧
      coreStep t = .next (yieldKey (finished .enumNext s)) := by
  have hchecks : firstFailure (checksOf .enumNext (latchedFor .enumNext s)) = none :=
    firstFailure_none.mpr (by simp [checksOf, checkEnum, latchedFor, hv])
  refine ⟨_, exec_started hb hchecks, rfl, rfl, ?_⟩
  rw [coreStep_wb rfl rfl, yieldKey_eq]
  exact congrArg (fun t => Host.Outcome.next (complete t)) (yieldKey_eq _)

/-- ENUM_NEXT with nothing left is rejected. -/
theorem enumNext_rejected {s : State} (hb : s.busy = false) (hv : s.enumValid = false) :
    exec .enumNext s = .next (rejected .enumNext .keyEnumExhausted s) :=
  exec_rejected hb (by simp [checksOf, checkEnum, firstFailure, latchedFor, hv])

/-- Settles O30: the words by the one row of their OP, the yield by `enumNext_completes`, the failure by
`enumNext_rejected`. -/
theorem enumNextYieldsTheNextKey : Obligations.EnumNextYieldsTheNextKey := by
  refine ⟨rfl, fun w hop hw => decode_error_of_full_row 11 hop rfl hw,
    fun s hb => ⟨fun hv => ?_, enumNext_rejected hb⟩⟩
  obtain ⟨t, he, hbusy, hphase, hwb⟩ := enumNext_completes hb hv
  have hkey : (yieldKey (finished .enumNext s)).key = s.enumCur := yieldKey_key _
  refine ⟨t, _, he, hbusy, hphase, hwb, hkey, ?_, fun h => by rwa [hkey]⟩
  have hvalid : (finished .enumNext s).enumValid = true := hv
  rw [yieldKey_eq, hvalid, ← lastKey_eq]
  rfl

/-! The successor of a tuple (R116). -/

/-- From position `i` down, the 15s to the right of position `j` become 1, position `j` counts up, and every other
position stays. -/
theorem succFrom_getElem {j i : Nat} (hji : j ≤ i) (hi : i < 8) {k : Key} (hj : k[j] ≠ 15)
    (hk : ∀ m, (h : m ≤ i) → j < m → k[m] = 15) (m : Nat) (hm : m < 8) :
    (succFrom i hi k)[m] = if m = j then k[m] + 1 else if j < m ∧ m ≤ i then 1 else k[m] := by
  induction i generalizing k with
  | zero =>
    obtain rfl : j = 0 := by omega
    rw [succFrom, Vector.getElem_set]
    grind
  | succ i ih =>
    rw [succFrom]
    split_ifs with h15
    case pos =>
      have hj_le : j ≤ i := by grind
      rw [ih hj_le (by omega) (by grind) (by grind)]
      grind
    case neg =>
      obtain rfl : j = i + 1 := by grind
      grind

/-- A tuple other than (15,...,15) has a last nibble that is not 15. -/
theorem exists_last_ne_fifteen {k : Key} (h : k ≠ lastKey) :
    ∃ j : Fin 8, k[j] ≠ 15 ∧ ∀ i : Fin 8, j < i → k[i] = 15 := by
  have hex : ∃ j : Fin 8, k[j] ≠ 15 := by
    by_contra hall
    push Not at hall
    exact h (Vector.ext fun i hi => by simpa [lastKey] using hall ⟨i, hi⟩)
  obtain ⟨j, hj, hlast⟩ := (wellFounded_gt (α := Fin 8)).has_min {j | k[j] ≠ 15} hex
  exact ⟨j, hj, fun i hji => by_contra fun hi => hlast i hi hji⟩

/-- The successor position by position, `j` being the last position that does not hold 15. -/
theorem succKey_getElem {k : Key} {j : Fin 8} (hj : k[j] ≠ 15) (hk : ∀ i : Fin 8, j < i → k[i] = 15) (i : Fin 8) :
    (succKey k)[i] = if i = j then k[i] + 1 else if j < i then 1 else k[i] := by
  have := succFrom_getElem (i := 7) (by omega) (by omega) hj (fun m h hjm => hk ⟨m, by omega⟩ hjm) i i.isLt
  simpa [succKey, Fin.ext_iff, show i.val ≤ 7 by omega] using this

theorem succKey_before {k : Key} {i j : Fin 8} (hj : k[j] ≠ 15) (hk : ∀ i : Fin 8, j < i → k[i] = 15) (h : i < j) :
    (succKey k)[i] = k[i] := by rw [succKey_getElem hj hk, if_neg h.ne, if_neg h.not_gt]

theorem succKey_at {k : Key} {j : Fin 8} (hj : k[j] ≠ 15) (hk : ∀ i : Fin 8, j < i → k[i] = 15) :
    (succKey k)[j] = k[j] + 1 := by rw [succKey_getElem hj hk, if_pos rfl]

theorem succKey_after {k : Key} {i j : Fin 8} (hj : k[j] ≠ 15) (hk : ∀ i : Fin 8, j < i → k[i] = 15) (h : j < i) :
    (succKey k)[i] = 1 := by rw [succKey_getElem hj hk, if_neg h.ne', if_pos h]

/-- The successor of a tuple of nibbles 1 to 15 is one. -/
theorem succKey_ne_zero {k : Key} (h : ∀ i : Fin 8, k[i] ≠ 0) (hne : k ≠ lastKey) (i : Fin 8) :
    (succKey k)[i] ≠ 0 := by
  obtain ⟨j, hj, hlast⟩ := exists_last_ne_fifteen hne
  obtain hij | rfl | hji := lt_trichotomy i j
  · rw [succKey_before hj hlast hij]
    exact h i
  · rw [succKey_at hj hlast]
    bv_omega
  · rw [succKey_after hj hlast hji]
    decide

/-! The rank of a tuple, digit by digit: the first `n` positions alone have a rank, which each further position extends. -/

/-- The rank of a tuple's first `n` positions. -/
def prefixRank (k : Key) : (n : Nat) → n ≤ 8 → Nat
  | 0, _ => 0
  | n + 1, h => 15 * prefixRank k n (by omega) + (k[n].toNat - 1)

theorem keyRank_eq_prefixRank (k : Key) : keyRank k = prefixRank k 8 le_rfl := by
  simp [keyRank, List.finRange_succ, prefixRank]

/-- Tuples of nibbles 1 to 15 whose first `n` positions have the same rank agree there. -/
theorem eq_of_prefixRank_eq {k k' : Key} (h : ∀ i : Fin 8, k[i] ≠ 0) (h' : ∀ i : Fin 8, k'[i] ≠ 0) {n : Nat}
    (hn : n ≤ 8) (he : prefixRank k n hn = prefixRank k' n hn) (m : Nat) (hm : m < n) : k[m] = k'[m] := by
  induction n with
  | zero => omega
  | succ n ih =>
    have hpos : k[n] ≠ 0 := h ⟨n, hn⟩
    have hpos' : k'[n] ≠ 0 := h' ⟨n, hn⟩
    simp only [prefixRank] at he
    obtain hmn | rfl : m < n ∨ m = n := by omega
    · exact ih (by omega) (by bv_omega) hmn
    · bv_omega

/-- A tuple of nibbles 1 to 15 is known by its rank. -/
theorem keyRank_injective {k k' : Key} (h : ∀ i : Fin 8, k[i] ≠ 0) (h' : ∀ i : Fin 8, k'[i] ≠ 0)
    (he : keyRank k = keyRank k') : k = k' := by
  rw [keyRank_eq_prefixRank, keyRank_eq_prefixRank] at he
  exact Vector.ext (eq_of_prefixRank_eq h h' le_rfl he)

/-- Tuples that agree in the first `n` positions have the same rank there. -/
theorem prefixRank_congr {k k' : Key} {n : Nat} (hn : n ≤ 8) (h : ∀ m, (hm : m < n) → k[m] = k'[m]) :
    prefixRank k n hn = prefixRank k' n hn := by
  induction n with
  | zero => rfl
  | succ n ih => rw [prefixRank, prefixRank, ih (by omega) fun m hm => h m (by omega), h n (by omega)]

/-- Past position `j`, the last that does not hold 15, the successor's rank is one more: position `j` counts up, and each
position after it carries. -/
theorem prefixRank_succKey {k : Key} (h : ∀ i : Fin 8, k[i] ≠ 0) {j : Fin 8} (hj : k[j] ≠ 15)
    (hlast : ∀ i : Fin 8, j < i → k[i] = 15) {n : Nat} (hjn : j < n) (hn : n ≤ 8) :
    prefixRank (succKey k) n hn = prefixRank k n hn + 1 := by
  induction n, hjn using Nat.le_induction with
  | base =>
    have hprefix : prefixRank (succKey k) j (by omega) = prefixRank k j (by omega) :=
      prefixRank_congr _ fun m hm => succKey_before (i := ⟨m, by omega⟩) hj hlast hm
    have hdigit : (succKey k)[j.val] = k[j.val] + 1 := succKey_at hj hlast
    have hlt : k[j.val] ≠ 15 := hj
    have hpos : k[j.val] ≠ 0 := h j
    rw [prefixRank, prefixRank, hprefix, hdigit]
    bv_omega
  | succ n hjn ih =>
    have hdigit : (succKey k)[n] = 1 := succKey_after (i := ⟨n, hn⟩) hj hlast hjn
    have h15 : k[n] = 15 := hlast ⟨n, hn⟩ hjn
    rw [prefixRank, prefixRank, ih, hdigit, h15]
    calc 15 * (prefixRank k n (by omega) + 1) + 0 = 15 * prefixRank k n (by omega) + 14 + 1 := by ring

theorem keyRank_succKey {k : Key} (h : ∀ i : Fin 8, k[i] ≠ 0) (hne : k ≠ lastKey) :
    keyRank (succKey k) = keyRank k + 1 := by
  obtain ⟨j, hj, hlast⟩ := exists_last_ne_fifteen hne
  rw [keyRank_eq_prefixRank, keyRank_eq_prefixRank, prefixRank_succKey h hj hlast j.isLt]

theorem keyRank_firstKey : keyRank firstKey = 0 := by decide

theorem keyRank_lastKey : keyRank lastKey = 15 ^ 8 - 1 := by decide

/-- Settles O31: the successor position by position (`succFrom_getElem`), and its rank (`keyRank_succKey`). -/
theorem theSuccessorIsTheNextTupleInLexicographicOrder :
    Obligations.TheSuccessorIsTheNextTupleInLexicographicOrder := by
  refine ⟨fun k h hne => ⟨?_, succKey_ne_zero h hne, keyRank_succKey h hne⟩, keyRank_firstKey, keyRank_lastKey,
    fun _ _ => keyRank_injective⟩
  obtain ⟨j, hj, hlast⟩ := exists_last_ne_fifteen hne
  exact ⟨j, hj, succKey_at hj hlast,
    fun i => ⟨succKey_before hj hlast, fun hji => ⟨hlast i hji, succKey_after hj hlast hji⟩⟩⟩

/-! The whole enumeration (R119). -/

/-- An idle machine whose enumerator holds the tuple of rank `n`, still to be yielded. -/
structure EnumeratorAt (n : Nat) (s : State) : Prop where
  idle : s.busy = false
  valid : s.enumValid = true
  nonzero : ∀ i : Fin 8, s.enumCur[i] ≠ 0
  rank : keyRank s.enumCur = n

/-- One more ENUM_NEXT, after those that completed. -/
theorem enumNexts_succ {n : Nat} {s u : State} (hn : enumNexts n s = some u) (hb : u.busy = false)
    (hv : u.enumValid = true) : enumNexts (n + 1) s = some (yieldKey (finished .enumNext u)) := by
  obtain ⟨t, he, -, -, hwb⟩ := enumNext_completes hb hv
  have hdone : (yieldKey (finished .enumNext u)).done = true := by rw [yieldKey_eq]; rfl
  simp [enumNexts, hn, he, hwb, hdone]

/-- An ENUM_NEXT before the last tuple takes the enumerator to the next rank. -/
theorem EnumeratorAt.next {n : Nat} {s : State} (h : EnumeratorAt n s) (hn : n + 1 < 15 ^ 8) :
    EnumeratorAt (n + 1) (yieldKey (finished .enumNext s)) := by
  have hne : s.enumCur ≠ lastKey := fun he => by
    have := h.rank
    rw [he, keyRank_lastKey] at this
    omega
  have hcur : (finished .enumNext s).enumCur ≠ lastKey := hne
  rw [yieldKey_eq, if_neg hcur, if_neg hcur]
  exact ⟨rfl, h.valid, succKey_ne_zero h.nonzero hne, by rw [← h.rank]; exact keyRank_succKey h.nonzero hne⟩

/-- The ENUM_NEXT at the last tuple exhausts the enumerator. -/
theorem EnumeratorAt.exhausted {s : State} (h : EnumeratorAt (15 ^ 8 - 1) s) :
    (yieldKey (finished .enumNext s)).busy = false ∧ (yieldKey (finished .enumNext s)).enumValid = false := by
  have hlast : (finished .enumNext s).enumCur = lastKey :=
    keyRank_injective h.nonzero (by decide) (h.rank.trans keyRank_lastKey.symm)
  rw [yieldKey_eq, if_pos hlast, if_pos hlast]
  exact ⟨rfl, rfl⟩

/-- From the first tuple, `n` ENUM_NEXT commands succeed for every `n` below 15^8, and the tuple of rank `n` is next. -/
theorem enumNexts_enumeratorAt {s : State} (h : EnumeratorAt 0 s) {n : Nat} (hn : n < 15 ^ 8) :
    ∃ u, enumNexts n s = some u ∧ EnumeratorAt n u := by
  induction n with
  | zero => exact ⟨s, rfl, h⟩
  | succ n ih =>
    obtain ⟨u, hu, hat⟩ := ih (by omega)
    exact ⟨_, enumNexts_succ hu hat.idle hat.valid, hat.next hn⟩

/-- Settles O32: by induction on the number of commands the enumerator stands at the tuple of that rank
(`enumNexts_enumeratorAt`), which the next command yields; the tuple of rank 15^8 - 1 is the last. -/
theorem theEnumerationYieldsExactlyFifteenToTheEighthKeys :
    Obligations.TheEnumerationYieldsExactlyFifteenToTheEighthKeys := by
  intro s hb hv hcur
  have hstart : EnumeratorAt 0 s := ⟨hb, hv, by rw [hcur]; decide, by rw [hcur]; exact keyRank_firstKey⟩
  refine ⟨fun n hn => ?_, ?_⟩
  · obtain ⟨u, hu, hat⟩ := enumNexts_enumeratorAt hstart hn
    have hkey : (yieldKey (finished .enumNext u)).key = u.enumCur := yieldKey_key _
    refine ⟨_, enumNexts_succ hu hat.idle hat.valid, by rw [yieldKey_eq]; rfl, ?_, ?_⟩
    · rw [hkey, hat.rank]
    · rw [hkey]; exact hat.nonzero
  · obtain ⟨u, hu, hat⟩ := enumNexts_enumeratorAt (n := 15 ^ 8 - 1) hstart (by omega)
    obtain ⟨hidle, hdone⟩ := hat.exhausted
    exact ⟨_, enumNexts_succ hu hat.idle hat.valid, enumNext_rejected hidle hdone⟩

end Machine
end Sys2Proof
end

section
/-! PROOFS of the statements about the primitives (spec/42_primitives.md): the nibble substitution and SBOX (R130 to
R132), the byte permutation and PBOX (R133 to R135), and the bit permutation and PBOXBIT (R136 to R138). -/

namespace Sys2Proof

/-! The words of a command whose one operand is ARG. -/

theorem argField_or (w v : Word) : argField (w ||| v) = argField w ||| argField v := BitVec.extractLsb'_or

theorem tselField_or (w v : Word) : tselField (w ||| v) = tselField w ||| tselField v := BitVec.extractLsb'_or

theorem argField_shifted (a : Byte) : argField (a.zeroExtend 32 <<< 8) = a := by
  ext j hj
  simp [argField, hj, show 8 + j < 32 by omega]

theorem tselField_shifted (a : Byte) : tselField (a.zeroExtend 32 <<< 8) = 0#2 := by
  ext j hj
  have hout : a.getLsbD (16 + j - 8) = false := BitVec.getLsbD_of_ge a _ (by omega)
  simp [tselField, hout]

/-- A row that leaves only ARG free has a pattern with 0 in ARG and TSEL (R74). -/
theorem rows_pattern_of_arg_mask (k : Fin 13) : rows[k.val].mask = 0xFFFF00FF →
    rows[k.val].pattern &&& 0xFFFF00FF = rows[k.val].pattern ∧ argField rows[k.val].pattern = 0#8 ∧
      tselField rows[k.val].pattern = 0#2 := by
  revert k
  decide

/-- The pattern of a row that leaves only ARG free, with an operand put into ARG, decodes to that row's command. -/
theorem decode_pattern_arg (k : Fin 13) (hmask : rows[k.val].mask = 0xFFFF00FF) (a : Byte) :
    decode (rows[k.val].pattern ||| (a.zeroExtend 32 <<< 8)) = .ok (rows[k.val].build a .ln) := by
  obtain ⟨hpattern, harg, htsel⟩ := rows_pattern_of_arg_mask k hmask
  have ha : (a.zeroExtend 32 <<< 8) &&& (0xFFFF00FF : Word) = 0 := Machine.field_and_eq_zero a 8 (by decide)
  have hmatch : (rows[k.val].pattern ||| (a.zeroExtend 32 <<< 8)) &&& rows[k.val].mask = rows[k.val].pattern := by
    rw [hmask, BitVec.and_or_distrib_right, hpattern, ha]
    exact BitVec.or_zero
  have hrow : rows[(opField (rows[k.val].pattern ||| (a.zeroExtend 32 <<< 8))).toNat]? = some rows[k.val] := by
    rw [opField_of_match k.isLt hmatch, List.getElem?_eq_getElem]
  rw [decode_eq_of_row hrow, if_pos hmatch, argField_or, tselField_or, harg, htsel, argField_shifted, tselField_shifted,
    BitVec.zero_or, BitVec.zero_or]
  rfl

namespace Machine

/-! The substitution of a byte (R131, R132). -/

theorem joinNibbles_toNat (high low : Nibble) : (joinNibbles high low).toNat = low.toNat + 16 * high.toNat := by
  have hlow : low.toNat < 2 ^ 4 := low.isLt
  have hhigh : high.toNat < 2 ^ 4 := high.isLt
  calc (joinNibbles high low).toNat = high.toNat <<< 4 ||| low.toNat := by
        simp [joinNibbles, Nat.shiftLeft_eq, Nat.or_comm, Nat.mod_eq_of_lt (show low.toNat < 256 by omega),
          Nat.mod_eq_of_lt (show high.toNat * 16 < 256 by omega)]
    _ = low.toNat + 16 * high.toNat := by
        rw [← Nat.shiftLeft_add_eq_or_of_lt hlow, Nat.shiftLeft_eq]
        omega

/-- The nibbles of a byte are its value's digits in base 16 (R55). -/
theorem nibbleIndex_of_digits {b : Byte} {lo hi : Fin 16} (h : b.toNat = lo.val + 16 * hi.val) :
    nibbleIndex (lowNibble b) = lo ∧ nibbleIndex (highNibble b) = hi := by
  simp only [Fin.ext_iff, nibbleIndex, lowNibble, highNibble, BitVec.extractLsb'_toNat, Nat.shiftRight_eq_div_pow]
  omega

/-- A nibble is the value of its index. -/
@[simp] theorem ofNat_nibbleIndex (n : Nibble) : BitVec.ofNat 4 (nibbleIndex n).val = n := by
  simp [nibbleIndex]

/-- An sbox without repeated entries is injective. -/
theorem Distinct16.injective {sb : Sbox} (h : Distinct16 sb) : Function.Injective fun j : Fin 16 => sb[j] :=
  fun i j hij => by_contra fun hne => h i j hne hij

/-- Both nibbles of the byte can be told from the nibbles of its substitution. -/
theorem subByte_injective {sb : Sbox} (h : Distinct16 sb) : Function.Injective fun b : Byte => subByte b sb := by
  intro b c hbc
  have hhigh : highNibble b = highNibble c :=
    nibbleIndex_inj.mp (Distinct16.injective h (by simpa [subByte] using congrArg highNibble hbc))
  have hlow : lowNibble b = lowNibble c :=
    nibbleIndex_inj.mp (Distinct16.injective h (by simpa [subByte] using congrArg lowNibble hbc))
  rw [← joinNibbles_high_low b, ← joinNibbles_high_low c, hhigh, hlow]

/-- An sbox that undoes another entry by entry undoes its substitution. -/
theorem subByte_subByte {sb inv : Sbox} (h : ∀ j : Fin 16, inv[nibbleIndex sb[j]] = BitVec.ofNat 4 j.val) (b : Byte) :
    subByte (subByte b sb) inv = b := by
  calc subByte (subByte b sb) inv
      = joinNibbles inv[nibbleIndex sb[nibbleIndex (highNibble b)]] inv[nibbleIndex sb[nibbleIndex (lowNibble b)]] := by
        simp only [subByte, highNibble_joinNibbles, lowNibble_joinNibbles]
    _ = b := by rw [h, h, ofNat_nibbleIndex, ofNat_nibbleIndex, joinNibbles_high_low]

/-- Settles O43: the substitution keeps both nibbles apart, and bytes are finitely many. -/
theorem subByteThroughABijectiveSboxIsABijection : Obligations.SubByteThroughABijectiveSboxIsABijection :=
  fun _ h => ⟨Finite.injective_iff_bijective.mp (subByte_injective h), fun _ => subByte_subByte⟩

/-! Where a pbox moves a position. -/

/-- The position to which a pbox moves position `i`. -/
def target (p : Pbox) (i : Fin 8) : Fin 8 := octalIndex p[i]

theorem target_injective {p : Pbox} (h : Distinct8 p) : Function.Injective (target p) :=
  fun i j hij => by_contra fun hne => h i j hne (octalIndex_inj.mp hij)

theorem target_bijective {p : Pbox} (h : Distinct8 p) : Function.Bijective (target p) :=
  Finite.injective_iff_bijective.mp (target_injective h)

/-! The permutation of a block (R134, R135). -/

/-- Writing byte `j` at position `P[j]`, for `j` in a list, puts byte `i` there for each `i` of the list. -/
theorem foldl_set_target {p : Pbox} (h : Distinct8 p) (b : Block) (i : Fin 8) (l : List (Fin 8)) (o : Block) :
    (l.foldl (fun o j => o.set (target p j) b[j]) o)[target p i] = if i ∈ l then b[i] else o[target p i] := by
  induction l generalizing o with
  | nil => rfl
  | cons j l ih =>
    have hset : (o.set (target p j) b[j])[target p i] = if j = i then b[j] else o[target p i] := by
      simp [Vector.getElem_set, Fin.val_inj, (target_injective h).eq_iff]
    rw [List.foldl_cons, ih, hset]
    grind

/-- PermBlock puts byte `i` at position `P[i]`. -/
theorem permBlock_target {p : Pbox} (h : Distinct8 p) (b : Block) (i : Fin 8) :
    (permBlock b p)[target p i] = b[i] :=
  (foldl_set_target h b i _ _).trans (if_pos (List.mem_finRange i))

/-- Two blocks that agree at every target of a bijective pbox are one. -/
theorem block_ext_target {p : Pbox} (h : Distinct8 p) {b d : Block} (hbd : ∀ i, b[target p i] = d[target p i]) :
    b = d := by
  refine Vector.ext fun k hk => ?_
  obtain ⟨i, hi⟩ := (target_bijective h).surjective ⟨k, hk⟩
  simpa [hi] using hbd i

theorem permBlock_bijective {p : Pbox} (h : Distinct8 p) : Function.Bijective fun b : Block => permBlock b p := by
  constructor
  · intro b d hbd
    refine Vector.ext fun k hk => ?_
    calc b[k] = (permBlock b p)[target p ⟨k, hk⟩] := (permBlock_target h b ⟨k, hk⟩).symm
      _ = (permBlock d p)[target p ⟨k, hk⟩] := congrArg (fun o : Block => o[target p ⟨k, hk⟩]) hbd
      _ = d[k] := permBlock_target h d ⟨k, hk⟩
  · intro d
    refine ⟨Vector.ofFn fun i => d[target p i], block_ext_target h fun i => ?_⟩
    simp [permBlock_target h]

/-- `n` applications of PermBlock put byte `i` at position `P^n(i)`. -/
theorem permBlockIter_target {p : Pbox} (h : Distinct8 p) (b : Block) (n : Nat) (i : Fin 8) :
    (permBlockIter b p n)[(target p)^[n] i] = b[i] := by
  induction n with
  | zero => rfl
  | succ n ih => simp only [Function.iterate_succ_apply', permBlockIter, permBlock_target h, ih]

/-- Settles O44: the position law `permBlock_target` gives the bijection and, iterated, the identity at the order
of P. -/
theorem permBlockThroughABijectivePboxIsABijection : Obligations.PermBlockThroughABijectivePboxIsABijection := by
  refine fun p h => ⟨permBlock_target h, permBlock_bijective h, fun n hn b => Vector.ext fun k hk => ?_⟩
  have hfixed : (target p)^[n] ⟨k, hk⟩ = ⟨k, hk⟩ := hn _
  simpa [hfixed] using permBlockIter_target h b n ⟨k, hk⟩

/-! The permutation of a byte's bits (R137, R138). -/

/-- The byte of weight `2^P[j]` has bit `P[i]` set for `i = j` only. -/
theorem getLsbD_shiftLeft_target {p : Pbox} (h : Distinct8 p) (i j : Fin 8) :
    ((1 : Byte) <<< p[j].toNat).getLsbD (target p i).val = decide (j = i) := by
  calc ((1 : Byte) <<< p[j].toNat).getLsbD (target p i).val
      = (decide ((target p j).val < 8) && decide ((target p j).val = (target p i).val)) := BitVec.getLsbD_twoPow _ _
    _ = decide (j = i) := by simp [Fin.val_inj, (target_injective h).eq_iff]

/-- Setting bit `P[j]` for the set bits `j` of a list sets bit `P[i]` for each set bit `i` of the list. -/
theorem foldl_or_target {p : Pbox} (h : Distinct8 p) (b : Byte) (i : Fin 8) (l : List (Fin 8)) (r : Byte) :
    (l.foldl (fun r j => if b[j] then r ||| ((1 : Byte) <<< p[j].toNat) else r) r).getLsbD (target p i).val =
      ((decide (i ∈ l) && b.getLsbD i.val) || r.getLsbD (target p i).val) := by
  induction l generalizing r with
  | nil => simp
  | cons j l ih =>
    have hset : (if b[j] then r ||| ((1 : Byte) <<< p[j].toNat) else r).getLsbD (target p i).val =
        ((decide (j = i) && b.getLsbD i.val) || r.getLsbD (target p i).val) := by
      by_cases hj : b[j] = true
      · rw [if_pos hj, BitVec.getLsbD_or, getLsbD_shiftLeft_target h]
        grind
      · rw [if_neg hj]
        grind
    rw [List.foldl_cons, ih, hset]
    grind

/-- PermBits moves bit `i` to bit `P[i]`. -/
theorem permBits_target {p : Pbox} (h : Distinct8 p) (b : Byte) (i : Fin 8) :
    (permBits b p).getLsbD (target p i).val = b.getLsbD i.val := by
  rw [permBits, foldl_or_target h]
  simp

theorem permBits_injective {p : Pbox} (h : Distinct8 p) : Function.Injective fun b : Byte => permBits b p := by
  intro b c hbc
  refine BitVec.eq_of_getLsbD_eq fun k hk => ?_
  calc b.getLsbD k = (permBits b p).getLsbD (target p ⟨k, hk⟩).val := (permBits_target h b ⟨k, hk⟩).symm
    _ = (permBits c p).getLsbD (target p ⟨k, hk⟩).val := congrArg (BitVec.getLsbD · _) hbc
    _ = c.getLsbD k := permBits_target h c ⟨k, hk⟩

/-- As many of the positions `P[0..7]` of a bijective pbox have a property as of the positions 0 to 7. -/
theorem length_filter_target {p : Pbox} (h : Distinct8 p) (q : Fin 8 → Bool) :
    ((List.finRange 8).filter q).length = ((List.finRange 8).filter fun i => q (target p i)).length := by
  have hperm : ((List.finRange 8).map (target p)).Perm (List.finRange 8) :=
    Equiv.Perm.map_finRange_perm (Equiv.ofBijective _ (target_bijective h))
  calc ((List.finRange 8).filter q).length = (((List.finRange 8).map (target p)).filter q).length :=
        (hperm.filter q).length_eq.symm
    _ = ((List.finRange 8).filter fun i => q (target p i)).length := by
        rw [List.filter_map, List.length_map]
        rfl

/-- Settles O45: each bit has a position of its own after the move (`permBits_target`), so that no byte is reached
twice and the set bits are as many as before. -/
theorem permBitsThroughABijectivePboxIsABijection : Obligations.PermBitsThroughABijectivePboxIsABijection := by
  refine fun p h => ⟨Finite.injective_iff_bijective.mp (permBits_injective h), fun b => ?_⟩
  rw [length_filter_target h]
  simp only [permBits_target h]

/-! The checks of the boxes at accept (R206, R207). -/

theorem firstFailure_checkSbox (s : State) :
    firstFailure [checkSbox s] = if Distinct16 s.subst then none else some .invalidSubstitution := by
  simp only [firstFailure, checkSbox, bijective16, Bool.not_eq_true', decide_eq_false_iff_not, ite_not]

theorem firstFailure_checkPbox (s : State) :
    firstFailure [checkPbox s] = if Distinct8 s.perm then none else some .invalidPermutation := by
  simp only [firstFailure, checkPbox, bijective8, Bool.not_eq_true', decide_eq_false_iff_not, ite_not]

/-! SBOX (R130). -/

theorem sbox_completes {s : State} (data : Byte) (hb : s.busy = false) (h : Distinct16 s.subst) :
    ∃ t, exec (.sbox data) s = .next t ∧ t.busy = true ∧
      coreStep t = .next { finished (.sbox data) s with
        t := subByte data s.subst, result := subByte data s.subst } :=
  ⟨_, exec_started hb ((firstFailure_checkSbox _).trans (if_pos h)), rfl, coreStep_wb rfl rfl⟩

/-- Settles O20: the word by SBOX's row, the run by `sbox_completes`, and the result nibble by nibble. -/
theorem sboxSubstitutesBothNibbles : Obligations.SboxSubstitutesBothNibbles := by
  refine fun s data => ⟨decode_pattern_arg 4 rfl data, sbox_completes data, fun lo hi hdata => ?_, fun hb h => ?_⟩
  · obtain ⟨hlo, hhi⟩ := nibbleIndex_of_digits hdata
    simp only [subByte, joinNibbles_toNat, hlo, hhi]
  · exact exec_rejected hb ((firstFailure_checkSbox _).trans (if_neg h))

/-! PBOXBIT (R136). -/

theorem pboxbit_completes {s : State} (data : Byte) (hb : s.busy = false) (h : Distinct8 s.perm) :
    ∃ t, exec (.pboxbit data) s = .next t ∧ t.busy = true ∧
      coreStep t = .next { finished (.pboxbit data) s with
        t := permBits data s.perm, result := permBits data s.perm } :=
  ⟨_, exec_started hb ((firstFailure_checkPbox _).trans (if_pos h)), rfl, coreStep_wb rfl rfl⟩

/-- Settles O21: the word by PBOXBIT's row, the run by `pboxbit_completes`, and the result bit by bit. -/
theorem pboxbitPermutesTheBitsOfAByte : Obligations.PboxbitPermutesTheBitsOfAByte := by
  refine fun s data => ⟨decode_pattern_arg 6 rfl data, fun hb h => ?_, fun hb h => ?_⟩
  · obtain ⟨t, he, hbusy, hwb⟩ := pboxbit_completes data hb h
    exact ⟨t, _, he, hbusy, hwb, rfl, permBits_target h data⟩
  · exact exec_rejected hb ((firstFailure_checkPbox _).trans (if_neg h))

/-! PBOX (R133, R178). -/

/-- PBOX with count `n` after `k` of its PERM steps. -/
def permuting (n : Byte) (s : State) (k : Nat) : State :=
  start (if k = n.toNat then .wb else .perm)
    { latchedFor (.pbox n) s with work := permBlockIter s.block s.perm k, piter := BitVec.ofNat 8 (n.toNat - k) }

/-- PBOX is accepted for every count, 0 too, and is then before its first PERM step. -/
theorem pbox_started {s : State} (n : Byte) (hb : s.busy = false) (h : Distinct8 s.perm) :
    exec (.pbox n) s = .next (permuting n s 0) := by
  have hphase : n = 0 ↔ 0 = n.toNat := by rw [← BitVec.toNat_inj, eq_comm]; rfl
  rw [exec_started (i := .pbox n) hb ((firstFailure_checkPbox _).trans (if_pos h))]
  simp only [initOf, permuting, hphase, Nat.sub_zero, BitVec.ofNat_toNat, BitVec.setWidth_eq]
  rfl

/-- A PERM step of PBOX applies PBOX to WORK once more. -/
theorem coreStep_permuting {n : Byte} {k : Nat} (s : State) (hk : k < n.toNat) :
    coreStep (permuting n s k) = .next (permuting n s (k + 1)) := by
  have hperm : (permuting n s k).phase = .perm := if_neg hk.ne
  have hleft : BitVec.ofNat 8 (n.toNat - k) - 1 = BitVec.ofNat 8 (n.toNat - (k + 1)) := by bv_omega
  have hlast : BitVec.ofNat 8 (n.toNat - (k + 1)) = 0 ↔ k + 1 = n.toNat := by bv_omega
  rw [coreStep_perm rfl hperm, permStep, if_pos (show (permuting n s k).opl = .pbox from rfl),
    show (permuting n s k).piter = BitVec.ofNat 8 (n.toNat - k) from rfl]
  simp only [hleft, hlast]
  rfl

/-- As long as iterations are left, `k` core steps are `k` PERM steps. -/
theorem coreRun_permuting {n : Byte} (s : State) {k : Nat} (hk : k ≤ n.toNat) :
    coreRun k (permuting n s 0) = .next (permuting n s k) := by
  induction k with
  | zero => rfl
  | succ k ih => rw [coreRun_add k 1 (ih (by omega)), coreRun_succ 0 (coreStep_permuting s hk), coreRun_zero]

/-- PBOX's writeback makes WORK the block. -/
theorem writeback_pbox_block {s : State} (h : s.opl = .pbox) : (writeback s).block = s.work := by
  rw [writeback, h]
  exact blockOf_pack s.work

/-- After its last PERM step PBOX writes WORK back to BLOCK and completes. -/
theorem writeback_permuting (n : Byte) (s : State) : writeback (permuting n s n.toNat) =
    { finished (.pbox n) s with
      work := permBlockIter s.block s.perm n.toNat, piter := 0
      blockLo := blockLoOf (permBlockIter s.block s.perm n.toNat)
      blockHi := blockHiOf (permBlockIter s.block s.perm n.toNat) } := by
  rw [permuting, Nat.sub_self]
  rfl

/-- Settles O22: the word by PBOX's row; the run is the PERM steps (`coreRun_permuting`) and the writeback
(`writeback_permuting`), and the block after them by the position law (`permBlockIter_target`). -/
theorem pboxPermutesTheBlockNTimes : Obligations.PboxPermutesTheBlockNTimes := by
  refine fun s n => ⟨decode_pattern_arg 5 rfl n, fun hb h => ?_, fun hb h => ?_⟩
  · have hwb : coreRun (n.toNat + 1) (permuting n s 0) = .next (writeback (permuting n s n.toNat)) := by
      rw [coreRun_add n.toNat 1 (coreRun_permuting s le_rfl), coreRun_succ 0 (coreStep_wb rfl (if_pos rfl)),
        coreRun_zero]
    have hblock : (writeback (permuting n s n.toNat)).block = permBlockIter s.block s.perm n.toNat :=
      writeback_pbox_block rfl
    have hsteps (k : Nat) (hk : k ≤ n.toNat) : ∃ x, coreRun k (permuting n s 0) = .next x ∧ x.busy = true ∧
        x.blockLo = s.blockLo ∧ x.blockHi = s.blockHi := ⟨_, coreRun_permuting s hk, rfl, rfl, rfl⟩
    refine ⟨_, _, pbox_started n hb h, hsteps, hwb, ?_, hblock, fun j => ?_⟩
    · rw [hblock, writeback_permuting]
    · rw [hblock]
      exact permBlockIter_target h s.block n.toNat j
  · exact exec_rejected hb ((firstFailure_checkPbox _).trans (if_neg h))

end Machine
end Sys2Proof
end

section
/-! PROOFS of the statements about compression (spec/43_compress.md): the inverse lookup (R151), the function G (R150,
R153), the COMP steps that compute it (R156) and COMPRESS (R155). -/

namespace Sys2Proof.Machine

/-! The inverse lookup (R151). -/

theorem offsetAt_data_zero (tables : Aut64Tables) (k : Nibble) : offsetAt tables k 0 = 0 := by
  rw [offsetAt_comm, offsetAt_zero]

theorem offsetAt_data_one (tables : Aut64Tables) (k : Nibble) : offsetAt tables k 1 = k := by
  rw [offsetAt_comm, offsetAt_one]

/-- A search through all of `Fin n` finds `i` alone exactly when `i` alone satisfies what is searched for. -/
theorem filter_finRange_eq_singleton {n : Nat} {p : Fin n → Bool} {i : Fin n} :
    (List.finRange n).filter p = [i] ↔ ∀ j, p j = true ↔ j = i := by
  rw [← List.perm_singleton, List.perm_ext_iff_of_nodup ((List.nodup_finRange n).filter p) (List.nodup_singleton i)]
  simp

/-- The inverse lookup answers an index exactly when its search finds that index alone. -/
theorem invRow_eq_some_iff_filter {tables : Aut64Tables} {k n i : Nibble} : invRow tables k n = some i ↔
    (List.finRange 16).filter (fun j => offsetAt tables k (BitVec.ofNat 4 j.val) == n) = [nibbleIndex i] := by
  unfold invRow
  split
  next j hj => rw [hj, Option.some_inj, List.singleton_inj, ← nibbleIndex_inj, nibbleIndex_ofNat]
  next hne => exact iff_of_false (Option.some_ne_none i).symm (hne (nibbleIndex i))

/-- The inverse lookup answers the one index whose entry in the row is `n`. -/
theorem invRow_eq_some_iff {tables : Aut64Tables} {k n i : Nibble} :
    invRow tables k n = some i ↔ ∀ j : Nibble, offsetAt tables k j = n ↔ j = i := by
  rw [invRow_eq_some_iff_filter, filter_finRange_eq_singleton]
  constructor
  · intro h j
    simpa only [ofNat_nibbleIndex, nibbleIndex_inj, beq_iff_eq] using h (nibbleIndex j)
  · intro h j
    rw [beq_iff_eq, h, ← nibbleIndex_inj, nibbleIndex_ofNat]

theorem invRow_eq_none_iff {tables : Aut64Tables} {k n : Nibble} :
    invRow tables k n = none ↔ ∀ i : Nibble, ¬ ∀ j : Nibble, offsetAt tables k j = n ↔ j = i := by
  simp only [Option.eq_none_iff_forall_ne_some, ne_eq, invRow_eq_some_iff]

/-- In a row other than 0, the inverse lookup undoes the lookup. -/
theorem invRow_offsetAt (tables : Aut64Tables) {k : Nibble} (hk : k ≠ 0) (i : Nibble) :
    invRow tables k (offsetAt tables k i) = some i :=
  invRow_eq_some_iff.mpr fun _ => (offsetAt_injective tables hk).eq_iff

/-- In a row other than 0, the inverse lookup has a value. -/
theorem exists_invRow_eq_some (tables : Aut64Tables) {k : Nibble} (hk : k ≠ 0) (n : Nibble) :
    ∃ i, invRow tables k n = some i := by
  obtain ⟨i, rfl⟩ := Finite.injective_iff_surjective.mp (offsetAt_injective tables hk) n
  exact ⟨i, invRow_offsetAt tables hk i⟩

/-- In row 0 the inverse lookup is degenerate: if one index has the entry, the next one has it too. -/
theorem invRow_row_zero (tables : Aut64Tables) (n : Nibble) : invRow tables 0 n = none := by
  refine invRow_eq_none_iff.mpr fun i h => ?_
  have hn : offsetAt tables 0 i = n := (h i).mpr rfl
  have hnext : i + 1 = i := (h (i + 1)).mp (by rw [← hn, offsetAt_zero, offsetAt_zero])
  exact absurd hnext (by bv_omega)

/-- Settles O39: the index by `invRow_eq_some_iff`, the rows by `exists_invRow_eq_some` and `invRow_row_zero`. -/
theorem theInverseLookupReturnsTheUniqueIndex : Obligations.TheInverseLookupReturnsTheUniqueIndex := by
  refine fun tables k n => ⟨fun i => invRow_eq_some_iff, fun hk => exists_invRow_eq_some tables hk n, ?_⟩
  rintro rfl
  exact invRow_row_zero tables n

/-! The function G (R150, R153). -/

theorem inverseTerms_eq_some_iff {tables : Aut64Tables} {key : Key} {r : Fin 12} {st : Block} {iu il : Nibble} :
    inverseTerms tables key r st = some (iu, il) ↔
      invRow tables (subAt tables (lowerKey tables key r 7)) (lowNibble st[7]) = some il ∧
      invRow tables (subAt tables (upperKey tables key r 7)) (highNibble st[7]) = some iu := by
  unfold inverseTerms
  split
  next il' iu' hl hu => simp [hl, hu, and_comm]
  next hne =>
    simp only [reduceCtorEq, false_iff]
    exact fun h => hne _ _ h.1 h.2

/-- G is degenerate exactly when an inverse lookup of byte 7 is. -/
theorem compressG_eq_none_iff {tables : Aut64Tables} {st : Block} {key : Key} {r : Fin 12} :
    compressG tables st key r = none ↔
      invRow tables (subAt tables (lowerKey tables key r 7)) (lowNibble st[7]) = none ∨
      invRow tables (subAt tables (upperKey tables key r 7)) (highNibble st[7]) = none := by
  rw [compressG, Option.map_eq_none_iff, inverseTerms]
  split
  next hl hu => simp [hl, hu]
  next hne =>
    simp only [true_iff, Option.eq_none_iff_forall_ne_some, ← not_exists, ← not_and_or]
    rintro ⟨⟨il, hl⟩, iu, hu⟩
    exact hne il iu hl hu

/-- G is the forward sum with what the inverse lookups add. -/
theorem compressG_eq_some_iff {tables : Aut64Tables} {st : Block} {key : Key} {r : Fin 12} {c : Byte} :
    compressG tables st key r = some c ↔ ∃ iu il : Nibble, inverseTerms tables key r st = some (iu, il) ∧
      joinNibbles ((forwardSum tables key r st).1 ^^^ iu) ((forwardSum tables key r st).2 ^^^ il) = c := by
  rw [compressG, Option.map_eq_some_iff, Prod.exists]

/-- Settles O41: the forward sum is `forwardSum_eq`, and an inverse lookup is its unique index (`invRow_eq_some_iff`). -/
theorem gIsTheXorOfItsForwardAndInverseLookups : Obligations.GIsTheXorOfItsForwardAndInverseLookups := by
  intro tables st key r il iu lk uk lower upper lowerUnique upperUnique
  constructor
  · intro hl hu
    have hterms : inverseTerms tables key r st = some (iu, il) :=
      inverseTerms_eq_some_iff.mpr ⟨invRow_eq_some_iff.mpr hl, invRow_eq_some_iff.mpr hu⟩
    refine ⟨_, compressG_eq_some_iff.mpr ⟨iu, il, hterms, rfl⟩, ?_, ?_⟩
    · refine (lowNibble_joinNibbles _ _).trans ?_
      rw [forwardSum_eq]
      rfl
    · refine (highNibble_joinNibbles _ _).trans ?_
      rw [forwardSum_eq]
      rfl
  · rintro (hl | hu)
    · exact compressG_eq_none_iff.mpr (.inl (invRow_eq_none_iff.mpr hl))
    · exact compressG_eq_none_iff.mpr (.inr (invRow_eq_none_iff.mpr hu))

/-- The inverse lookup of 0 adds 0 in every row where it has a value. -/
theorem eq_zero_of_invRow_zero {tables : Aut64Tables} {k i : Nibble} (h : invRow tables k 0 = some i) : i = 0 :=
  ((invRow_eq_some_iff.mp h 0).mp (offsetAt_data_zero tables k)).symm

theorem forwardTerms_zero (tables : Aut64Tables) (key : Key) (r : Fin 12) (b : Fin 8) :
    forwardTerms tables key r b (Vector.replicate 8 0) = (0, 0) := by
  have hbyte : (Vector.replicate 8 0 : Block)[b] = 0 := Vector.getElem_replicate b.isLt
  rw [forwardTerms, hbyte, show highNibble 0 = 0 from rfl, show lowNibble 0 = 0 from rfl, offsetAt_data_zero,
    offsetAt_data_zero]

/-- The bytes 0 to 6 of an all-zero state add 0. -/
theorem forwardSum_zero (tables : Aut64Tables) (key : Key) (r : Fin 12) :
    forwardSum tables key r (Vector.replicate 8 0) = (0, 0) := by
  simp only [forwardSum_eq, forwardTerms_zero]
  rfl

theorem compressG_zero {tables : Aut64Tables} {key : Key} {r : Fin 12} {c : Byte}
    (h : compressG tables (Vector.replicate 8 0) key r = some c) : c = 0 := by
  obtain ⟨iu, il, hterms, rfl⟩ := compressG_eq_some_iff.mp h
  obtain ⟨hl, hu⟩ := inverseTerms_eq_some_iff.mp hterms
  obtain rfl : il = 0 := eq_zero_of_invRow_zero (by simpa [lowNibble] using hl)
  obtain rfl : iu = 0 := eq_zero_of_invRow_zero (by simpa [highNibble] using hu)
  rw [forwardSum_zero]
  rfl

/-- Settles O42: the lookups by R93 to R95, the inverse lookups as the lookups' inverses (`invRow_offsetAt`), the all-zero
state by `compressG_zero`. -/
theorem gHasTheCornerCasesThatTheTablesForce : Obligations.GHasTheCornerCasesThatTheTablesForce := by
  refine fun tables => ⟨offsetAt_zero tables, offsetAt_one tables, offsetAt_data_zero tables, offsetAt_data_one tables,
    fun k hk => ⟨?_, ?_⟩, fun key r c => compressG_zero⟩
  · rw [← invRow_offsetAt tables hk 0, offsetAt_data_zero]
  · rw [← invRow_offsetAt tables hk 1, offsetAt_data_one]

/-! The eight COMP steps (R156). -/

theorem coreRun_one (s : State) : coreRun 1 s = coreStep s := by
  simp only [coreRun]
  split <;> simp [*]

/-- The state before the first COMP step of a round. -/
structure BeforeComp (s : State) : Prop where
  busy : s.busy = true
  phase : s.phase = .comp
  bpos : s.bpos = 0
  r5 : s.r5 = 0
  r6 : s.r6 = 0
  round : s.rctr.toNat < 12

/-- The COMP steps below byte position 7 write R5, R6 and BPOS only. -/
theorem compForward_iterate_frame (tables : Aut64Tables) (r : Fin 12) (s : State) (k : Nat) :
    (compForward tables r)^[k] s =
      { s with
        r5 := ((compForward tables r)^[k] s).r5, r6 := ((compForward tables r)^[k] s).r6
        bpos := s.bpos + BitVec.ofNat 3 k } := by
  induction k with
  | zero => simp
  | succ k ih =>
    have hbpos : s.bpos + BitVec.ofNat 3 (k + 1) = s.bpos + BitVec.ofNat 3 k + 1 := by bv_omega
    rw [Function.iterate_succ_apply', ih, hbpos]
    rfl

/-- The first seven core steps of COMP are the COMP steps of byte positions 0 to 6. -/
theorem coreRun_compForward {s : State} (h : BeforeComp s) {k : Nat} (hk : k ≤ 7) :
    coreRun k s = .next ((compForward Config.tables ⟨s.rctr.toNat, h.round⟩)^[k] s) := by
  induction k with
  | zero => rfl
  | succ k ih =>
    rw [coreRun_add k 1 (ih (by omega)), Function.iterate_succ_apply']
    have hframe := compForward_iterate_frame Config.tables ⟨s.rctr.toNat, h.round⟩ s k
    generalize (compForward Config.tables ⟨s.rctr.toNat, h.round⟩)^[k] s = t at hframe ⊢
    obtain ⟨hbusy, hphase, hrctr, hbpos⟩ : t.busy = true ∧ t.phase = .comp ∧ t.rctr = s.rctr ∧
        t.bpos = BitVec.ofNat 3 k := by
      rw [hframe]
      exact ⟨h.busy, h.phase, rfl, by rw [h.bpos]; exact BitVec.zero_add _⟩
    have hne : t.bpos ≠ 7 := by
      rw [hbpos]
      bv_omega
    rw [coreRun_one, coreStep_comp hbusy hphase, compStep_forward (by rw [hrctr]; exact h.round) hne]
    simp only [hrctr]

/-- After them, R5 and R6 hold G's forward sum. -/
theorem compForward_iterate_seven {s : State} (h : BeforeComp s) (tables : Aut64Tables) (r : Fin 12) :
    (compForward tables r)^[7] s =
      { s with
        r5 := (forwardSum tables s.key r s.work).1, r6 := (forwardSum tables s.key r s.work).2, bpos := 7 } := by
  obtain ⟨-, -, hbpos, hr5, hr6, -⟩ := h
  cases s
  subst hbpos hr5 hr6
  rfl

theorem coreRun_comp {s : State} (h : BeforeComp s) : coreRun 8 s =
    compStep Config.tables { s with
      r5 := (forwardSum Config.tables s.key ⟨s.rctr.toNat, h.round⟩ s.work).1
      r6 := (forwardSum Config.tables s.key ⟨s.rctr.toNat, h.round⟩ s.work).2, bpos := 7 } := by
  rw [coreRun_add 7 1 (coreRun_compForward h le_rfl), compForward_iterate_seven h, coreRun_one]
  exact coreStep_comp h.busy h.phase

/-- The eighth step goes on where G has a value, with that value in T and its nibbles in R5 and R6. -/
theorem coreRun_comp_of_some {s : State} (h : BeforeComp s) {c : Byte}
    (hc : compressG Config.tables s.work s.key ⟨s.rctr.toNat, h.round⟩ = some c) :
    coreRun 8 s = .next { s with
      r5 := highNibble c, r6 := lowNibble c, t := c, bpos := 0
      phase := if s.opl = .compress then .wb else .sub1 } := by
  obtain ⟨iu, il, hterms, rfl⟩ := compressG_eq_some_iff.mp hc
  refine ((coreRun_comp h).trans (compStep_last h.round rfl hterms)).trans ?_
  rw [highNibble_joinNibbles, lowNibble_joinNibbles]
  rfl

/-- The eighth step ends the command where G is degenerate. -/
theorem coreRun_comp_of_none {s : State} (h : BeforeComp s)
    (hc : compressG Config.tables s.work s.key ⟨s.rctr.toNat, h.round⟩ = none) :
    coreRun 8 s = .next (raise .degenerateInverseLookup { s with
      r5 := (forwardSum Config.tables s.key ⟨s.rctr.toNat, h.round⟩ s.work).1
      r6 := (forwardSum Config.tables s.key ⟨s.rctr.toNat, h.round⟩ s.work).2, bpos := 7 }) :=
  (coreRun_comp h).trans (compStep_degenerate h.round rfl (Option.map_eq_none_iff.mp hc))

/-! COMPRESS (R155). -/

/-- COMPRESS checks its round index first, and then, under STRICT_KEY, the key nibbles. -/
theorem firstFailure_compress (a : Byte) (s : State) :
    firstFailure (checksOf (.compress a) (latchedFor (.compress a) s)) =
      if 12 ≤ a.toNat then some .roundIndexOutOfRange
      else if s.strictKey = true ∧ ∃ j : Fin 8, s.key[j] = 0 then some .invalidKeyNibble else none := by
  have hkey : (latchedFor (.compress a) s).key = s.key := rfl
  have hstrict : (latchedFor (.compress a) s).strictl = s.strictKey := rfl
  simp only [checksOf, firstFailure, checkRound, checkKey, hasZeroNibble, hkey, hstrict, Bool.and_eq_true,
    decide_eq_true_eq, Nat.succ_le_iff]

/-- The machine that has just accepted COMPRESS. -/
def compressing (a : Byte) (s : State) : State := initOf (.compress a) (latchedFor (.compress a) s)

theorem compressing_rctr {a : Byte} (s : State) (ha : a.toNat < 12) : (compressing a s).rctr.toNat = a.toNat :=
  (BitVec.toNat_setWidth 4 a).trans (Nat.mod_eq_of_lt (by omega))

/-- It is before its first COMP step. -/
theorem compressing_beforeComp {a : Byte} (s : State) (ha : a.toNat < 12) : BeforeComp (compressing a s) where
  busy := rfl
  phase := rfl
  bpos := rfl
  r5 := rfl
  r6 := rfl
  round := by rwa [compressing_rctr s ha]

theorem compressing_compressG {a : Byte} (s : State) (ha : a.toNat < 12) :
    compressG Config.tables (compressing a s).work (compressing a s).key
        ⟨(compressing a s).rctr.toNat, (compressing_beforeComp s ha).round⟩ =
      compressG Config.tables s.block s.key ⟨a.toNat, ha⟩ := by
  simp only [compressing_rctr s ha]
  rfl

/-- COMPRESS where G has a value puts it into RESULT. -/
theorem compress_completes {a c : Byte} {s : State} (ha : a.toNat < 12)
    (hc : compressG Config.tables s.block s.key ⟨a.toNat, ha⟩ = some c) :
    coreRun 9 (compressing a s) = .next { finished (.compress a) s with
      work := s.block, r5 := highNibble c, r6 := lowNibble c, rctr := a.extractLsb' 0 4, bpos := 0
      t := c, result := c } := by
  have hcomp := coreRun_comp_of_some (compressing_beforeComp s ha) ((compressing_compressG s ha).trans hc)
  rw [coreRun_add 8 1 hcomp, coreRun_one, coreStep_wb rfl rfl, ← BitVec.setWidth_eq_extractLsb' (by decide)]
  rfl

/-- COMPRESS where G is degenerate ends with DegenerateInverseLookup. -/
theorem compress_degenerate {a : Byte} {s : State} (ha : a.toNat < 12)
    (hc : compressG Config.tables s.block s.key ⟨a.toNat, ha⟩ = none) :
    ∃ u, coreRun 8 (compressing a s) = .next u ∧ u = { rejected (.compress a) .degenerateInverseLookup s with
      work := s.block, r5 := u.r5, r6 := u.r6, t := u.t, rctr := a.extractLsb' 0 4, bpos := 7 } := by
  refine ⟨_, coreRun_comp_of_none (compressing_beforeComp s ha) ((compressing_compressG s ha).trans hc), ?_⟩
  rw [← BitVec.setWidth_eq_extractLsb' (by decide)]
  rfl

/-- Settles O24: the word by COMPRESS's row, the accept by its two checks (`firstFailure_compress`), the run by the COMP
steps (`compress_completes`, `compress_degenerate`). -/
theorem compressComputesGOfTheBlock : Obligations.CompressComputesGOfTheBlock := by
  refine fun s a => ⟨decode_pattern_arg 3 rfl a, fun hb => ⟨fun ha hkey => ?_, fun ha => ?_, fun ha hs hz => ?_⟩⟩
  · have hchecks := (firstFailure_compress a s).trans ((if_neg (by omega)).trans (if_neg hkey))
    refine ⟨compressing a s, exec_started hb hchecks, rfl, rfl, fun k hk => ?_, fun c hc => ?_, compress_degenerate ha⟩
    · refine ⟨_, coreRun_compForward (compressing_beforeComp s ha) hk, ?_⟩
      rw [compForward_iterate_frame]
      exact ⟨rfl, rfl⟩
    · exact ⟨_, compress_completes ha hc, rfl⟩
  · exact exec_rejected hb ((firstFailure_compress a s).trans (if_pos ha))
  · exact exec_rejected hb ((firstFailure_compress a s).trans ((if_neg (by omega)).trans (if_pos ⟨hs, hz⟩)))

end Sys2Proof.Machine
end

section
/-! PROOFS of the statements about the sequencer (spec/44_sequencer.md): presenting a command (R170, R171), NOP (R173),
the phase steps (R178 to R183) and the writeback (R185, R186), the round and the encryption as functions (R190), and
ROUND (R174). -/

namespace Sys2Proof.Machine

/-! Presenting a command (R170, R171). -/

/-- What the accept of a command word leaves in STATUS: WBUSY as it was, and the command either in progress or ended
with an error (R171, R203). -/
structure Answered (s t : State) : Prop where
  wbusy : t.wbusy = s.wbusy
  done : t.done = false
  outcome : (t.busy = true ∧ t.phase ≠ .idle ∧ t.err = false ∧ t.errCode = .none) ∨
    (t.busy = false ∧ t.phase = .idle ∧ t.err = true ∧ t.errCode ≠ .none)

theorem answered_raise {s t : State} {code : ErrCode} (hc : code ≠ .none) (hw : t.wbusy = s.wbusy) :
    Answered s (raise code t) := ⟨hw, rfl, .inr ⟨rfl, rfl, rfl, hc⟩⟩

theorem answered_initOf (i : Instr) (s : State) : Answered s (initOf i (latchedFor i s)) := by
  obtain ⟨hphase, hframe⟩ := initOf_frame i (latchedFor i s)
  rw [hframe]
  exact ⟨rfl, rfl, .inl ⟨rfl, hphase, rfl, rfl⟩⟩

/-- A word written to CMD while BUSY = 0 is answered in the same step, legal or not. -/
theorem answered_of_writeCmd {w : Word} {s t : State} (hb : s.busy = false) (h : writeCmd w s = .next t) :
    Answered s t := by
  rcases writeCmd_cases h with ⟨hbusy, -⟩ | ⟨-, i, -, he⟩ | ⟨-, rfl⟩
  · simp [hb] at hbusy
  · rcases exec_cases he with ⟨hbusy, -⟩ | ⟨-, code, hcode, rfl⟩ | ⟨-, rfl⟩
    · simp [hb] at hbusy
    · exact answered_raise hcode rfl
    · exact answered_initOf i s
  · exact answered_raise (by decide) rfl

/-- Settles O7: with BUSY = 1 the write is dropped (`writeReg_busy`), with BUSY = 0 it is answered
(`answered_of_writeCmd`). -/
theorem aCommandWriteIsDroppedWhileBusyAndElseAccepted :
    Obligations.ACommandWriteIsDroppedWhileBusyAndElseAccepted := by
  refine fun s w rest hs => ⟨fun hb => ?_, fun hb => ?_⟩
  · exact (step_writeReg .cmd hs).trans (writeReg_busy w (by decide) hb)
  · obtain ⟨t, ht⟩ := writeReg_next { s with schedule := rest } w .cmd
    obtain ⟨hwbusy, hdone, houtcome⟩ := answered_of_writeCmd (s := { s with schedule := rest }) hb ht
    exact ⟨t, (step_writeReg .cmd hs).trans ht, hwbusy, hdone, houtcome⟩

/-! NOP (R173). -/

/-- Settles O19: the words by the one row of their OP; NOP makes no check, and its writeback writes nothing. -/
theorem nopDoesNothingAndCompletes : Obligations.NopDoesNothingAndCompletes :=
  ⟨rfl, fun _ hop hw => decode_error_of_full_row 0 hop rfl hw, fun _ hb => exec_busy .nop hb,
    fun _ hb => ⟨_, exec_started hb rfl, rfl, rfl, coreStep_wb rfl rfl⟩⟩

/-! The phase steps of a round (R178 to R183). -/

/-- Settles O35: each phase step is its core step (`coreStep_perm` to `coreStep_fb`), and FB writes byte 7 of WORK only. -/
theorem theRoundsPhaseStepsDoTheirSubsteps : Obligations.TheRoundsPhaseStepsDoTheirSubsteps := by
  refine fun s hb => ⟨fun hp ho => ?_, fun hp ho => ?_, coreStep_sub1 hb, coreStep_bperm hb, coreStep_sub2 hb,
    fun hp => ⟨_, coreStep_fb hb hp, rfl, Vector.getElem_set_self _, fun i => ?_⟩⟩
  · rw [coreStep_perm hb hp, permStep, if_neg ho]
  · rw [coreStep_perm hb hp, permStep, if_pos ho]
  · exact Vector.getElem_set_ne (by omega) (by omega) (by omega)

/-! The writeback (R185, R186). -/

/-- A core step that is no writeback writes STATUS, the internal elements and the pending samples only. -/
theorem coreStep_frame {s t : State} (h : coreStep s = .next t) (hp : s.phase ≠ .wb) : t =
    { s with
      busy := t.busy, done := t.done, err := t.err, errCode := t.errCode, work := t.work, r5 := t.r5, r6 := t.r6
      phase := t.phase, rctr := t.rctr, bpos := t.bpos, piter := t.piter, t := t.t, seen := t.seen, cnt := t.cnt
      buf := t.buf, rngIn := t.rngIn } := by
  cases hb : s.busy with
  | false =>
    rw [coreStep_idle hb] at h
    cases h
    rfl
  | true =>
    rcases coreStep_cases hb h with
      ⟨-, rfl⟩ | ⟨-, hc⟩ | ⟨-, rfl⟩ | ⟨-, rfl⟩ | ⟨-, rfl⟩ | ⟨-, rfl⟩ | ⟨hwb, -⟩ | ⟨-, hs⟩
    · rw [permStep_frame]
    · rcases compStep_cases hc with ⟨rfl, -⟩ | ht
      · rfl
      · rw [ht]
    · rfl
    · rfl
    · rfl
    · rfl
    · exact absurd hwb hp
    · rw [sampleStep_frame hs]

/-- The commands whose writeback writes BLOCK (R185). -/
def writesBlock : List Op := [.encrypt, .round, .pbox]

/-- The commands whose writeback writes PBOX or SBOX (R185). -/
def writesBox : List Op := [.randperm, .randsbox, .randpbox]

/-- The sampler writes PBOX when it has sampled 8 values, SBOX when 16 (R110). -/
theorem writeSample_eq (s : State) : writeSample s =
    { s with
      pbox := if s.sn = 8 then packPbox (pboxOfBuf s.buf) else s.pbox
      sboxLo := if s.sn = 16 then packNibbles (sboxLow s.buf) else s.sboxLo
      sboxHi := if s.sn = 16 then packNibbles (sboxHigh s.buf) else s.sboxHi } := by
  unfold writeSample
  split_ifs with h8 h16
  · simp [h8] at h16
  · rfl
  · rfl
  · rfl

/-- Everything that a writeback does, in one form for all commands (R185, R186). -/
theorem writeback_eq (s : State) : writeback s = complete
    { s with
      blockLo := if s.opl ∈ writesBlock then blockLoOf s.work else s.blockLo
      blockHi := if s.opl ∈ writesBlock then blockHiOf s.work else s.blockHi
      result := if s.opl ∈ writesResult then s.t else s.result
      pbox := if s.opl ∈ writesBox ∧ s.sn = 8 then packPbox (pboxOfBuf s.buf) else s.pbox
      sboxLo := if s.opl ∈ writesBox ∧ s.sn = 16 then packNibbles (sboxLow s.buf) else s.sboxLo
      sboxHi := if s.opl ∈ writesBox ∧ s.sn = 16 then packNibbles (sboxHigh s.buf) else s.sboxHi
      keyReg := if s.opl = .enumNext then packNibbles s.enumCur else s.keyReg
      enumCur := if s.opl = .enumReset then firstKey
        else if s.opl = .enumNext ∧ s.enumCur ≠ lastKey then succKey s.enumCur else s.enumCur
      enumValid := if s.opl = .enumReset then true
        else if s.opl = .enumNext ∧ s.enumCur = lastKey then false else s.enumValid } := by
  cases ho : s.opl <;> cases s <;> subst ho
  case randperm | randsbox | randpbox =>
    simp [writeback, writebackRandperm, writebackRandsbox, writebackRandpbox, writeSample_eq, writesBlock, writesResult,
      writesBox]
  case enumNext => simp [writeback, writebackEnumNext, yieldKey_eq, writesBlock, writesResult, writesBox]
  all_goals rfl

/-! What a writeback leaves in the packed registers, decoded. -/

theorem writeback_block (s : State) : (writeback s).block = if s.opl ∈ writesBlock then s.work else s.block := by
  rw [writeback_eq, State.block]
  dsimp only [complete]
  split_ifs
  · exact blockOf_pack s.work
  · rfl

theorem writeback_perm (s : State) :
    (writeback s).perm = if s.opl ∈ writesBox ∧ s.sn = 8 then pboxOfBuf s.buf else s.perm := by
  rw [writeback_eq, State.perm]
  dsimp only [complete]
  split_ifs
  · exact pboxOf_packPbox _
  · rfl

theorem writeback_subst (s : State) :
    (writeback s).subst = if s.opl ∈ writesBox ∧ s.sn = 16 then s.buf else s.subst := by
  rw [writeback_eq, State.subst]
  dsimp only [complete]
  split_ifs
  · exact sboxOf_pack s.buf
  · rfl

theorem writeback_key (s : State) : (writeback s).key = if s.opl = .enumNext then s.enumCur else s.key := by
  rw [writeback_eq, State.key]
  dsimp only [complete]
  split_ifs
  · exact keyOf_packNibbles s.enumCur
  · rfl

/-- Settles O36: the frame of the other core steps is `coreStep_frame`, that of the writeback `writeback_frame`, and what
the writeback commits is `writeback_eq`. -/
theorem theWritebackAloneCommitsTheCommandsResult : Obligations.TheWritebackAloneCommitsTheCommandsResult := by
  refine ⟨fun s t h hp => ?_, fun s hb hp => ⟨_, coreStep_wb hb hp, writeback_frame s, writeback_block s, ?_,
    fun j => ?_, writeback_subst s, writeback_key s, ?_, ?_⟩⟩
  · rw [coreStep_frame h hp]
    exact ⟨rfl, rfl, rfl, rfl, rfl, rfl, rfl, rfl, rfl, rfl, rfl, rfl, rfl, rfl⟩
  · rw [writeback_eq]
    rfl
  · rw [writeback_perm, apply_ite (fun p : Pbox => p[j])]
    simp [pboxOfBuf, writesBox]
  · rw [writeback_eq]
    rfl
  · rw [writeback_eq]
    rfl

/-! The round and the encryption as functions (R190). -/

/-- What a round makes of G's value: steps 3 to 5 of R190. -/
def feedbackByte (g : Byte) (p : Pbox) (sb : Sbox) : Byte := subByte (permBits (subByte g sb) p) sb

/-- A round has the value that G's value gives: the permuted block with byte 7 rewritten. -/
theorem cipherRound_eq_some_iff {tables : Aut64Tables} {st m : Block} {key : Key} {p : Pbox} {sb : Sbox} {r : Fin 12} :
    cipherRound tables st key p sb r = some m ↔ ∃ g, compressG tables (permBlock st p) key r = some g ∧
      (permBlock st p).set 7 (feedbackByte g p sb) = m := by
  rw [cipherRound, Option.map_eq_some_iff]
  rfl

theorem cipherRound_eq_none_iff {tables : Aut64Tables} {st : Block} {key : Key} {p : Pbox} {sb : Sbox} {r : Fin 12} :
    cipherRound tables st key p sb r = none ↔ compressG tables (permBlock st p) key r = none := by
  rw [cipherRound, Option.map_eq_none_iff]

/-- Every byte of a permuted block is a byte of the block, each from a place of its own: the pbox's inverse. -/
theorem exists_injective_permBlock {p : Pbox} (h : Distinct8 p) (b : Block) :
    ∃ q : Fin 8 → Fin 8, Function.Injective q ∧ ∀ i, (permBlock b p)[i] = b[q i] := by
  obtain ⟨q, hq⟩ := (target_bijective h).surjective.hasRightInverse
  refine ⟨q, hq.injective, fun i => ?_⟩
  simpa only [hq i] using permBlock_target h b (q i)

/-- One more of the rounds from `first` on is the round of the next index on their result. -/
theorem cipherRounds_succ (tables : Aut64Tables) (key : Key) (p : Pbox) (sb : Sbox) {n first k : Nat}
    (hk : first + n = k) (h : k < 12) (st : Block) : cipherRounds tables key p sb (n + 1) first st =
      (cipherRounds tables key p sb n first st).bind fun st => cipherRound tables st key p sb ⟨k, h⟩ := by
  induction n generalizing first st with
  | zero =>
    obtain rfl : first = k := hk
    simp [cipherRounds, h]
  | succ n ih =>
    have hfirst : first < 12 := by omega
    have hnext : cipherRounds tables key p sb (n + 1) (first + 1) = fun st =>
        (cipherRounds tables key p sb n (first + 1) st).bind fun st => cipherRound tables st key p sb ⟨k, h⟩ :=
      funext (ih (by omega))
    rw [cipherRounds, dif_pos hfirst, hnext, cipherRounds, dif_pos hfirst, Option.bind_assoc]

/-- Settles O46: a round by its two equivalences (`cipherRound_eq_some_iff`, `cipherRound_eq_none_iff`), the places of
bytes 0 to 6 by the pbox's inverse (`exists_injective_permBlock`), one round more by `cipherRounds_succ`. -/
theorem encryptionIsItsRoundsInTurnAndEachRewritesByteSeven :
    Obligations.EncryptionIsItsRoundsInTurnAndEachRewritesByteSeven := by
  refine fun tables key p sb => ⟨fun st m r hm => ?_, fun st r g hg => ⟨_, cipherRound_eq_some_iff.mpr ⟨g, hg, rfl⟩⟩,
    fun st r => cipherRound_eq_none_iff.mpr, fun m => rfl, fun m n h => ?_⟩
  · obtain ⟨g, hg, rfl⟩ := cipherRound_eq_some_iff.mp hm
    have hkept (i : Fin 7) : ((permBlock st p).set 7 (feedbackByte g p sb))[i.val] =
        (permBlock st p)[i.val] := Vector.getElem_set_ne (by omega) (by omega) (by omega)
    refine ⟨g, hg, Vector.getElem_set_self _, hkept, fun h => ?_⟩
    obtain ⟨q, hq, hbytes⟩ := exists_injective_permBlock h st
    exact ⟨q, hq, fun i => (hkept i).trans (hbytes i.castSucc)⟩
  · exact cipherRounds_succ tables key p sb (Nat.zero_add n) h m

/-! The checks of a command at accept (R205). -/

/-- The checks that a command makes are those of R205 in its order, and the accept's first acts leave what they read
alone. -/
theorem firstFailure_checksOf (i : Instr) (s : State) :
    firstFailure (checksOf i (latchedFor i s)) = acceptError i s := by
  have hperm : (latchedFor i s).perm = s.perm := rfl
  have hsubst : (latchedFor i s).subst = s.subst := rfl
  have hkey : (latchedFor i s).key = s.key := rfl
  have hstrict : (latchedFor i s).strictl = s.strictKey := rfl
  have henum : (latchedFor i s).enumValid = s.enumValid := rfl
  cases i <;> simp only [checksOf, firstFailure, acceptError, usesPbox, usesSbox, roundTooLarge, usesKey, ownError,
    Bool.false_eq_true, false_and, if_false]
  case randsbox | randpbox => rfl
  case encrypt | round | compress | sbox | pbox | pboxbit =>
    simp [checkPbox, checkSbox, checkRound, checkKey, bijective8, bijective16, hasZeroNibble, hperm, hsubst, hkey, hstrict]
  case randperm => simp [checkPermSize, ← not_or]
  case enumNext => simp [checkEnum, henum, ← Bool.not_eq_true]
  case tableRead => simp only [checkTableIndex, decide_eq_true_eq, ← Nat.not_lt, ite_not]

/-! Core steps of a command that stays in progress. -/

/-- A run of `n + 1` core steps that answers a next state is a step and a run of `n`. -/
theorem coreRun_succ_eq_next {n : Nat} {s u : State} (h : coreRun (n + 1) s = .next u) :
    ∃ t, coreStep s = .next t ∧ coreRun n t = .next u := by
  cases hs : coreStep s with
  | next t => exact ⟨t, rfl, (coreRun_succ n hs).symm.trans h⟩
  | fault f => simp [coreRun, hs] at h
  | refused r => simp [coreRun, hs] at h

/-- A core step after which the command is still in progress is no writeback, so that BLOCK is unchanged. -/
theorem coreStep_busy_next {s t : State} (h : coreStep s = .next t) (ht : t.busy = true) :
    s.busy = true ∧ t.blockLo = s.blockLo ∧ t.blockHi = s.blockHi := by
  have hb : s.busy = true := by
    by_contra hb
    rw [coreStep_idle (Bool.eq_false_of_not_eq_true hb)] at h
    cases h
    exact hb ht
  have hp : s.phase ≠ .wb := by
    intro hp
    rw [coreStep_wb hb hp, writeback_frame] at h
    cases h
    exact Bool.false_ne_true ht
  rw [coreStep_frame h hp]
  exact ⟨hb, rfl, rfl⟩

/-- A command that is in progress after `n` core steps has been in progress, with BLOCK unchanged, after fewer. -/
theorem coreRun_busy_of_le {n : Nat} {s u : State} (h : coreRun n s = .next u) (hu : u.busy = true) {k : Nat}
    (hk : k ≤ n) : ∃ x, coreRun k s = .next x ∧ x.busy = true ∧ x.blockLo = s.blockLo ∧ x.blockHi = s.blockHi := by
  induction n generalizing s k with
  | zero =>
    obtain rfl : k = 0 := by omega
    cases h
    exact ⟨_, rfl, hu, rfl, rfl⟩
  | succ n ih =>
    obtain ⟨t, hst, htu⟩ := coreRun_succ_eq_next h
    obtain ⟨y, hy, hybusy, -⟩ := ih htu (Nat.zero_le n)
    cases hy
    obtain ⟨hb, hlo, hhi⟩ := coreStep_busy_next hst hybusy
    cases k with
    | zero => exact ⟨s, rfl, hb, rfl, rfl⟩
    | succ k =>
      obtain ⟨x, hx, hxbusy, hxlo, hxhi⟩ := ih htu (k := k) (by omega)
      exact ⟨x, (coreRun_succ k hst).trans hx, hxbusy, hxlo.trans hlo, hxhi.trans hhi⟩

/-! One round of ROUND or ENCRYPT, from its PERM step to its FB step (R178 to R183). -/

/-- The state before the PERM step of a round. -/
structure BeforeRound (s : State) : Prop where
  busy : s.busy = true
  phase : s.phase = .perm
  op : s.opl = .encrypt ∨ s.opl = .round
  round : s.rctr.toNat < 12

/-- The state before the first COMP step of the round that has permuted WORK to `b`. -/
def atComp (b : Block) (s : State) : State := { s with work := b, r5 := 0, r6 := 0, bpos := 0, phase := .comp }

/-- The PERM step of a round. -/
theorem coreStep_beforeRound {s : State} (h : BeforeRound s) :
    coreStep s = .next (atComp (permBlock s.work s.perm) s) := by
  have hne : s.opl ≠ .pbox := by rcases h.op with ho | ho <;> simp [ho]
  rw [coreStep_perm h.busy h.phase, permStep, if_neg hne, atComp]

theorem atComp_beforeComp {s : State} (h : BeforeRound s) (b : Block) : BeforeComp (atComp b s) :=
  ⟨h.busy, rfl, rfl, rfl, rfl, h.round⟩

/-- The four steps after COMP make T's feedback byte and put it into byte 7 of WORK. -/
theorem coreRun_feedback {s : State} (hb : s.busy = true) (hp : s.phase = .sub1) :
    coreRun 4 s = .next (fbStep { s with t := feedbackByte s.t s.perm s.subst }) := by
  rw [coreRun_succ 3 (coreStep_sub1 hb hp), coreRun_succ 2 (coreStep_bperm (s := sub1Step s) hb rfl),
    coreRun_succ 1 (coreStep_sub2 (s := bpermStep (sub1Step s)) hb rfl), coreRun_one,
    coreStep_fb (s := sub2Step (bpermStep (sub1Step s))) hb rfl]
  rfl

/-- The steps from COMP to FB where G has a value. -/
theorem coreRun_atComp_of_some {s : State} (h : BeforeRound s) {b : Block} {g : Byte}
    (hg : compressG Config.tables b s.key ⟨s.rctr.toNat, h.round⟩ = some g) :
    coreRun 12 (atComp b s) = .next { s with
      work := b.set 7 (feedbackByte g s.perm s.subst), r5 := highNibble g, r6 := lowNibble g
      t := feedbackByte g s.perm s.subst, rctr := s.rctr + 1, bpos := 0
      phase := if s.rctr + 1 = s.rlimit then .wb else .perm } := by
  have hne : s.opl ≠ .compress := by rcases h.op with ho | ho <;> simp [ho]
  refine (coreRun_add 8 4 (coreRun_comp_of_some (atComp_beforeComp h b) hg)).trans ((coreRun_feedback ?_ ?_).trans ?_)
  · exact h.busy
  · exact if_neg hne
  · rfl

/-- COMP ends the command in its eighth step where G is degenerate. -/
theorem coreRun_atComp_of_none {s : State} (h : BeforeRound s) {b : Block}
    (hg : compressG Config.tables b s.key ⟨s.rctr.toNat, h.round⟩ = none) :
    ∃ r5 r6, coreRun 8 (atComp b s) = .next (raise .degenerateInverseLookup { s with
      work := b, r5 := r5, r6 := r6, bpos := 7, phase := .comp }) :=
  ⟨_, _, coreRun_comp_of_none (atComp_beforeComp h b) hg⟩

/-- The 13 steps of a round that has a value leave it in WORK and advance the round counter. -/
theorem coreRun_round_of_some {s : State} (h : BeforeRound s) {m : Block}
    (hm : cipherRound Config.tables s.work s.key s.perm s.subst ⟨s.rctr.toNat, h.round⟩ = some m) :
    ∃ r5 r6, coreRun 13 s = .next { s with
      work := m, r5 := r5, r6 := r6, t := m[7], rctr := s.rctr + 1, bpos := 0
      phase := if s.rctr + 1 = s.rlimit then .wb else .perm } := by
  obtain ⟨g, hg, rfl⟩ := cipherRound_eq_some_iff.mp hm
  refine ⟨highNibble g, lowNibble g, ?_⟩
  rw [coreRun_succ 12 (coreStep_beforeRound h), coreRun_atComp_of_some h hg, Vector.getElem_set_self]

/-- A degenerate round ends the command in its ninth step, the eighth COMP step. -/
theorem coreRun_round_of_none {s : State} (h : BeforeRound s)
    (hm : cipherRound Config.tables s.work s.key s.perm s.subst ⟨s.rctr.toNat, h.round⟩ = none) :
    ∃ r5 r6, coreRun 9 s = .next (raise .degenerateInverseLookup { s with
      work := permBlock s.work s.perm, r5 := r5, r6 := r6, bpos := 7, phase := .comp }) := by
  rw [coreRun_succ 8 (coreStep_beforeRound h)]
  exact coreRun_atComp_of_none h (cipherRound_eq_none_iff.mp hm)

/-! ROUND (R174). -/

/-- The machine that has just accepted ROUND. -/
def rounding (a : Byte) (s : State) : State := initOf (.round a) (latchedFor (.round a) s)

theorem rounding_rctr {a : Byte} (s : State) (ha : a.toNat < 12) : (rounding a s).rctr.toNat = a.toNat :=
  (BitVec.toNat_setWidth 4 a).trans (Nat.mod_eq_of_lt (by omega))

/-- It is before its one round. -/
theorem rounding_beforeRound {a : Byte} (s : State) (ha : a.toNat < 12) : BeforeRound (rounding a s) where
  busy := rfl
  phase := rfl
  op := .inr rfl
  round := by rwa [rounding_rctr s ha]

/-- That round is the one of BLOCK and the index given. -/
theorem rounding_cipherRound {a : Byte} (s : State) (ha : a.toNat < 12) :
    cipherRound Config.tables (rounding a s).work (rounding a s).key (rounding a s).perm (rounding a s).subst
        ⟨(rounding a s).rctr.toNat, (rounding_beforeRound s ha).round⟩ =
      cipherRound Config.tables s.block s.key s.perm s.subst ⟨a.toNat, ha⟩ := by
  simp only [rounding_rctr s ha]
  rfl

/-- RLIMIT of ROUND is the low nibble of the index's successor (R172). -/
theorem extractLsb'_add_one (a : Byte) : (a + 1).extractLsb' 0 4 = a.truncate 4 + 1 := by
  rw [← BitVec.setWidth_eq_extractLsb' (by decide), BitVec.setWidth_add _ _ (by decide)]
  rfl

/-- ROUND's 13 phase steps where the round has a value: the writeback is next. -/
theorem rounding_steps {a : Byte} {m : Block} {s : State} (ha : a.toNat < 12)
    (hm : cipherRound Config.tables s.block s.key s.perm s.subst ⟨a.toNat, ha⟩ = some m) :
    ∃ r5 r6, coreRun 13 (rounding a s) = .next { rounding a s with
      work := m, r5 := r5, r6 := r6, t := m[7], rctr := (a + 1).extractLsb' 0 4, bpos := 0, phase := .wb } := by
  obtain ⟨r5, r6, hrun⟩ := coreRun_round_of_some (rounding_beforeRound s ha) ((rounding_cipherRound s ha).trans hm)
  have hlast : (rounding a s).rctr + 1 = (rounding a s).rlimit := rfl
  refine ⟨r5, r6, ?_⟩
  rw [hrun, if_pos hlast, extractLsb'_add_one]
  rfl

/-- ROUND where the round has a value puts it into BLOCK. -/
theorem round_completes {a : Byte} {m : Block} {s : State} (ha : a.toNat < 12)
    (hm : cipherRound Config.tables s.block s.key s.perm s.subst ⟨a.toNat, ha⟩ = some m) :
    ∃ r5 r6, coreRun 14 (rounding a s) = .next { finished (.round a) s with
      work := m, blockLo := blockLoOf m, blockHi := blockHiOf m, r5 := r5, r6 := r6, t := m[7]
      rctr := (a + 1).extractLsb' 0 4, rlimit := (a + 1).extractLsb' 0 4, bpos := 0 } := by
  obtain ⟨r5, r6, hrun⟩ := rounding_steps ha hm
  refine ⟨r5, r6, ?_⟩
  rw [coreRun_add 13 1 hrun, coreRun_one, coreStep_wb rfl rfl, extractLsb'_add_one]
  rfl

/-- ROUND where the round is degenerate ends with DegenerateInverseLookup. -/
theorem round_degenerate {a : Byte} {s : State} (ha : a.toNat < 12)
    (hm : cipherRound Config.tables s.block s.key s.perm s.subst ⟨a.toNat, ha⟩ = none) :
    ∃ u, coreRun 9 (rounding a s) = .next u ∧ u = { rejected (.round a) .degenerateInverseLookup s with
      work := u.work, r5 := u.r5, r6 := u.r6, t := u.t
      rctr := a.extractLsb' 0 4, rlimit := (a + 1).extractLsb' 0 4, bpos := 7 } := by
  obtain ⟨r5, r6, hrun⟩ := coreRun_round_of_none (rounding_beforeRound s ha) ((rounding_cipherRound s ha).trans hm)
  refine ⟨_, hrun, ?_⟩
  rw [extractLsb'_add_one, ← BitVec.setWidth_eq_extractLsb' (by decide)]
  rfl

/-- Settles O25: the word by ROUND's row, the accept by its checks (`firstFailure_checksOf`), the run by `rounding_steps`,
`round_completes` and `round_degenerate`; BLOCK is unchanged while ROUND is in progress (`coreRun_busy_of_le`). -/
theorem roundRunsOneRoundOnTheBlock : Obligations.RoundRunsOneRoundOnTheBlock := by
  refine fun s a => ⟨decode_pattern_arg 2 rfl a, fun hb => ⟨fun code hcode => ?_, fun ha hnone => ?_⟩⟩
  · exact exec_rejected hb ((firstFailure_checksOf _ s).trans hcode)
  · refine ⟨rounding a s, exec_started hb ((firstFailure_checksOf _ s).trans hnone), rfl, rfl, fun m hm => ⟨?_, ?_⟩,
      round_degenerate ha⟩
    · obtain ⟨r5, r6, hrun⟩ := rounding_steps ha hm
      exact fun k hk => coreRun_busy_of_le hrun rfl hk
    · obtain ⟨r5, r6, hrun⟩ := round_completes ha hm
      exact ⟨_, hrun, blockOf_pack m, rfl⟩

end Sys2Proof.Machine
end

section
/-! PROOFS of the statements about errors, status and interrupt (spec/60_exceptions.md): illegal words (R209), the
degenerate inverse lookup (R211), WBUSY (R213), the interrupt line (R214), and the idle core (R221). -/

namespace Sys2Proof

/-! Illegal words (R209). -/

/-- A word that matches no row of R74 is illegal, for the reason given (R75). -/
theorem decode_of_no_row {w : Word} (h : ∀ r ∈ rows, w &&& r.mask ≠ r.pattern) :
    decode w = .error (illegalReason w) := by
  have hfind : rows.find? (fun r => w &&& r.mask == r.pattern) = none :=
    List.find?_eq_none.mpr fun r hr hm => h r hr (beq_iff_eq.mp hm)
  rw [decode, hfind]

namespace Machine

theorem writeCmd_of_error {w : Word} {e : DecodeError} (h : decode w = .error e) (s : State) :
    writeCmd w s = acceptIllegal s := by
  rw [writeCmd, h]

/-- Settles O8: no row means no command (`decode_of_no_row`), and the accept of an illegal word only raises
IllegalCommand (`acceptIllegal_idle`). -/
theorem anIllegalWordEndsAtOnceWithIllegalCommand : Obligations.AnIllegalWordEndsAtOnceWithIllegalCommand := by
  intro s w rest hs hb hw
  calc step s = writeCmd w { s with schedule := rest } := step_writeReg .cmd hs
    _ = acceptIllegal { s with schedule := rest } := writeCmd_of_error (decode_of_no_row hw) _
    _ = .next (raise .illegalCommand (clearStatus { s with schedule := rest })) := acceptIllegal_idle hb

/-! The degenerate inverse lookup (R211). -/

/-- The inverse lookup is degenerate in row 0 and in no other. -/
theorem invRow_eq_none_iff_row_zero {tables : Aut64Tables} {k n : Nibble} : invRow tables k n = none ↔ k = 0 := by
  constructor
  · intro h
    by_contra hk
    obtain ⟨i, hi⟩ := exists_invRow_eq_some tables hk n
    simp [h] at hi
  · rintro rfl
    exact invRow_row_zero tables n

theorem compressG_eq_none_iff_row_zero {tables : Aut64Tables} {st : Block} {key : Key} {r : Fin 12} :
    compressG tables st key r = none ↔
      subAt tables (lowerKey tables key r 7) = 0 ∨ subAt tables (upperKey tables key r 7) = 0 := by
  rw [compressG_eq_none_iff, invRow_eq_none_iff_row_zero, invRow_eq_none_iff_row_zero]

/-- The inverse lookups of byte 7 are degenerate together with G, so exactly on row 0. -/
theorem inverseTerms_eq_none_iff_row_zero {tables : Aut64Tables} {key : Key} {r : Fin 12} {st : Block} :
    inverseTerms tables key r st = none ↔
      subAt tables (lowerKey tables key r 7) = 0 ∨ subAt tables (upperKey tables key r 7) = 0 := by
  rw [← compressG_eq_none_iff_row_zero (st := st), compressG, Option.map_eq_none_iff]

/-- If TABLE_SUB maps 0 to 0, it maps nothing else to 0 (R97). -/
theorem subAt_ne_zero {tables : Aut64Tables} (h : tables.sub[0] = 0) {k : Nibble} (hk : k ≠ 0) :
    subAt tables k ≠ 0 :=
  fun h0 => hk (subAt_injective tables (h0.trans h.symm))

/-- With TABLE_SUB[0] = 0, a key of no zero nibble never selects row 0. -/
theorem compressG_ne_none {tables : Aut64Tables} (h : tables.sub[0] = 0) {key : Key} (hkey : ∀ j : Fin 8, key[j] ≠ 0)
    (st : Block) (r : Fin 12) : compressG tables st key r ≠ none := by
  rw [ne_eq, compressG_eq_none_iff_row_zero, not_or]
  exact ⟨subAt_ne_zero h (hkey _), subAt_ne_zero h (hkey _)⟩

/-- Settles O40: G by `compressG_eq_none_iff_row_zero`; the last COMP step raises the error where the inverse lookups are
degenerate (`compStep_degenerate`), and elsewhere leaves the command in progress (`compStep_last`). -/
theorem theLookupIsDegenerateExactlyOnRowZero : Obligations.TheLookupIsDegenerateExactlyOnRowZero := by
  refine ⟨fun tables st key r => ⟨compressG_eq_none_iff_row_zero, fun h0 hkey => compressG_ne_none h0 hkey st r⟩,
    fun s hr hb hp h7 => ?_⟩
  rw [← inverseTerms_eq_none_iff_row_zero (st := s.work), coreStep_comp hb hp]
  cases hterms : inverseTerms Config.tables s.key ⟨s.rctr.toNat, hr⟩ s.work with
  | none => exact iff_of_true ⟨_, compStep_degenerate hr h7 hterms, rfl⟩ rfl
  | some terms =>
    refine iff_of_false ?_ (Option.some_ne_none terms)
    rintro ⟨t, ht, hraise⟩
    have hidle : t.busy = false := by rw [hraise]
    rw [compStep_last hr h7 hterms] at ht
    cases ht
    exact Bool.false_ne_true (hidle.symm.trans hb)

/-! WBUSY (R213). -/

@[simp] theorem writeback_wbusy (s : State) : (writeback s).wbusy = s.wbusy := by rw [writeback_frame]

/-- No core step writes WBUSY. -/
theorem coreStep_wbusy {s t : State} (h : coreStep s = .next t) : t.wbusy = s.wbusy := by
  by_cases hp : s.phase = .wb
  · cases hb : s.busy with
    | false =>
      rw [coreStep_idle hb] at h
      cases h
      rfl
    | true =>
      rw [coreStep_wb hb hp] at h
      cases h
      exact writeback_wbusy s
  · rw [coreStep_frame h hp]

@[simp] theorem pollStatus_wbusy (s : State) : (pollStatus s).wbusy = s.wbusy := by
  unfold pollStatus
  dsimp only
  split <;> rfl

/-- What a host write does to WBUSY: nothing, or clear it through STATUS, or set it because the write is dropped. -/
theorem writeWindow_wbusy {s t : State} {offset : BitVec 8} {v : Word} (h : writeWindow s offset v = .next t) :
    t.wbusy = s.wbusy ∨
    (t.wbusy = false ∧ offset = 0x04 ∧ v.getLsbD 8 = true) ∨
    (t.wbusy = true ∧ s.busy = true ∧ offset ∈ [0x08#8, 0x10, 0x14, 0x18, 0x1C, 0x20, 0x24]) := by
  rcases writeWindow_cases h with rfl | ⟨-, rfl⟩ | ⟨rfl, rfl⟩ | ⟨rfl, hc⟩ | ⟨ho, hb, rfl⟩ | ⟨-, hd⟩
  · exact .inl rfl
  · exact .inl rfl
  · rw [writeStatus_eq]
    by_cases h8 : v.getLsbD 8 = true
    · exact .inr (.inl ⟨if_pos h8, rfl, h8⟩)
    · exact .inl (if_neg h8)
  · cases hb : s.busy with
    | false => exact .inl (answered_of_writeCmd hb hc).wbusy
    | true =>
      rw [writeCmd_busy v hb] at hc
      cases hc
      exact .inr (.inr ⟨rfl, rfl, List.mem_cons_self⟩)
  · exact .inr (.inr ⟨rfl, hb, List.mem_cons_of_mem _ ho⟩)
  · rcases hd with ⟨-, rfl⟩ | ⟨-, rfl⟩ | ⟨-, rfl⟩ | ⟨-, rfl⟩ | ⟨-, rfl⟩ | ⟨-, rfl⟩ <;> exact .inl rfl

/-- What a step does to WBUSY: nothing, or clear it through STATUS or by reset, or set it because a host write is
dropped. -/
theorem step_wbusy {s t : State} (h : step s = .next t) :
    t.wbusy = s.wbusy ∨
    (t.wbusy = false ∧ ((∃ v rest, s.schedule = .host (.write 0x04 4 v) :: rest ∧ v.getLsbD 8 = true) ∨
      (∃ rest, s.schedule = .rst :: rest))) ∨
    (t.wbusy = true ∧ s.busy = true ∧ ∃ offset v rest, s.schedule = .host (.write offset 4 v) :: rest ∧
      offset ∈ [0x08#8, 0x10, 0x14, 0x18, 0x1C, 0x20, 0x24]) := by
  rcases step_cases h with ⟨-, hc⟩ | ⟨rest, -, hc⟩ | ⟨rest, hs, rfl⟩ | ⟨rest, -, rfl⟩ |
    ⟨rest, offset, -, -, rfl⟩ | ⟨rest, offset, v, hs, -, hw⟩
  · exact .inl (coreStep_wbusy hc)
  · exact .inl (coreStep_wbusy (s := { s with schedule := rest }) hc)
  · exact .inr (.inl ⟨rfl, .inr ⟨rest, hs⟩⟩)
  · exact .inl (pollStatus_wbusy _)
  · exact .inl rfl
  · rcases writeWindow_wbusy hw with hsame | ⟨hclear, rfl, h8⟩ | ⟨hset, hb, ho⟩
    · exact .inl hsame
    · exact .inr (.inl ⟨hclear, .inl ⟨v, rest, hs, h8⟩⟩)
    · exact .inr (.inr ⟨hset, hb, offset, v, rest, hs, ho⟩)

/-- Settles O49: the dropped write as O12 states it, and the steps that clear or set WBUSY by `step_wbusy`. -/
theorem wbusyIsStickyAndADroppedWriteIsNoError : Obligations.WbusyIsStickyAndADroppedWriteIsNoError := by
  refine ⟨fun s offset v rest hs hb ho => ?_, fun s t h hs ht => ?_, fun s t h hs ht => ?_⟩
  · obtain ⟨hdropped, -⟩ := hostWritesToOperandsWhileBusyAreDropped s offset v rest hs
    exact ⟨_, hdropped hb ho, rfl, rfl⟩
  · rcases step_wbusy h with hsame | ⟨-, hcleared⟩ | ⟨hset, -⟩
    · simp [hs, ht] at hsame
    · exact hcleared
    · simp [ht] at hset
  · rcases step_wbusy h with hsame | ⟨hclear, -⟩ | ⟨-, hdropped⟩
    · simp [hs, ht] at hsame
    · simp [ht] at hclear
    · exact hdropped

/-! The interrupt line (R214). -/

/-- CTRL shows IRQ_EN at bit 0 (R29). -/
theorem ctrlWord_irqEn (s : State) : (ctrlWord s).getLsbD 0 = s.irqEn := by
  simp [ctrlWord, flagAt]

/-- STATUS shows DONE at bit 1 (R31). -/
theorem statusWord_done (s : State) : (statusWord s).getLsbD 1 = s.done := by
  simp [statusWord, flagAt]

/-- STATUS shows ERR at bit 2 (R31). -/
theorem statusWord_err (s : State) : (statusWord s).getLsbD 2 = s.err := by
  simp [statusWord, flagAt]

/-- The line as the host reads CTRL and STATUS. -/
theorem irq_eq_readWindow (s : State) : irq s = ((readWindow s Reg.ctrl.offset).getLsbD 0 &&
    ((readWindow s Reg.status.offset).getLsbD 1 || (readWindow s Reg.status.offset).getLsbD 2)) := by
  simp only [readWindow_offset, readReg, ctrlWord_irqEn, statusWord_done, statusWord_err, irq]

/-- The writeback asserts the line if it is enabled. -/
theorem irq_writeback (s : State) : irq (writeback s) = s.irqEn := by
  rw [writeback_frame]
  exact Bool.and_true _

/-- An error asserts the line if it is enabled. -/
theorem irq_raise (code : ErrCode) (s : State) : irq (raise code s) = s.irqEn := by
  simp [irq]

/-- The line is low once DONE and ERR are clear. -/
theorem irq_eq_false_of_clear {s : State} (hd : s.done = false) (he : s.err = false) : irq s = false := by
  simp [irq, hd, he]

/-- The line is low while it is not enabled. -/
theorem irq_eq_false_of_disabled {s : State} (h : s.irqEn = false) : irq s = false := by
  simp [irq, h]

/-- A command that is started has cleared the line. -/
theorem irq_initOf (i : Instr) (s : State) : irq (initOf i (latchedFor i s)) = false := by
  rw [(initOf_frame i _).2]
  exact irq_eq_false_of_clear rfl rfl

/-- Settles O50: the reading by `irq_eq_readWindow`, and the line after each operation by that operation's own lemma. -/
theorem theInterruptLineFollowsDoneErrAndItsEnable : Obligations.TheInterruptLineFollowsDoneErrAndItsEnable := by
  refine ⟨irq_eq_readWindow, fun s t hb hp h => ?_, irq_raise, fun i s t hb h ht => ?_,
    fun s t v rest h => ⟨fun hs hdone herr => ?_, fun hs hen => ?_⟩⟩
  · rw [coreStep_wb hb hp] at h
    cases h
    exact irq_writeback s
  · rcases exec_cases h with ⟨hbusy, -⟩ | ⟨-, code, -, rfl⟩ | ⟨-, rfl⟩
    · simp [hb] at hbusy
    · simp at ht
    · exact irq_initOf i s
  · rw [step_writeReg .status hs, writeReg, writeStatus_eq] at h
    cases h
    exact irq_eq_false_of_clear (if_pos hdone) (if_pos herr)
  · rw [step_writeReg .ctrl hs] at h
    cases h
    exact irq_eq_false_of_disabled hen

/-! The idle core (R221). -/

/-- Settles O34: both are a core step with BUSY = 0 (`coreStep_idle`). -/
theorem anIdleCoreKeepsEveryRegister : Obligations.AnIdleCoreKeepsEveryRegister :=
  ⟨fun _ hb hs => (step_nil hs).trans (coreStep_idle hb), fun _ _ hb hs => (step_core hs).trans (coreStep_idle hb)⟩

end Machine
end Sys2Proof
end

section
/-! PROOFS of the statements about command words (spec/30_encoding.md): the decoder's rows field by field (R74, R75),
and the encoder as the decoder's inverse (R78). -/

namespace Sys2Proof

/-! A word is its five fields (R70). -/

/-- Bits `k` to `k + n - 1` of a word are those of its field there. -/
theorem getLsbD_of_field_eq {w v : Word} {k n : Nat} (h : w.extractLsb' k n = v.extractLsb' k n) {j : Nat}
    (hk : k ≤ j) (hj : j < k + n) : w.getLsbD j = v.getLsbD j := by
  have hbit := congrArg (BitVec.getLsbD · (j - k)) h
  simpa [BitVec.getLsbD_extractLsb', show j - k < n by omega, Nat.add_sub_cancel' hk] using hbit

/-- The five fields cover all 32 bits. -/
theorem word_ext {w v : Word} (hop : opField w = opField v) (hz0 : z0Field w = z0Field v)
    (harg : argField w = argField v) (htsel : tselField w = tselField v) (hz1 : z1Field w = z1Field v) : w = v := by
  refine BitVec.eq_of_getLsbD_eq fun j hj => ?_
  obtain h | h | h | h | h : j < 4 ∨ (4 ≤ j ∧ j < 8) ∨ (8 ≤ j ∧ j < 16) ∨ (16 ≤ j ∧ j < 18) ∨ 18 ≤ j := by omega
  · exact getLsbD_of_field_eq hop (Nat.zero_le j) (by omega)
  · exact getLsbD_of_field_eq hz0 h.1 (by omega)
  · exact getLsbD_of_field_eq harg h.1 (by omega)
  · exact getLsbD_of_field_eq htsel h.1 (by omega)
  · exact getLsbD_of_field_eq hz1 h (by omega)

theorem argField_and (w v : Word) : argField (w &&& v) = argField w &&& argField v := BitVec.extractLsb'_and

theorem tselField_and (w v : Word) : tselField (w &&& v) = tselField w &&& tselField v := BitVec.extractLsb'_and

/-! The rows of R74 field by field. -/

/-- Every row fixes OP to its position, and Z0 and Z1 to 0. -/
theorem rows_fixed (k : Fin 13) :
    (opField rows[k.val].mask = BitVec.allOnes 4 ∧ opField rows[k.val].pattern = BitVec.ofNat 4 k) ∧
    (z0Field rows[k.val].mask = BitVec.allOnes 4 ∧ z0Field rows[k.val].pattern = 0) ∧
    (z1Field rows[k.val].mask = BitVec.allOnes 14 ∧ z1Field rows[k.val].pattern = 0) := by
  revert k
  decide

/-- Every row fixes ARG to 0 or leaves it free, and TSEL likewise. -/
theorem rows_operands (k : Fin 13) :
    argField rows[k.val].pattern = 0 ∧ tselField rows[k.val].pattern = 0 ∧
    (argField rows[k.val].mask = 0 ∨ argField rows[k.val].mask = BitVec.allOnes 8) ∧
    (tselField rows[k.val].mask = 0 ∨ tselField rows[k.val].mask = BitVec.allOnes 2) := by
  revert k
  decide

/-- ARG is fixed by the rows of NOP, RANDSBOX, RANDPBOX, ENUM_RESET and ENUM_NEXT, TSEL by every row but
TABLE_READ's. -/
theorem rows_free (k : Fin 13) :
    (argField rows[k.val].mask = 0 ↔ BitVec.ofNat 4 k ∉ [0x0#4, 0x8#4, 0x9#4, 0xA#4, 0xB#4]) ∧
    (tselField rows[k.val].mask = 0 ↔ BitVec.ofNat 4 k = 0xC#4) := by
  revert k
  decide

/-- A field of a masked word is 0 if the mask leaves it free, and else says that the word's own field is 0. -/
theorem and_eq_zero_iff_of_mask {n : Nat} (x : BitVec n) {m : BitVec n} (h : m = 0 ∨ m = BitVec.allOnes n)
    (hn : BitVec.allOnes n ≠ 0) : x &&& m = 0 ↔ (m = 0 ∨ x = 0) := by
  rcases h with rfl | rfl
  · simp
  · rw [BitVec.and_allOnes, or_iff_right hn]

/-- A word matches a row exactly if it has the row's OP, 0 in Z0 and Z1, and 0 in each operand field that the row does
not leave free. -/
theorem row_match_iff {w : Word} (k : Fin 13) : w &&& rows[k.val].mask = rows[k.val].pattern ↔
    opField w = BitVec.ofNat 4 k ∧ z0Field w = 0 ∧ z1Field w = 0 ∧
      (argField rows[k.val].mask = 0 ∨ argField w = 0) ∧ (tselField rows[k.val].mask = 0 ∨ tselField w = 0) := by
  obtain ⟨⟨hopm, hopp⟩, ⟨hz0m, hz0p⟩, hz1m, hz1p⟩ := rows_fixed k
  obtain ⟨hargp, htselp, hargm, htselm⟩ := rows_operands k
  rw [← and_eq_zero_iff_of_mask (argField w) hargm (by decide),
    ← and_eq_zero_iff_of_mask (tselField w) htselm (by decide), ← argField_and, ← tselField_and]
  have hop : opField (w &&& rows[k.val].mask) = opField w := by rw [opField_and, hopm, BitVec.and_allOnes]
  have hz0 : z0Field (w &&& rows[k.val].mask) = z0Field w := by rw [z0Field_and, hz0m, BitVec.and_allOnes]
  have hz1 : z1Field (w &&& rows[k.val].mask) = z1Field w := by rw [z1Field_and, hz1m, BitVec.and_allOnes]
  rw [← hop, ← hz0, ← hz1]
  constructor
  · intro h
    rw [h]
    exact ⟨hopp, hz0p, hz1p, hargp, htselp⟩
  · rintro ⟨h0, h1, h2, h3, h4⟩
    exact word_ext (h0.trans hopp.symm) (h1.trans hz0p.symm) (h3.trans hargp.symm) (h4.trans htselp.symm)
      (h2.trans hz1p.symm)

/-! The decoder: a word is legal exactly if it matches the row at its OP. -/

/-- A word decodes to a command exactly if it matches a row that makes the command of its operand fields. -/
theorem decode_eq_ok_iff {w : Word} {i : Instr} : decode w = .ok i ↔ ∃ k : Fin 13,
    w &&& rows[k.val].mask = rows[k.val].pattern ∧
      rows[k.val].build (argField w) (TSel.ofCode (tselField w)) = i := by
  constructor
  · intro h
    unfold decode at h
    split at h
    · rename_i r hr
      obtain ⟨hm, k, hk, rfl, -⟩ := List.find?_eq_some_iff_getElem.mp hr
      exact ⟨⟨k, hk⟩, beq_iff_eq.mp hm, Except.ok.inj h⟩
    · cases h
  · rintro ⟨k, hm, rfl⟩
    have hrow : rows[(opField w).toNat]? = some rows[k.val] := by
      rw [opField_of_match k.isLt hm, List.getElem?_eq_getElem]
    rw [decode_eq_of_row hrow, if_pos hm]

/-- A word is illegal exactly if it matches no row. -/
theorem decode_eq_error_iff {w : Word} :
    (∃ e, decode w = .error e) ↔ ∀ k : Fin 13, w &&& rows[k.val].mask ≠ rows[k.val].pattern := by
  constructor
  · rintro ⟨e, he⟩ k hm
    cases he.symm.trans (decode_eq_ok_iff.mpr ⟨k, hm, rfl⟩)
  · intro h
    cases hd : decode w with
    | error e => exact ⟨e, rfl⟩
    | ok i =>
      obtain ⟨k, hm, -⟩ := decode_eq_ok_iff.mp hd
      exact absurd hm (h k)

/-! The encoder. -/

/-- The five fields of every command's word. -/
theorem encode_fields (i : Instr) : Laws.EncodeFields.Statement i := by
  cases i with
  | nop => exact Laws.EncodeFields.nop
  | encrypt a => exact Laws.EncodeFields.encrypt a
  | round a => exact Laws.EncodeFields.round a
  | compress a => exact Laws.EncodeFields.compress a
  | sbox a => exact Laws.EncodeFields.sbox a
  | pbox a => exact Laws.EncodeFields.pbox a
  | pboxbit a => exact Laws.EncodeFields.pboxbit a
  | randperm a => exact Laws.EncodeFields.randperm a
  | randsbox => exact Laws.EncodeFields.randsbox
  | randpbox => exact Laws.EncodeFields.randpbox
  | enumReset => exact Laws.EncodeFields.enumReset
  | enumNext => exact Laws.EncodeFields.enumNext
  | tableRead x a => exact Laws.EncodeFields.tableRead x a

@[simp] theorem TSel.code_ofCode (v : BitVec 2) : (TSel.ofCode v).code = v := by
  revert v
  decide

/-- The row of a command: it stands at the command's OP, makes the command of its operands, and leaves each operand free
that is not 0. -/
theorem exists_row (i : Instr) : ∃ k : Fin 13, i.op.code = BitVec.ofNat 4 k ∧ rows[k.val].build i.arg i.tsel = i ∧
    (argField rows[k.val].mask = 0 ∨ i.arg = 0) ∧ (tselField rows[k.val].mask = 0 ∨ i.tsel.code = 0) := by
  cases i with
  | nop => exact ⟨0, rfl, rfl, .inr rfl, .inr rfl⟩
  | encrypt => exact ⟨1, rfl, rfl, .inl rfl, .inr rfl⟩
  | round => exact ⟨2, rfl, rfl, .inl rfl, .inr rfl⟩
  | compress => exact ⟨3, rfl, rfl, .inl rfl, .inr rfl⟩
  | sbox => exact ⟨4, rfl, rfl, .inl rfl, .inr rfl⟩
  | pbox => exact ⟨5, rfl, rfl, .inl rfl, .inr rfl⟩
  | pboxbit => exact ⟨6, rfl, rfl, .inl rfl, .inr rfl⟩
  | randperm => exact ⟨7, rfl, rfl, .inl rfl, .inr rfl⟩
  | randsbox => exact ⟨8, rfl, rfl, .inr rfl, .inr rfl⟩
  | randpbox => exact ⟨9, rfl, rfl, .inr rfl, .inr rfl⟩
  | enumReset => exact ⟨10, rfl, rfl, .inr rfl, .inr rfl⟩
  | enumNext => exact ⟨11, rfl, rfl, .inr rfl, .inr rfl⟩
  | tableRead => exact ⟨12, rfl, rfl, .inl rfl, .inl rfl⟩

/-- Settles O2: a command's word matches the command's row (`row_match_iff`) by the fields that the encoder gives it
(`encode_fields`), and they carry its operands. -/
theorem decodingAnEncodedCommandGivesItBack : Obligations.DecodingAnEncodedCommandGivesItBack := by
  intro i
  obtain ⟨hop, harg, htsel, hz0, hz1⟩ := encode_fields i
  obtain ⟨k, hk, hbuild, hargk, htselk⟩ := exists_row i
  refine decode_eq_ok_iff.mpr ⟨k, (row_match_iff k).mpr ⟨hop.trans hk, hz0, hz1, ?_, ?_⟩, ?_⟩
  · rwa [harg]
  · rwa [htsel]
  · rw [harg, htsel, TSel.ofCode_code, hbuild]

/-- What a row makes of a word's operand fields carries the row's OP, and the fields that the row leaves free. -/
theorem build_fields (k : Fin 13) (a : Byte) (x : TSel) :
    (rows[k.val].build a x).op.code = BitVec.ofNat 4 k ∧
    (rows[k.val].build a x).arg = (if argField rows[k.val].mask = 0 then a else 0) ∧
    (rows[k.val].build a x).tsel = (if tselField rows[k.val].mask = 0 then x else .ln) := by
  fin_cases k <;> exact ⟨rfl, rfl, rfl⟩

/-- Settles O3: every field of the word is the one that the encoder gives the command, fixed by the row or carried by
the command (`build_fields`). -/
theorem aDecodedWordIsItsCommandsEncoding : Obligations.ADecodedWordIsItsCommandsEncoding := by
  intro w i h
  obtain ⟨k, hm, rfl⟩ := decode_eq_ok_iff.mp h
  obtain ⟨hop, hz0, hz1, harg, htsel⟩ := (row_match_iff k).mp hm
  obtain ⟨heop, hearg, hetsel, hez0, hez1⟩ := encode_fields (rows[k.val].build (argField w) (TSel.ofCode (tselField w)))
  obtain ⟨hbop, hbarg, hbtsel⟩ := build_fields k (argField w) (TSel.ofCode (tselField w))
  refine word_ext ?_ (hez0.trans hz0.symm) ?_ ?_ (hez1.trans hz1.symm)
  · rw [heop, hbop, hop]
  · rw [hearg, hbarg]
    split_ifs with hfree
    · rfl
    · exact (harg.resolve_left hfree).symm
  · rw [hetsel, hbtsel]
    split_ifs with hfree
    · exact TSel.code_ofCode _
    · exact (htsel.resolve_left hfree).symm

theorem opField_toNat_of_eq {w : Word} {k : Fin 13} (h : opField w = BitVec.ofNat 4 k) : (opField w).toNat = k := by
  rw [h, BitVec.toNat_ofNat, Nat.mod_eq_of_lt (by omega)]

/-- Settles O4: an OP of 0xD to 0xF has no row; any other OP has one row, which the word matches unless one of the
other fields says otherwise (`row_match_iff`). -/
theorem illegalWordsAreExactlyThoseThatTheDecodeRuleNames :
    Obligations.IllegalWordsAreExactlyThoseThatTheDecodeRuleNames := by
  intro w
  rw [decode_eq_error_iff]
  change _ ↔ 0xD ≤ opField w ∨ z0Field w ≠ 0 ∨ z1Field w ≠ 0 ∨
    (argField w ≠ 0 ∧ opField w ∈ [0x0#4, 0x8#4, 0x9#4, 0xA#4, 0xB#4]) ∨ (tselField w ≠ 0 ∧ opField w ≠ 0xC)
  by_cases hop : 0xD ≤ opField w
  · refine iff_of_true (fun k hm => ?_) (.inl hop)
    have := opField_of_match k.isLt hm
    bv_omega
  · obtain ⟨k, hk⟩ : ∃ k : Fin 13, opField w = BitVec.ofNat 4 k := ⟨⟨(opField w).toNat, by bv_omega⟩, by simp⟩
    have honly : (∀ j : Fin 13, w &&& rows[j.val].mask ≠ rows[j.val].pattern) ↔
        w &&& rows[k.val].mask ≠ rows[k.val].pattern := by
      refine ⟨fun h => h k, fun h j hm => h ?_⟩
      have hjk : j = k := Fin.ext ((opField_of_match j.isLt hm).symm.trans (opField_toNat_of_eq hk))
      rwa [← hjk]
    obtain ⟨hargk, htselk⟩ := rows_free k
    rw [honly, ne_eq, row_match_iff, hargk, htselk, ← hk]
    tauto

/-- Settles O1: each word evaluates to the command of its row, or to the reason why it has none. -/
theorem commandWordsDecodeAsTheSyntaxTableSays : Obligations.CommandWordsDecodeAsTheSyntaxTableSays :=
  ⟨rfl, rfl, rfl, rfl, rfl, rfl, rfl, rfl, rfl, rfl, rfl, rfl, rfl, rfl, rfl, rfl⟩

end Sys2Proof
end

section
/-! PROOFS of the statements about the invariant: it holds at reset, every step keeps it, no core step faults under it,
and the boxes that the sampler writes are bijections (spec/10_state.md R38 to R44, spec/41_keygen.md R120,
spec/44_sequencer.md R187). -/

namespace Sys2Proof.Machine

/-! The invariant in two forms: of an idle machine, and of one with a command in progress. -/

/-- What the invariant asks whatever the phase is. -/
structure Steady (s : State) : Prop where
  rctr_le : s.rctr.toNat ≤ 12
  rlimit_le : s.rlimit.toNat ≤ 12
  enum_nonzero : ∀ i : Fin 8, s.enumCur[i] ≠ 0
  enum_end : s.enumValid = false → s.enumCur = lastKey

/-- What STATUS says of a machine with no command in progress. -/
structure Idle (s : State) : Prop where
  busy : s.busy = false
  phase : s.phase = .idle
  done_err : ¬ (s.done = true ∧ s.err = true)
  err_code : s.err = true → s.errCode ≠ .none
  no_block_length : s.errCode ≠ .invalidBlockLength

/-- What STATUS says of a machine with a command in progress. -/
structure Running (s : State) : Prop where
  busy : s.busy = true
  done : s.done = false
  err : s.err = false
  errCode : s.errCode = .none

/-- What the invariant asks of a command in progress: the phase belongs to the command, and what the phase reads is in
its range. The boxes are named by their registers, so that a step that writes other fields carries them over as they
are. -/
inductive PhaseInv (s : State) : Prop
  | round (hp : s.phase.inRound = true) (ho : s.opl = .encrypt ∨ s.opl = .round)
      (hopen : s.rctr.toNat < s.rlimit.toNat) (hperm : Distinct8 (pboxOf s.pbox))
      (hsubst : Distinct16 (sboxOf s.sboxLo s.sboxHi))
  | pbox (hp : s.phase = .perm) (ho : s.opl = .pbox) (hleft : s.piter ≠ 0) (hperm : Distinct8 (pboxOf s.pbox))
  | compress (hp : s.phase = .comp) (ho : s.opl = .compress) (hround : s.rctr.toNat ≤ 11)
  | sample (hp : s.phase = .sample) (ho : s.opl = .randperm ∨ s.opl = .randsbox ∨ s.opl = .randpbox)
      (hsampler : SamplerInv s) (hcnt : s.cnt.toNat < s.sn.toNat)
  | writeback (hp : s.phase = .wb)
      (hsampled : (s.opl = .randperm ∨ s.opl = .randsbox ∨ s.opl = .randpbox) → SamplerInv s ∧ s.cnt = s.sn)

theorem Inv.steady {s : State} (h : Inv s) : Steady s := ⟨h.rctr_le, h.rlimit_le, h.enum_nonzero, h.enum_end⟩

theorem Inv.idle {s : State} (h : Inv s) (hb : s.busy = false) : Idle s :=
  ⟨hb, by simpa [hb] using h.busy_iff, h.done_err, h.err_code, h.no_block_length⟩

theorem Inv.running {s : State} (h : Inv s) (hb : s.busy = true) : Running s := by
  obtain ⟨hd, he, hc⟩ := h.busy_clear hb
  exact ⟨hb, hd, he, hc⟩

/-- A command in progress in one of the phases of a round is ENCRYPT, ROUND, COMPRESS or PBOX. -/
theorem phaseAllows_inRound {p : Phase} {op : Op} (h : phaseAllows p op = true) (hp : p.inRound = true) :
    (op = .encrypt ∨ op = .round) ∨ (p = .comp ∧ op = .compress) ∨ (p = .perm ∧ op = .pbox) := by
  cases p <;> cases op <;> simp_all [phaseAllows, Phase.inRound]

theorem Inv.phaseInv {s : State} (h : Inv s) (hb : s.busy = true) : PhaseInv s := by
  have hidle : s.phase ≠ .idle := h.busy_iff.mp hb
  cases hr : s.phase.inRound with
  | true =>
    obtain ho | ⟨hp, ho⟩ | ⟨hp, ho⟩ := phaseAllows_inRound h.phase_op hr
    · exact .round hr ho (h.round_open hr ho) (h.perm_ok hr (ho.imp_right .inl)) (h.subst_ok hr ho)
    · exact .compress hp ho (h.compress_round hp ho)
    · exact .pbox hp ho (h.pbox_left hp ho) (h.perm_ok hr (.inr (.inr ho)))
  | false =>
    have hop := h.phase_op
    cases hp : s.phase with
    | wb => exact .writeback hp (h.sampled hp)
    | sample =>
      obtain ⟨hsampler, hcnt⟩ := h.sampling hp
      exact .sample hp (by simpa [phaseAllows, hp, or_assoc] using hop) hsampler hcnt
    | idle => exact absurd hp hidle
    | perm | comp | sub1 | bperm | sub2 | fb => simp [hp, Phase.inRound] at hr

theorem Idle.inv {s : State} (h : Idle s) (hs : Steady s) : Inv s := by
  obtain ⟨hb, hp, hde, hec, hnb⟩ := h
  obtain ⟨hrctr, hrlimit, henum, hend⟩ := hs
  constructor <;> simp_all [phaseAllows, Phase.inRound]

theorem Running.inv {s : State} (h : Running s) (hs : Steady s) (hphase : PhaseInv s) : Inv s := by
  obtain ⟨hb, hd, he, hc⟩ := h
  obtain ⟨hrctr, hrlimit, henum, hend⟩ := hs
  cases hphase with
  | round hp ho hopen hperm hsubst =>
    obtain ⟨hidle, hsample, hwb⟩ : s.phase ≠ .idle ∧ s.phase ≠ .sample ∧ s.phase ≠ .wb := by
      refine ⟨?_, ?_, ?_⟩ <;> rintro h <;> simp [h, Phase.inRound] at hp
    have hop : phaseAllows s.phase s.opl = true := by
      cases h : s.phase <;> rcases ho with ho | ho <;> simp_all [phaseAllows]
    obtain ⟨hcompress, hpbox⟩ : s.opl ≠ .compress ∧ s.opl ≠ .pbox := by rcases ho with ho | ho <;> simp [ho]
    constructor
    case perm_ok => exact fun _ _ => hperm
    case subst_ok => exact fun _ _ => hsubst
    all_goals simp_all
  | pbox hp ho hleft hperm =>
    constructor
    case perm_ok => exact fun _ _ => hperm
    all_goals simp_all [phaseAllows]
  | compress hp ho hround => constructor <;> simp_all [phaseAllows]
  | sample hp ho hsampler hcnt =>
    have hop : phaseAllows s.phase s.opl = true := by simpa [hp, phaseAllows, or_assoc] using ho
    constructor <;> simp_all [Phase.inRound]
  | writeback hp hsampled => constructor <;> simp_all [phaseAllows, Phase.inRound]

/-! The sampler's part (R44, R110, R111). -/

/-- The sampler's part reads the sampler's fields and the latched command only. -/
theorem SamplerInv.congr {s t : State} (h : SamplerInv s) (hsn : t.sn = s.sn) (hsw : t.sw = s.sw) (hop : t.opl = s.opl)
    (hcnt : t.cnt = s.cnt) (hbuf : t.buf = s.buf) (hseen : t.seen = s.seen) : SamplerInv t := by
  obtain ⟨hsize, hsizeop, hle, hlt, hinj, hiff⟩ := h
  constructor
  · rwa [hsn, hsw]
  · rwa [hop, hsn]
  · rwa [hcnt, hsn]
  · rwa [hcnt, hbuf, hsn]
  · rwa [hcnt, hbuf]
  · rwa [hcnt, hbuf, hseen]

theorem SamplerInv.size_le {s : State} (h : SamplerInv s) : s.sn.toNat ≤ 16 := by
  rcases h.size with ⟨hsn, -⟩ | ⟨hsn, -⟩ <;> simp [hsn]

/-- A draw is the sample's value below 2^w (R231). -/
theorem draw_toNat (w : BitVec 3) (d : Nibble) : (draw w d).toNat = d.toNat % 2 ^ w.toNat := by
  revert w d
  decide

/-- With the width that belongs to the size, a draw is below the size. -/
theorem SamplerInv.draw_lt {s : State} (h : SamplerInv s) (d : Nibble) : (draw s.sw d).toNat < s.sn.toNat := by
  rw [draw_toNat]
  rcases h.size with ⟨hsn, hsw⟩ | ⟨hsn, hsw⟩ <;> rw [hsn, hsw]
  · exact Nat.mod_lt _ (by decide)
  · exact Nat.mod_lt _ (by decide)

/-- A collected value stands at its entry of BUF, and the other entries stay. -/
theorem collect_buf (d : Nibble) (e : Fin 16) (s : State) (j : Fin 16) :
    (collect d e s).buf[j] = if j = e then d else s.buf[j] := by
  simp [collect, Vector.getElem_set, Fin.ext_iff, eq_comm]

/-- A collected value is marked in SEEN, and the other marks stay. -/
theorem collect_seen (d : Nibble) (e : Fin 16) (s : State) (v : Fin 16) :
    (collect d e s).seen.getLsbD v.val = (s.seen.getLsbD v.val || decide (v.val = d.toNat)) := by
  have hbit : ((1 : BitVec 16) <<< d.toNat).getLsbD v.val = decide (v.val = d.toNat) := by
    calc ((1 : BitVec 16) <<< d.toNat).getLsbD v.val
        = (decide (d.toNat < 16) && decide (d.toNat = v.val)) := BitVec.getLsbD_twoPow _ _
      _ = decide (v.val = d.toNat) := by
        rw [decide_eq_true (show d.toNat < 16 from d.isLt), Bool.true_and]
        exact decide_eq_decide.mpr eq_comm
  rw [← hbit]
  exact BitVec.getLsbD_or

/-- Collecting a value below the size that was not seen before keeps the sampler's part. -/
theorem SamplerInv.collect {s : State} (h : SamplerInv s) {d : Nibble} (hd : d.toNat < s.sn.toNat)
    (hnew : s.seen.getLsbD d.toNat = false) (hroom : s.cnt.toNat < s.sn.toNat) (hc : s.cnt.toNat < 16) :
    SamplerInv (collect d ⟨s.cnt.toNat, hc⟩ s) := by
  have hcnt : (Machine.collect d ⟨s.cnt.toNat, hc⟩ s).cnt.toNat = s.cnt.toNat + 1 := by
    simp only [Machine.collect]
    bv_omega
  have hfresh (j : Fin 16) (hj : j.val < s.cnt.toNat) : s.buf[j] ≠ d := fun he => by
    have := (h.seen_iff ⟨d.toNat, d.isLt⟩).mpr ⟨j, hj, by rw [he]⟩
    simp [hnew] at this
  refine ⟨h.size, h.size_of_op, ?_, fun j hj => ?_, fun i j hi hj hij => ?_, fun v => ?_⟩
  · rw [hcnt]
    exact hroom
  · rw [hcnt] at hj
    rw [collect_buf]
    split_ifs with he
    · exact hd
    · exact h.entry_lt j (by grind)
  · rw [hcnt] at hi hj
    rw [collect_buf, collect_buf] at hij
    split_ifs at hij with hie hje hje
    · rw [hie, hje]
    · exact absurd hij.symm (hfresh j (by grind))
    · exact absurd hij (hfresh i (by grind))
    · exact h.entry_inj i j (by grind) (by grind) hij
  · rw [collect_seen, Bool.or_eq_true, h.seen_iff, hcnt, decide_eq_true_eq]
    simp only [collect_buf]
    constructor
    · rintro (⟨j, hj, hv⟩ | hv)
      · exact ⟨j, by omega, by rw [if_neg (by grind)]; exact hv⟩
      · exact ⟨⟨s.cnt.toNat, hc⟩, by simp, by simp [hv]⟩
    · rintro ⟨j, hj, hv⟩
      split_ifs at hv with he
      · exact .inr hv.symm
      · exact .inl ⟨j, by grind, hv⟩

/-! Reset, errors, and accesses of the host. -/

/-- Settles O54: the reset state is idle, with every counter at 0 and the enumerator at its first tuple. -/
theorem resetMeetsTheInvariant : Obligations.ResetMeetsTheInvariant :=
  Idle.inv ⟨rfl, rfl, by decide, by decide, by decide⟩ ⟨by decide, by decide, by decide, by decide⟩

/-- Both parts of an idle machine's invariant, and of a running one's, are kept by a step that changes none of what they
read. -/
theorem Inv.congr {s t : State} (h : Inv s) (ht : t = { s with
    irqEn := t.irqEn, strictKey := t.strictKey, wbusy := t.wbusy, schedule := t.schedule, rngIn := t.rngIn
    rdata := t.rdata }) : Inv t := by
  cases hb : s.busy with
  | false =>
    obtain ⟨-, hp, hde, hec, hnb⟩ := h.idle hb
    obtain ⟨hrctr, hrlimit, henum, hend⟩ := h.steady
    rw [ht]
    exact Idle.inv ⟨hb, hp, hde, hec, hnb⟩ ⟨hrctr, hrlimit, henum, hend⟩
  | true =>
    obtain ⟨-, hd, he, hc⟩ := h.running hb
    obtain ⟨hrctr, hrlimit, henum, hend⟩ := h.steady
    rw [ht]
    refine Running.inv ⟨hb, hd, he, hc⟩ ⟨hrctr, hrlimit, henum, hend⟩ ?_
    cases h.phaseInv hb with
    | round hp ho hopen hperm hsubst => exact .round hp ho hopen hperm hsubst
    | pbox hp ho hleft hperm => exact .pbox hp ho hleft hperm
    | compress hp ho hround => exact .compress hp ho hround
    | sample hp ho hsampler hcnt => exact .sample hp ho (hsampler.congr rfl rfl rfl rfl rfl rfl) hcnt
    | writeback hp hsampled =>
      exact .writeback hp fun ho => ⟨(hsampled ho).1.congr rfl rfl rfl rfl rfl rfl, (hsampled ho).2⟩

/-- An error that is raised leaves the machine idle (R203). -/
theorem Steady.inv_raise {s : State} (h : Steady s) {code : ErrCode} (hc : code ≠ .none)
    (hb : code ≠ .invalidBlockLength) : Inv (raise code s) :=
  Idle.inv ⟨rfl, rfl, by simp, fun _ => hc, hb⟩ ⟨h.rctr_le, h.rlimit_le, h.enum_nonzero, h.enum_end⟩

/-! The accept of a command (R171, R172). -/

/-- No error at accept means that every check passes. -/
theorem acceptError_eq_none {i : Instr} {s : State} (h : acceptError i s = none) :
    (usesPbox i = true → Distinct8 s.perm) ∧ (usesSbox i = true → Distinct16 s.subst) ∧ roundTooLarge i = false ∧
      ownError i s = none := by
  unfold acceptError at h
  split_ifs at h with hperm hsubst hround hkey
  exact ⟨fun hu => by_contra fun hd => hperm ⟨hu, hd⟩, fun hu => by_contra fun hd => hsubst ⟨hu, hd⟩,
    Bool.eq_false_of_not_eq_true hround, h⟩

/-- The low four bits of a round count or index are its value. -/
theorem truncate_toNat {a : Byte} (h : a.toNat ≤ 12) : (a.truncate 4).toNat = a.toNat :=
  (BitVec.toNat_setWidth 4 a).trans (Nat.mod_eq_of_lt (by omega))

/-- The sampler starts with its size's width, and has collected nothing. -/
theorem startSampler_samplerInv {n : Byte} {s : State} (hn : n = 8 ∨ n = 16) (hsbox : s.opl = .randsbox → n = 16)
    (hpbox : s.opl = .randpbox → n = 8) : SamplerInv (startSampler n s) where
  size := by rcases hn with rfl | rfl <;> simp [startSampler, start]
  size_of_op := ⟨fun h => by rw [hsbox h]; rfl, fun h => by rw [hpbox h]; rfl⟩
  count_le := Nat.zero_le _
  entry_lt := fun j hj => absurd hj (Nat.not_lt_zero _)
  entry_inj := fun i j hi => absurd hi (Nat.not_lt_zero _)
  seen_iff := by simp [startSampler, start]

theorem startSampler_phaseInv {n : Byte} {s : State} (ho : s.opl = .randperm ∨ s.opl = .randsbox ∨ s.opl = .randpbox)
    (hn : n = 8 ∨ n = 16) (hsbox : s.opl = .randsbox → n = 16) (hpbox : s.opl = .randpbox → n = 8) :
    PhaseInv (startSampler n s) := by
  refine .sample rfl ho (startSampler_samplerInv hn hsbox hpbox) ?_
  rcases hn with rfl | rfl <;> simp [startSampler, start]

/-- A command that is accepted starts in a phase of its own, with what the phase reads in range. -/
theorem initOf_phaseInv {i : Instr} {s : State} (h : acceptError i s = none) :
    PhaseInv (initOf i (latchedFor i s)) := by
  obtain ⟨hperm, hsubst, hround, hown⟩ := acceptError_eq_none h
  cases i with
  | encrypt a =>
    by_cases ha : a = 0
    · exact .writeback (if_pos ha) (by rintro (h | h | h) <;> cases h)
    · have hle : a.toNat ≤ 12 := by simpa [roundTooLarge] using hround
      have hp : (initOf (.encrypt a) (latchedFor (.encrypt a) s)).phase = .perm := if_neg ha
      refine .round (by rw [hp]; rfl) (.inl rfl) ?_ (hperm rfl) (hsubst rfl)
      change 0 < (a.truncate 4).toNat
      rw [truncate_toNat hle]
      bv_omega
  | round a =>
    have hle : a.toNat ≤ 11 := by simpa [roundTooLarge] using hround
    refine .round rfl (.inr rfl) ?_ (hperm rfl) (hsubst rfl)
    change (a.truncate 4).toNat < (a.truncate 4 + 1).toNat
    have := truncate_toNat (a := a) (by omega)
    bv_omega
  | compress a =>
    have hle : a.toNat ≤ 11 := by simpa [roundTooLarge] using hround
    exact .compress rfl rfl ((truncate_toNat (by omega)).trans_le hle)
  | pbox n =>
    by_cases hn : n = 0
    · exact .writeback (if_pos hn) (by rintro (h | h | h) <;> cases h)
    · exact .pbox (if_neg hn) rfl hn (hperm rfl)
  | randperm n =>
    have hn : n = 8 ∨ n = 16 := or_iff_not_imp_left.mpr (by simpa [ownError] using hown)
    exact startSampler_phaseInv (.inl rfl) hn (by rintro ⟨⟩) (by rintro ⟨⟩)
  | randsbox => exact startSampler_phaseInv (.inr (.inl rfl)) (.inr rfl) (fun _ => rfl) (by rintro ⟨⟩)
  | randpbox => exact startSampler_phaseInv (.inr (.inr rfl)) (.inl rfl) (by rintro ⟨⟩) (fun _ => rfl)
  | nop | sbox | pboxbit | enumReset | enumNext | tableRead =>
    exact .writeback rfl (by rintro (h | h | h) <;> cases h)

/-- It starts with RCTR and RLIMIT in range. -/
theorem initOf_steady {i : Instr} {s : State} (hs : Steady s) (h : acceptError i s = none) :
    Steady (initOf i (latchedFor i s)) := by
  obtain ⟨-, -, hround, -⟩ := acceptError_eq_none h
  obtain ⟨hrctr, hrlimit, henum, hend⟩ := hs
  cases i with
  | encrypt a =>
    have hle : a.toNat ≤ 12 := by simpa [roundTooLarge] using hround
    exact ⟨Nat.zero_le _, (truncate_toNat hle).trans_le hle, henum, hend⟩
  | round a =>
    have hle : a.toNat ≤ 11 := by simpa [roundTooLarge] using hround
    have hlow := truncate_toNat (a := a) (by omega)
    refine ⟨hlow.trans_le (by omega), ?_, henum, hend⟩
    change (a.truncate 4 + 1).toNat ≤ 12
    bv_omega
  | compress a =>
    have hle : a.toNat ≤ 11 := by simpa [roundTooLarge] using hround
    exact ⟨(truncate_toNat (by omega)).trans_le (by omega), hrlimit, henum, hend⟩
  | nop | sbox | pbox | pboxbit | randperm | randsbox | randpbox | enumReset | enumNext | tableRead =>
    exact ⟨hrctr, hrlimit, henum, hend⟩

/-- It is in progress, with the status cleared (R171). -/
theorem initOf_running (i : Instr) (s : State) : Running (initOf i (latchedFor i s)) := by
  rw [(initOf_frame i (latchedFor i s)).2]
  exact ⟨rfl, rfl, rfl, rfl⟩

/-- A code that a command raises at accept is a check's. -/
theorem acceptError_code {i : Instr} {s : State} {code : ErrCode} (h : acceptError i s = some code) :
    code ≠ .none ∧ code ≠ .invalidBlockLength := by
  obtain ⟨c, hm, -, rfl⟩ := firstFailure_mem ((firstFailure_checksOf i s).trans h)
  exact checksOf_code hm

/-- Presenting a command keeps the invariant. -/
theorem Inv.exec {i : Instr} {s t : State} (h : Inv s) (he : exec i s = .next t) : Inv t := by
  cases hb : s.busy with
  | true =>
    rw [exec_busy i hb] at he
    cases he
    exact h.congr rfl
  | false =>
    have hs : Steady (latchedFor i s) := ⟨h.rctr_le, h.rlimit_le, h.enum_nonzero, h.enum_end⟩
    cases hc : acceptError i s with
    | some code =>
      rw [exec_rejected hb ((firstFailure_checksOf i s).trans hc)] at he
      cases he
      obtain ⟨hnone, hlength⟩ := acceptError_code hc
      exact hs.inv_raise hnone hlength
    | none =>
      rw [exec_started hb ((firstFailure_checksOf i s).trans hc)] at he
      cases he
      exact (initOf_running i s).inv (initOf_steady h.steady hc) (initOf_phaseInv hc)

theorem Inv.writeCmd {w : Word} {s t : State} (h : Inv s) (hw : writeCmd w s = .next t) : Inv t := by
  rcases writeCmd_cases hw with ⟨-, rfl⟩ | ⟨-, i, -, he⟩ | ⟨-, rfl⟩
  · exact h.congr rfl
  · exact h.exec he
  · have hs : Steady (clearStatus s) := ⟨h.rctr_le, h.rlimit_le, h.enum_nonzero, h.enum_end⟩
    exact hs.inv_raise (by decide) (by decide)

/-- Clearing flags of STATUS keeps the invariant: while a command is in progress, DONE and ERR are clear already. -/
theorem Inv.writeStatus {s : State} (h : Inv s) (v : Word) : Inv (writeStatus v s) := by
  cases hb : s.busy with
  | true =>
    obtain ⟨-, hd, he, -⟩ := h.running hb
    refine h.congr ?_
    simp only [Machine.writeStatus, hd, he, Bool.false_and]
  | false =>
    obtain ⟨-, hp, hde, hec, hnb⟩ := h.idle hb
    refine Idle.inv ⟨hb, hp, ?_, ?_, hnb⟩ ⟨h.rctr_le, h.rlimit_le, h.enum_nonzero, h.enum_end⟩
    · rintro ⟨hd, he⟩
      exact hde ⟨(Bool.and_eq_true_iff.mp hd).1, (Bool.and_eq_true_iff.mp he).1⟩
    · exact fun he => hec (Bool.and_eq_true_iff.mp he).1

/-- A host write keeps the invariant: a data register is written only while no command applies it. -/
theorem Inv.writeWindow {s t : State} {offset : BitVec 8} {v : Word} (h : Inv s)
    (hw : writeWindow s offset v = .next t) : Inv t := by
  rcases writeWindow_cases hw with rfl | ⟨-, rfl⟩ | ⟨-, rfl⟩ | ⟨-, hc⟩ | ⟨-, -, rfl⟩ | ⟨hb, hd⟩
  · exact h
  · exact h.congr rfl
  · exact h.writeStatus v
  · exact h.writeCmd hc
  · exact h.congr rfl
  · obtain ⟨-, hp, hde, hec, hnb⟩ := h.idle hb
    rcases hd with ⟨-, rfl⟩ | ⟨-, rfl⟩ | ⟨-, rfl⟩ | ⟨-, rfl⟩ | ⟨-, rfl⟩ | ⟨-, rfl⟩ <;>
      exact Idle.inv ⟨hb, hp, hde, hec, hnb⟩ ⟨h.rctr_le, h.rlimit_le, h.enum_nonzero, h.enum_end⟩

/-! The core steps (R187). -/

/-- A core step that is no writeback keeps the status, or raises DegenerateInverseLookup in COMP. -/
theorem coreStep_status {s t : State} (h : coreStep s = .next t) (hp : s.phase ≠ .wb) :
    (s.phase = .comp ∧ t = raise .degenerateInverseLookup s) ∨
    (t.busy = s.busy ∧ t.done = s.done ∧ t.err = s.err ∧ t.errCode = s.errCode) := by
  cases hb : s.busy with
  | false =>
    rw [coreStep_idle hb] at h
    cases h
    exact .inr ⟨hb, rfl, rfl, rfl⟩
  | true =>
    rcases coreStep_cases hb h with
      ⟨-, rfl⟩ | ⟨hcomp, hc⟩ | ⟨-, rfl⟩ | ⟨-, rfl⟩ | ⟨-, rfl⟩ | ⟨-, rfl⟩ | ⟨hwb, -⟩ | ⟨-, hs⟩
    · rw [permStep_frame]
      exact .inr ⟨hb, rfl, rfl, rfl⟩
    · rcases compStep_cases hc with ⟨rfl, -⟩ | ht
      · exact .inl ⟨hcomp, rfl⟩
      · rw [ht]
        exact .inr ⟨hb, rfl, rfl, rfl⟩
    · exact .inr ⟨hb, rfl, rfl, rfl⟩
    · exact .inr ⟨hb, rfl, rfl, rfl⟩
    · exact .inr ⟨hb, rfl, rfl, rfl⟩
    · exact .inr ⟨hb, rfl, rfl, rfl⟩
    · exact absurd hwb hp
    · rw [sampleStep_frame hs]
      exact .inr ⟨hb, rfl, rfl, rfl⟩

/-- So the command is still in progress after it, or has ended with that error. -/
theorem Running.coreStep {s t : State} (h : Running s) (hc : coreStep s = .next t) (hp : s.phase ≠ .wb) :
    t = raise .degenerateInverseLookup s ∨ Running t := by
  obtain ⟨hb, hd, he, hcode⟩ := h
  rcases coreStep_status hc hp with ⟨-, rfl⟩ | ⟨htb, htd, hte, htc⟩
  · exact .inl rfl
  · exact .inr ⟨htb.trans hb, htd.trans hd, hte.trans he, htc.trans hcode⟩

/-- What a core step that keeps the round counter in range leaves of the rest. -/
theorem Steady.coreStep {s t : State} (h : Steady s) (hc : coreStep s = .next t) (hp : s.phase ≠ .wb)
    (hrctr : t.rctr.toNat ≤ 12) : Steady t := by
  obtain ⟨-, hrlimit, henum, hend⟩ := h
  have ht := coreStep_frame hc hp
  refine ⟨hrctr, ?_, ?_, ?_⟩ <;> rw [ht]
  · exact hrlimit
  · exact henum
  · exact hend

theorem permStep_phaseInv {s : State} (h : PhaseInv s) (hp : s.phase = .perm) : PhaseInv (permStep s) := by
  cases h with
  | round _ ho hopen hperm hsubst =>
    have hne : s.opl ≠ .pbox := by rcases ho with ho | ho <;> simp [ho]
    rw [permStep, if_neg hne]
    exact .round rfl ho hopen hperm hsubst
  | pbox _ ho _ hperm =>
    rw [permStep, if_pos ho]
    by_cases hleft : s.piter - 1 = 0
    · refine .writeback (if_pos hleft) fun h => ?_
      simp [ho] at h
    · exact .pbox (if_neg hleft) ho hleft hperm
  | compress h | sample h | writeback h => simp [hp] at h

theorem compStep_phaseInv {s t : State} (h : PhaseInv s) (hp : s.phase = .comp)
    (hc : compStep Config.tables s = .next t) :
    t = raise .degenerateInverseLookup s ∨ (PhaseInv t ∧ t.rctr = s.rctr) := by
  rcases compStep_cases hc with ⟨rfl, -⟩ | ht
  · exact .inl rfl
  · refine .inr ⟨?_, by rw [ht]⟩
    cases h with
    | round _ ho hopen hperm hsubst =>
      have hne : s.opl ≠ .compress := by rcases ho with ho | ho <;> simp [ho]
      have hround : (if s.bpos = 7 then (if s.opl = .compress then .wb else .sub1) else s.phase : Phase).inRound := by
        rw [hp, if_neg hne]
        split_ifs <;> rfl
      rw [ht]
      exact .round hround ho hopen hperm hsubst
    | compress _ ho hround =>
      rw [ht]
      by_cases h7 : s.bpos = 7
      · refine .writeback ((if_pos h7).trans (if_pos ho)) fun h => ?_
        simp [ho] at h
      · exact .compress ((if_neg h7).trans hp) ho hround
    | pbox h | sample h | writeback h => simp [hp] at h

/-- SUB1, BPERM and SUB2 go on to the next phase of the round. -/
theorem latchStep_phaseInv {s : State} (h : PhaseInv s) (hp : s.phase = .sub1 ∨ s.phase = .bperm ∨ s.phase = .sub2)
    {p : Phase} (hround : p.inRound = true) (b : Byte) : PhaseInv { s with t := b, phase := p } := by
  cases h with
  | round _ ho hopen hperm hsubst => exact .round hround ho hopen hperm hsubst
  | pbox h | compress h | sample h | writeback h => simp [h] at hp

theorem fbStep_phaseInv {s : State} (h : PhaseInv s) (hs : s.rlimit.toNat ≤ 12) (hp : s.phase = .fb) :
    PhaseInv (fbStep s) ∧ (fbStep s).rctr.toNat ≤ 12 := by
  cases h with
  | round _ ho hopen hperm hsubst =>
    have hnext : (s.rctr + 1).toNat = s.rctr.toNat + 1 := by bv_omega
    refine ⟨?_, hnext.trans_le (by omega)⟩
    by_cases hlast : s.rctr + 1 = s.rlimit
    · refine .writeback (if_pos hlast) fun h => ?_
      rcases ho with ho | ho <;> simp [fbStep, ho] at h
    · refine .round ?_ ho ?_ hperm hsubst
      · rw [fbStep, if_neg hlast]
        rfl
      · change (s.rctr + 1).toNat < s.rlimit.toNat
        bv_omega
  | pbox h | compress h | sample h | writeback h => simp [hp] at h

/-- The end of a SAMPLE step goes on sampling while fewer than SN values are collected. -/
theorem endSample_phaseInv {s : State} (ho : s.opl = .randperm ∨ s.opl = .randsbox ∨ s.opl = .randpbox)
    (h : SamplerInv s) : PhaseInv (endSample s) := by
  have hend : SamplerInv (endSample s) := h.congr rfl rfl rfl rfl rfl rfl
  by_cases hfull : s.cnt = s.sn
  · exact .writeback (if_pos hfull) fun _ => ⟨hend, hfull⟩
  · exact .sample (if_neg hfull) ho hend (lt_of_le_of_ne h.count_le fun he => hfull (BitVec.eq_of_toNat_eq he))

theorem sampleStep_phaseInv {s t : State} (h : PhaseInv s) (hp : s.phase = .sample) (hs : sampleStep s = .next t) :
    PhaseInv t := by
  cases h with
  | sample _ ho hsampler hcnt =>
    cases hin : s.rngIn with
    | nil =>
      rw [sampleStep_wait hin] at hs
      cases hs
      exact .sample hp ho hsampler hcnt
    | cons d rest =>
      have hnext : SamplerInv { s with rngIn := rest } := hsampler.congr rfl rfl rfl rfl rfl rfl
      cases hseen : s.seen.getLsbD (draw s.sw d).toNat with
      | true =>
        rw [sampleStep_seen hin hseen] at hs
        cases hs
        exact endSample_phaseInv ho hnext
      | false =>
        have hc : s.cnt.toNat < 16 := hcnt.trans_le hsampler.size_le
        rw [sampleStep_new hin hseen hc] at hs
        cases hs
        exact endSample_phaseInv ho (hnext.collect (hsampler.draw_lt d) hseen hcnt hc)
  | round h => simp [hp, Phase.inRound] at h
  | pbox h | compress h | writeback h => simp [hp] at h

/-- A writeback leaves the machine idle, and the enumerator at a tuple of nibbles 1 to 15 (R43, R118). -/
theorem Inv.writeback {s : State} (h : Inv s) (hb : s.busy = true) : Inv (writeback s) := by
  obtain ⟨-, -, he, hc⟩ := h.running hb
  obtain ⟨hrctr, hrlimit, henum, hend⟩ := h.steady
  rw [writeback_eq]
  refine Idle.inv ⟨rfl, rfl, fun hde => ?_, fun herr => ?_, ?_⟩ ⟨hrctr, hrlimit, fun i => ?_, fun hv => ?_⟩
  · exact Bool.false_ne_true (he.symm.trans hde.2)
  · exact absurd (he.symm.trans herr) Bool.false_ne_true
  · exact hc.trans_ne (by decide)
  · dsimp only [complete]
    split_ifs with hreset hnext
    · simp [firstKey]
    · exact succKey_ne_zero henum hnext.2 i
    · exact henum i
  · dsimp only [complete] at hv ⊢
    by_cases hreset : s.opl = .enumReset
    · simp [hreset] at hv
    · by_cases hlast : s.enumCur = lastKey
      · simp [hreset, hlast]
      · exact absurd (hend (by simpa [hreset, hlast] using hv)) hlast

/-- A core step keeps the invariant, phase by phase. -/
theorem Inv.coreStep {s t : State} (h : Inv s) (hc : coreStep s = .next t) : Inv t := by
  cases hb : s.busy with
  | false =>
    rw [coreStep_idle hb] at hc
    cases hc
    exact h
  | true =>
    have hinv := h.phaseInv hb
    by_cases hwb : s.phase = .wb
    · rw [coreStep_wb hb hwb] at hc
      cases hc
      exact h.writeback hb
    · rcases (h.running hb).coreStep hc hwb with rfl | hrun
      · exact h.steady.inv_raise (by decide) (by decide)
      · have hsteady := h.steady.coreStep hc hwb
        rcases coreStep_cases hb hc with
          ⟨hp, rfl⟩ | ⟨hp, hcomp⟩ | ⟨hp, rfl⟩ | ⟨hp, rfl⟩ | ⟨hp, rfl⟩ | ⟨hp, rfl⟩ | ⟨hp, rfl⟩ | ⟨hp, hs⟩
        · refine hrun.inv (hsteady ?_) (permStep_phaseInv hinv hp)
          rw [permStep_frame]
          exact h.rctr_le
        · rcases compStep_phaseInv hinv hp hcomp with rfl | ⟨hnext, hrctr⟩
          · exact h.steady.inv_raise (by decide) (by decide)
          · exact hrun.inv (hsteady (hrctr ▸ h.rctr_le)) hnext
        · exact hrun.inv (hsteady h.rctr_le) (latchStep_phaseInv hinv (.inl hp) rfl _)
        · exact hrun.inv (hsteady h.rctr_le) (latchStep_phaseInv hinv (.inr (.inl hp)) rfl _)
        · exact hrun.inv (hsteady h.rctr_le) (latchStep_phaseInv hinv (.inr (.inr hp)) rfl _)
        · obtain ⟨hnext, hrctr⟩ := fbStep_phaseInv hinv h.rlimit_le hp
          exact hrun.inv (hsteady hrctr) hnext
        · exact absurd hp hwb
        · refine hrun.inv (hsteady ?_) (sampleStep_phaseInv hinv hp hs)
          rw [sampleStep_frame hs]
          exact h.rctr_le

/-! Every step. -/

theorem pollStatus_inv {s : State} (h : Inv s) : Inv (pollStatus s) := by
  unfold pollStatus
  dsimp only
  split <;> exact h.congr rfl

/-- Settles O55: one case per event of a step (`step_cases`): the core's own step (`Inv.coreStep`), the reset, and the
host's accesses, of which a write may accept a command (`Inv.writeWindow`). -/
theorem everyStepKeepsTheInvariant : Obligations.EveryStepKeepsTheInvariant := by
  intro s t h hstep
  have htaken (rest : List Event) : Inv { s with schedule := rest } := h.congr rfl
  rcases step_cases hstep with ⟨-, hc⟩ | ⟨rest, -, hc⟩ | ⟨rest, -, rfl⟩ | ⟨rest, -, rfl⟩ |
    ⟨rest, offset, -, -, rfl⟩ | ⟨rest, offset, v, -, -, hw⟩
  · exact h.coreStep hc
  · exact (htaken rest).coreStep hc
  · exact resetMeetsTheInvariant.congr rfl
  · exact pollStatus_inv (htaken rest)
  · exact h.congr rfl
  · exact (htaken rest).writeWindow hw

/-! No fault (R38, R39, R44). -/

/-- Under the invariant the round counter is below 12 in COMP. -/
theorem Inv.comp_round {s : State} (h : Inv s) (hb : s.busy = true) (hp : s.phase = .comp) : s.rctr.toNat < 12 := by
  cases h.phaseInv hb with
  | round _ _ hopen => exact hopen.trans_le h.rlimit_le
  | compress _ _ hround => omega
  | pbox h | sample h | writeback h => simp [hp] at h

theorem compStep_next {tables : Aut64Tables} {s : State} (hr : s.rctr.toNat < 12) :
    ∃ t, compStep tables s = .next t := by
  by_cases h7 : s.bpos = 7
  · cases hterms : inverseTerms tables s.key ⟨s.rctr.toNat, hr⟩ s.work with
    | some terms => exact ⟨_, compStep_last hr h7 hterms⟩
    | none => exact ⟨_, compStep_degenerate hr h7 hterms⟩
  · exact ⟨_, compStep_forward hr h7⟩

theorem sampleStep_next {s : State} (hc : s.cnt.toNat < 16) : ∃ t, sampleStep s = .next t := by
  cases hin : s.rngIn with
  | nil => exact ⟨s, sampleStep_wait hin⟩
  | cons d rest =>
    cases hseen : s.seen.getLsbD (draw s.sw d).toNat with
    | true => exact ⟨_, sampleStep_seen hin hseen⟩
    | false => exact ⟨_, sampleStep_new hin hseen hc⟩

/-- Under the invariant a core step has a next state. -/
theorem coreStep_next_of_inv {s : State} (h : Inv s) : ∃ t, coreStep s = .next t := by
  cases hb : s.busy with
  | false => exact ⟨s, coreStep_idle hb⟩
  | true =>
    cases hp : s.phase with
    | idle => exact absurd hp (h.busy_iff.mp hb)
    | perm => exact ⟨_, coreStep_perm hb hp⟩
    | comp =>
      rw [coreStep_comp hb hp]
      exact compStep_next (h.comp_round hb hp)
    | sub1 => exact ⟨_, coreStep_sub1 hb hp⟩
    | bperm => exact ⟨_, coreStep_bperm hb hp⟩
    | sub2 => exact ⟨_, coreStep_sub2 hb hp⟩
    | fb => exact ⟨_, coreStep_fb hb hp⟩
    | wb => exact ⟨_, coreStep_wb hb hp⟩
    | sample =>
      rw [coreStep_sample hb hp]
      obtain ⟨hsampler, hcnt⟩ := h.sampling hp
      exact sampleStep_next (hcnt.trans_le hsampler.size_le)

theorem hostStep_ne_fault (op : HostOp) (s : State) (f : Fault) : hostStep op s ≠ .fault f := by
  cases op with
  | wait => simp [hostStep]
  | read offset width => cases hd : accessDefined offset width <;> simp [hostStep, hd]
  | write offset width v =>
    obtain ⟨t, ht⟩ := writeWindow_next s offset v
    cases hd : accessDefined offset width <;> simp [hostStep, hd, ht]

/-- Settles O56: of all events only a core step can fault, and under the invariant it has a next state
(`coreStep_next_of_inv`). -/
theorem aMachineThatMeetsTheInvariantNeverFaults : Obligations.AMachineThatMeetsTheInvariantNeverFaults := by
  refine ⟨fun s f h hf => ?_, fun s h => coreStep_next_of_inv h⟩
  cases hs : s.schedule with
  | nil =>
    obtain ⟨t, ht⟩ := coreStep_next_of_inv h
    simp [step_nil hs, ht] at hf
  | cons e rest =>
    cases e with
    | core =>
      have htaken : Inv { s with schedule := rest } := h.congr rfl
      obtain ⟨t, ht⟩ := coreStep_next_of_inv htaken
      simp [step_core hs, ht] at hf
    | rst => simp [step_rst hs] at hf
    | host op => exact hostStep_ne_fault op _ f ((step_host hs).symm.trans hf)

/-! The boxes that the sampler writes (R120). -/

/-- A nibble below 8 is its low three bits. -/
theorem eq_of_extractLsb'_eq {a b : Nibble} (ha : a.toNat < 8) (hb : b.toNat < 8)
    (h : a.extractLsb' 0 3 = b.extractLsb' 0 3) : a = b := by
  have := congrArg BitVec.toNat h
  simp only [BitVec.extractLsb'_toNat, Nat.shiftRight_zero] at this
  bv_omega

/-- Eight collected values below 8 make a bijective pbox. -/
theorem SamplerInv.distinct8 {s : State} (h : SamplerInv s) (hfull : s.cnt = s.sn) (hsn : s.sn = 8) :
    Distinct8 (pboxOfBuf s.buf) := by
  intro i j hij he
  have hcnt : s.cnt.toNat = 8 := by rw [hfull, hsn]; rfl
  have hlt (k : Fin 8) : s.buf[k.val].toNat < 8 := by
    simpa [hsn] using h.entry_lt (k.castLE (by decide)) (by simp [hcnt])
  have hbuf : s.buf[i.val] = s.buf[j.val] := eq_of_extractLsb'_eq (hlt i) (hlt j) (by simpa [pboxOfBuf] using he)
  have := h.entry_inj (i.castLE (by decide)) (j.castLE (by decide)) (by simp [hcnt]) (by simp [hcnt]) hbuf
  exact hij (by simpa [Fin.ext_iff] using this)

/-- Sixteen collected values make a bijective sbox. -/
theorem SamplerInv.distinct16 {s : State} (h : SamplerInv s) (hfull : s.cnt = s.sn) (hsn : s.sn = 16) :
    Distinct16 s.buf := by
  have hcnt : s.cnt.toNat = 16 := by rw [hfull, hsn]; rfl
  exact fun i j hij he => hij (h.entry_inj i j (by omega) (by omega) he)

/-- Settles O57: what is written back is what was collected (`writeback_perm`, `writeback_subst`), and the invariant
says that those values are distinct. -/
theorem theGeneratedBoxesAreBijections : Obligations.TheGeneratedBoxesAreBijections := by
  intro s t h hb hp ho hc
  obtain ⟨hsampler, hfull⟩ := h.sampled hp ho
  have hbox : s.opl ∈ writesBox := by simpa [writesBox] using ho
  rw [coreStep_wb hb hp] at hc
  cases hc
  rcases hsampler.size with ⟨hsn, -⟩ | ⟨hsn, -⟩
  · refine .inl ⟨hsn, ?_⟩
    rw [writeback_perm, if_pos ⟨hbox, hsn⟩]
    exact hsampler.distinct8 hfull hsn
  · refine .inr ⟨hsn, ?_⟩
    rw [writeback_subst, if_pos ⟨hbox, hsn⟩]
    exact hsampler.distinct16 hfull hsn

end Sys2Proof.Machine
end

section
/-! PROOFS of the statements about one host access, field by field (spec/10_state.md R22 to R31, spec/20_memory.md R54
to R56), about the events of a step (R58, R81, R170), and about reset (R46, R230). -/

namespace Sys2Proof.Machine

/-! The events of a step. -/

theorem writeCmd_of_ok {w : Word} {i : Instr} (h : decode w = .ok i) (s : State) : writeCmd w s = exec i s := by
  rw [writeCmd, h]

/-- A step on a write of a command's word to CMD presents that command (R170). -/
theorem step_writeCmd {s : State} {w : Word} {i : Instr} {rest : List Event}
    (hs : s.schedule = .host (.write Reg.cmd.offset 4 w) :: rest) (hw : decode w = .ok i) :
    step s = exec i { s with schedule := rest } :=
  (step_writeReg .cmd hs).trans (writeCmd_of_ok hw _)

/-- A word of 32 bits comes through `withFetchWord` whole. -/
theorem ofNat_toNat_mod (w : Word) : BitVec.ofNat 32 (w.toNat % 2 ^ 32) = w := by
  rw [Nat.mod_eq_of_lt w.isLt, BitVec.ofNat_toNat, BitVec.setWidth_eq]

/-- Settles O5: both are a step on a write to CMD (`step_writeCmd`); the second writes the command's own word, which
decodes to it. -/
theorem aStepOnACommandWriteRunsTheDecodedCommand : Obligations.AStepOnACommandWriteRunsTheDecodedCommand := by
  refine ⟨fun s w i rest hs hw => step_writeCmd hs hw, fun s i => ?_⟩
  rw [State.withFetchWord, ofNat_toNat_mod]
  exact step_writeCmd rfl (decodingAnEncodedCommandGivesItBack i)

/-- Settles O6: these are the two cases in which a step takes no host event (`step_nil`, `step_core`). -/
theorem aStepWithNoHostEventIsACoreStep : Obligations.AStepWithNoHostEventIsACoreStep :=
  ⟨fun _ => step_nil, fun _ _ => step_core⟩

/-- A poll with BUSY = 0 reads STATUS and ends the loop (R81). -/
theorem pollStatus_idle {s : State} (h : s.busy = false) : pollStatus s = { s with rdata := statusWord s } :=
  if_neg (by simp [h])

/-- A poll with BUSY = 1 reads STATUS and polls again after a core slot (R81). -/
theorem pollStatus_busy {s : State} (h : s.busy = true) : pollStatus s =
    { s with rdata := statusWord s, schedule := .core :: .host .wait :: s.schedule } :=
  if_pos h

/-- Settles O15: a step on `wait` is a poll, which tests BUSY (`pollStatus_idle`, `pollStatus_busy`). -/
theorem theWaitLoopEndsAfterTheFirstReadWithBusyZero :
    Obligations.TheWaitLoopEndsAfterTheFirstReadWithBusyZero := by
  intro s rest hs
  have hread : readWindow s 0x04 = statusWord s := readWindow_offset s .status
  refine ⟨fun hb => ?_, fun hb => ?_⟩ <;> rw [step_host hs, hread]
  · exact congrArg Host.Outcome.next (pollStatus_idle hb)
  · exact congrArg Host.Outcome.next (pollStatus_busy hb)

/-! Reset (R46, R230). -/

theorem readWindow_ctrl_assertReset (s : State) : readWindow (assertReset s) Reg.ctrl.offset = 0 := by
  have hreset : ctrlWord State.reset = 0 := by decide
  exact (readWindow_offset _ .ctrl).trans hreset

theorem readWindow_status_assertReset (s : State) : readWindow (assertReset s) Reg.status.offset = 0 := by
  have hreset : statusWord State.reset = 0 := by decide
  exact (readWindow_offset _ .status).trans hreset

/-- Settles O51: the step of a reset is `assertReset` (`step_rst`), whose fields are those of the reset state. -/
theorem resetGivesEveryRegisterItsListedValue : Obligations.ResetGivesEveryRegisterItsListedValue :=
  fun _ _ hs => ⟨_, step_rst hs, rfl, rfl, readWindow_ctrl_assertReset _, readWindow_status_assertReset _, rfl, rfl,
    rfl, rfl, rfl, rfl, rfl, rfl, rfl, rfl, rfl, rfl, rfl, packNibbles_firstKey, rfl, rfl, rfl, rfl, rfl, rfl, rfl⟩

/-! Reads (R22 to R28, R54). -/

/-- Settles O9: a read changes nothing but the value read (`step_read`), and each register's own read says what it
is. -/
theorem aReadReturnsItsRegisterAndChangesNothing : Obligations.AReadReturnsItsRegisterAndChangesNothing := by
  refine ⟨fun s offset rest hs ha => step_read hs ha, fun s => ⟨?_, ?_, ?_, ?_, ?_, ?_, ?_, ?_, fun i => ?_⟩⟩
  · exact readWindow_offset s .cmd
  · exact readWindow_offset s .result
  · exact readWindow_offset s .blockLo
  · exact readWindow_offset s .blockHi
  · exact readWindow_offset s .keyReg
  · exact readWindow_offset s .pbox
  · exact readWindow_offset s .sboxLo
  · exact readWindow_offset s .sboxHi
  · rw [show readWindow s 0x28 = packNibbles s.enumCur from readWindow_offset s .enum]
    exact nibbleOf_packNibbles s.enumCur i

/-! CTRL and STATUS (R29, R31). -/

theorem ctrlWord_strictKey (s : State) : (ctrlWord s).getLsbD 1 = s.strictKey := by
  simp [ctrlWord, flagAt]

theorem statusWord_busy (s : State) : (statusWord s).getLsbD 0 = s.busy := by
  simp [statusWord, flagAt]

theorem statusWord_wbusy (s : State) : (statusWord s).getLsbD 8 = s.wbusy := by
  simp [statusWord, flagAt]

theorem statusWord_errCode (s : State) : (statusWord s).extractLsb' 4 4 = s.errCode.code := by
  refine BitVec.eq_of_getLsbD_eq fun j hj => ?_
  interval_cases j <;> simp [statusWord, flagAt]

theorem statusWord_phase (s : State) : (statusWord s).extractLsb' 12 4 = s.phase.code := by
  refine BitVec.eq_of_getLsbD_eq fun j hj => ?_
  interval_cases j <;> simp [statusWord, flagAt]

theorem statusWord_rctr (s : State) : (statusWord s).extractLsb' 16 4 = s.rctr := by
  refine BitVec.eq_of_getLsbD_eq fun j hj => ?_
  interval_cases j <;> simp [statusWord, flagAt]

theorem statusWord_bpos (s : State) : (statusWord s).extractLsb' 20 3 = s.bpos := by
  refine BitVec.eq_of_getLsbD_eq fun j hj => ?_
  interval_cases j <;> simp [statusWord, flagAt]

/-- Settles O10: the fields as the two words pack them; the writes as O12 states them. -/
theorem controlAndStatusReadAndWriteFieldByField : Obligations.ControlAndStatusReadAndWriteFieldByField := by
  intro s
  rw [show readWindow s 0x00 = ctrlWord s from readWindow_offset s .ctrl,
    show readWindow s 0x04 = statusWord s from readWindow_offset s .status]
  refine ⟨ctrlWord_irqEn s, ctrlWord_strictKey s, statusWord_busy s, statusWord_done s, statusWord_err s,
    statusWord_errCode s, statusWord_wbusy s, statusWord_enumExh s, statusWord_phase s, statusWord_rctr s,
    statusWord_bpos s, fun v rest => ⟨fun hs => ?_, fun hs => ?_⟩⟩
  · obtain ⟨-, hctrl, -, -⟩ := hostWritesToOperandsWhileBusyAreDropped s 0x00 v rest hs
    exact hctrl rfl
  · obtain ⟨-, -, hstatus, -⟩ := hostWritesToOperandsWhileBusyAreDropped s 0x04 v rest hs
    exact hstatus rfl

/-! Writes of the data registers with BUSY = 0 (R22 to R25, R55, R56). -/

/-- Bytes 0 to 3 of the block are BLOCK_LO's, bytes 4 to 7 are BLOCK_HI's. -/
theorem blockOf_getElem (lo hi : Word) (i : Fin 8) : (blockOf lo hi)[i] =
    if i.val < 4 then lo.extractLsb' (8 * i.val) 8 else hi.extractLsb' (8 * (i.val - 4)) 8 := by
  fin_cases i <;> rfl

/-- Entries 0 to 7 of the sbox are SBOX_LO's, entries 8 to 15 are SBOX_HI's. -/
theorem sboxOf_getElem (lo hi : Word) (j : Fin 16) : (sboxOf lo hi)[j] =
    if j.val < 8 then lo.extractLsb' (4 * j.val) 4 else hi.extractLsb' (4 * (j.val - 8)) 4 := by
  simp [sboxOf, nibbleOf]

theorem keyOf_getElem (w : Word) (i : Fin 8) : (keyOf w)[i] = w.extractLsb' (4 * i.val) 4 := by
  simp [keyOf, nibbleOf]

/-- PBOX takes the low 24 bits of the value written, which hold all of its entries. -/
theorem pboxOf_extractLsb'_getElem (v : Word) (i : Fin 8) :
    (pboxOf (v.extractLsb' 0 24))[i] = v.extractLsb' (3 * i.val) 3 := by
  simp only [pboxOf, Fin.getElem_fin, Vector.getElem_ofFn]
  ext j hj
  simp [show 3 * i.val + j < 24 by omega]

/-- A step on a write of a data register with BUSY = 0 is that write. -/
theorem step_writeData_idle {s : State} {v : Word} {rest : List Event} (r : Reg) {write : State → State}
    (hr : writeReg { s with schedule := rest } v r = .next (writeData write { s with schedule := rest }))
    (hb : s.busy = false) (hs : s.schedule = .host (.write r.offset 4 v) :: rest) :
    step s = .next (write { s with schedule := rest }) := by
  rw [step_writeReg r hs, hr]
  exact congrArg Host.Outcome.next (writeData_idle hb)

/-- Settles O13: each is the register's write with BUSY = 0 (`step_writeData_idle`), and its elements are those that the
register packs. -/
theorem hostWritesWhenIdleSetOnlyTheirRegister : Obligations.HostWritesWhenIdleSetOnlyTheirRegister := by
  intro s v rest hb
  refine ⟨fun hs => ⟨_, step_writeData_idle .blockLo rfl hb hs, rfl, fun i => ?_⟩,
    fun hs => ⟨_, step_writeData_idle .blockHi rfl hb hs, rfl, fun i => ?_⟩,
    fun hs => ⟨_, step_writeData_idle .keyReg rfl hb hs, rfl, keyOf_getElem v⟩,
    fun hs => ⟨_, step_writeData_idle .pbox rfl hb hs, ?_, fun i => ?_⟩,
    fun hs => ⟨_, step_writeData_idle .sboxLo rfl hb hs, rfl, fun j => ?_⟩,
    fun hs => ⟨_, step_writeData_idle .sboxHi rfl hb hs, rfl, fun j => ?_⟩⟩
  · rw [State.block, State.block, blockOf_getElem, blockOf_getElem]
    split_ifs <;> rfl
  · rw [State.block, State.block, blockOf_getElem, blockOf_getElem]
    split_ifs <;> rfl
  · rw [BitVec.truncate, BitVec.setWidth_eq_extractLsb' (by decide)]
  · rw [State.perm, BitVec.truncate, BitVec.setWidth_eq_extractLsb' (by decide)]
    exact pboxOf_extractLsb'_getElem v i
  · rw [State.subst, State.subst, sboxOf_getElem, sboxOf_getElem]
    split_ifs <;> rfl
  · rw [State.subst, State.subst, sboxOf_getElem, sboxOf_getElem]
    split_ifs <;> rfl

end Sys2Proof.Machine
end

section
/-! PROOFS of the statements about accept (spec/44_sequencer.md R170 to R172, spec/60_exceptions.md R203, R205). -/

namespace Sys2Proof.Machine

/-- Settles O16: presenting a command drops it, raises a code, or initialises it (`exec_cases`), and the initialisation
writes internal elements only (`initOf_frame`). -/
theorem presentingACommandChangesNoDataRegister : Obligations.PresentingACommandChangesNoDataRegister := by
  intro i s t h
  rcases exec_cases h with ⟨hb, rfl⟩ | ⟨-, code, -, rfl⟩ | ⟨-, rfl⟩
  · refine ⟨rfl, rfl, rfl, rfl, rfl, rfl, rfl, rfl, rfl, rfl, rfl, rfl, rfl, rfl, rfl, fun hidle => ?_⟩
    simp [hb] at hidle
  · exact ⟨rfl, rfl, rfl, rfl, rfl, rfl, rfl, rfl, rfl, rfl, rfl, rfl, rfl, rfl, rfl, fun _ => rfl⟩
  · rw [(initOf_frame i _).2]
    exact ⟨rfl, rfl, rfl, rfl, rfl, rfl, rfl, rfl, rfl, rfl, rfl, rfl, rfl, rfl, rfl, fun _ => rfl⟩

/-- An accept with BUSY = 0 does not depend on what STATUS held, since it clears the status first. -/
theorem exec_congr_of_latchedFor {i : Instr} {s u : State} (hs : s.busy = false) (hu : u.busy = false)
    (h : latchedFor i u = latchedFor i s) : exec i u = exec i s := by
  cases hc : firstFailure (checksOf i (latchedFor i s)) with
  | some code => rw [exec_eq, exec_eq, accept_fails hu (by rw [h, hc]), accept_fails hs hc, h]
  | none => rw [exec_eq, exec_eq, accept_passes hu (by rw [h, hc]), accept_passes hs hc, h]

/-- Settles O17: the checks are those of R205 in its order (`firstFailure_checksOf`), and an accept starts by clearing
the status (`exec_congr_of_latchedFor`). -/
theorem aCommandRaisesTheFirstCheckThatFails : Obligations.ACommandRaisesTheFirstCheckThatFails :=
  ⟨fun i s _ hb hcode => exec_rejected hb ((firstFailure_checksOf i s).trans hcode),
    fun _ _ _ _ _ hb => exec_congr_of_latchedFor hb hb rfl⟩

/-- A command whose checks pass is initialised. -/
theorem exec_accepted {i : Instr} {s : State} (hb : s.busy = false) (h : acceptError i s = none) :
    exec i s = .next (initOf i (latchedFor i s)) :=
  exec_started hb ((firstFailure_checksOf i s).trans h)

/-- Where a count of 0 goes to the writeback at once, a count above 0 goes to the first phase. -/
theorem firstPhase_eq (a : Byte) (p q : Phase) : (if a = 0 then q else p) = if 0 < a.toNat then p else q := by
  by_cases ha : a = 0
  · simp [ha]
  · rw [if_neg ha, if_pos (by bv_omega)]

/-- TABLE_READ's check passes only where the table has the entry (R102). -/
theorem exists_tableEntry {x : TSel} {a : Byte} {s : State} (h : acceptError (.tableRead x a) s = none) :
    ∃ b, tableEntry Config.tables x a = some b := by
  obtain ⟨-, -, -, hown⟩ := acceptError_eq_none h
  refine Option.isSome_iff_exists.mp ((tableEntry_isSome _ x a).mpr (by_contra fun hlt => ?_))
  simp [ownError, hlt] at hown

/-- Settles O18: each command's row of R172 is its accept initialisation (`exec_accepted`). -/
theorem anAcceptedCommandIsInitialisedAsTheTableSays : Obligations.AnAcceptedCommandIsInitialisedAsTheTableSays := by
  intro s hb
  have low (a : Byte) : a.truncate 4 = a.extractLsb' 0 4 := BitVec.setWidth_eq_extractLsb' (by decide)
  refine ⟨exec_accepted hb rfl, fun a h => ?encrypt, fun a h => ?round, fun a h => ?compress, fun a h => ?sbox,
    fun a h => ?pbox, fun a h => ?pboxbit, ?sampler, exec_accepted hb rfl, fun h => ?enumNext, fun x a h => ?tableRead⟩
  case encrypt => rw [exec_accepted hb h, initOf, firstPhase_eq, low]; rfl
  case round => rw [exec_accepted hb h, initOf, extractLsb'_add_one, low]; rfl
  case compress => rw [exec_accepted hb h, initOf, low]; rfl
  case pbox => rw [exec_accepted hb h, initOf, firstPhase_eq]; rfl
  case sbox | pboxbit | enumNext => exact exec_accepted hb h
  case sampler =>
    intro i n hi
    simp only [List.mem_cons, Prod.mk.injEq, List.not_mem_nil, or_false] at hi
    rcases hi with ⟨rfl, rfl⟩ | ⟨rfl, rfl⟩ | ⟨rfl, rfl⟩ | ⟨rfl, rfl⟩ <;> exact exec_accepted hb rfl
  case tableRead =>
    obtain ⟨b, hentry⟩ := exists_tableEntry h
    refine ⟨b, hentry, ?_⟩
    rw [exec_accepted hb h, initOf, hentry]
    rfl

end Sys2Proof.Machine
end

section
/-! PROOFS of the statements about core steps (spec/44_sequencer.md R187, spec/43_compress.md R156, spec/41_keygen.md
R111): where the phase goes, the eight COMP steps, and the SAMPLE step. -/

namespace Sys2Proof.Machine

/-! Where a host operation can change the phase (R170). -/

theorem writeCmd_phase_changed {w : Word} {s t : State} (h : writeCmd w s = .next t) (hne : t.phase ≠ s.phase) :
    s.busy = false := by
  rcases writeCmd_cases h with ⟨-, rfl⟩ | ⟨hb, -⟩ | ⟨hb, -⟩
  · exact absurd rfl hne
  · exact hb
  · exact hb

/-- A host write changes the phase only by presenting a command while BUSY = 0. -/
theorem writeWindow_phase_changed {s t : State} {offset : BitVec 8} {v : Word} (h : writeWindow s offset v = .next t)
    (hne : t.phase ≠ s.phase) : s.busy = false ∧ offset = 0x08 := by
  rcases writeWindow_cases h with rfl | ⟨-, rfl⟩ | ⟨-, rfl⟩ | ⟨rfl, hc⟩ | ⟨-, -, rfl⟩ | ⟨-, hd⟩
  · exact absurd rfl hne
  · exact absurd rfl hne
  · exact absurd rfl hne
  · exact ⟨writeCmd_phase_changed hc hne, rfl⟩
  · exact absurd rfl hne
  · rcases hd with ⟨-, rfl⟩ | ⟨-, rfl⟩ | ⟨-, rfl⟩ | ⟨-, rfl⟩ | ⟨-, rfl⟩ | ⟨-, rfl⟩ <;> exact absurd rfl hne

@[simp] theorem pollStatus_phase (s : State) : (pollStatus s).phase = s.phase := by
  cases hb : s.busy with
  | false => rw [pollStatus_idle hb]
  | true => rw [pollStatus_busy hb]

theorem hostStep_phase_changed {op : HostOp} {s t : State} (h : hostStep op s = .next t) (hne : t.phase ≠ s.phase) :
    s.busy = false ∧ ∃ w, op = .write 0x08 4 w := by
  cases op with
  | wait =>
    cases h
    exact absurd (pollStatus_phase s) hne
  | read offset width =>
    simp only [hostStep] at h
    split at h
    · cases h
      exact absurd rfl hne
    · cases h
  | write offset width v =>
    simp only [hostStep, accessDefined, decide_eq_true_eq] at h
    split at h
    · rename_i hd
      obtain ⟨rfl, -⟩ := hd
      obtain ⟨hb, rfl⟩ := writeWindow_phase_changed h hne
      exact ⟨hb, v, rfl⟩
    · cases h

/-! The COMP step of byte position 7 (R151, R156). -/

theorem inverseTerms_eq_none_iff {tables : Aut64Tables} {key : Key} {r : Fin 12} {st : Block} :
    inverseTerms tables key r st = none ↔
      invRow tables (subAt tables (lowerKey tables key r 7)) (lowNibble st[7]) = none ∨
      invRow tables (subAt tables (upperKey tables key r 7)) (highNibble st[7]) = none := by
  rw [← compressG_eq_none_iff, compressG, Option.map_eq_none_iff]

/-- A COMP step that answers a next state has a round index of the tables (R39). -/
theorem rctr_lt_of_compStep {tables : Aut64Tables} {s t : State} (h : compStep tables s = .next t) :
    s.rctr.toNat < 12 := by
  by_contra hr
  rw [compStep, dif_neg hr] at h
  cases h

/-- The last COMP step goes on exactly where neither inverse lookup is degenerate, and else raises the error. -/
theorem compStep_seven {tables : Aut64Tables} {s t : State} (h : compStep tables s = .next t) (h7 : s.bpos = 7)
    (hr : s.rctr.toNat < 12) :
    (inverseTerms tables s.key ⟨s.rctr.toNat, hr⟩ s.work = none ∧ t = raise .degenerateInverseLookup s) ∨
    (inverseTerms tables s.key ⟨s.rctr.toNat, hr⟩ s.work ≠ none ∧
      t.phase = if s.opl = .compress then .wb else .sub1) := by
  cases hterms : inverseTerms tables s.key ⟨s.rctr.toNat, hr⟩ s.work with
  | none =>
    rw [compStep_degenerate hr h7 hterms] at h
    cases h
    exact .inl ⟨rfl, rfl⟩
  | some terms =>
    rw [compStep_last hr h7 hterms] at h
    cases h
    exact .inr ⟨Option.some_ne_none terms, rfl⟩

/-! The SAMPLE step (R111). -/

/-- A SAMPLE step with a sample pending ends by testing whether SN values are collected. -/
theorem sampleStep_end {s t : State} (h : sampleStep s = .next t) (hin : s.rngIn ≠ []) : ∃ u, t = endSample u := by
  obtain ⟨d, rest, hd⟩ := List.exists_cons_of_ne_nil hin
  simp only [sampleStep, hd] at h
  split at h
  · cases h
    exact ⟨_, rfl⟩
  · split at h
    · cases h
      exact ⟨_, rfl⟩
    · cases h

theorem next_unique {r : Result} {t u : State} (ht : r = .next t) (hu : r = .next u) : t = u :=
  Host.Outcome.next.inj (ht.symm.trans hu)

/-- Settles O33: the host's operations by `hostStep_phase_changed`, and each phase's step by the lemma that says what it
does. -/
theorem theSequencerTakesOnlyTheListedTransitions : Obligations.TheSequencerTakesOnlyTheListedTransitions := by
  refine ⟨fun s t op rest hs h hne => ?_, fun s t rest hs h => ?_, fun s t hb h => ⟨?permPbox, ?permRound, ?forward,
    ?seven, ?sub1, ?bperm, ?sub2, ?fb, ?sample, ?wb⟩⟩
  · exact hostStep_phase_changed (s := { s with schedule := rest }) ((step_host hs).symm.trans h) hne
  · exact congrArg State.phase (next_unique h (step_rst hs))
  case permPbox =>
    intro hp ho
    rw [next_unique h (coreStep_perm hb hp), permStep, if_pos ho]
  case permRound =>
    intro hp ho
    rw [next_unique h (coreStep_perm hb hp), permStep, if_neg ho]
  case forward =>
    intro hp h7
    rcases compStep_cases ((coreStep_comp hb hp).symm.trans h) with ⟨-, hlast⟩ | ht
    · exact absurd hlast h7
    · rw [ht]
      exact ⟨(if_neg h7).trans hp, rfl⟩
  case seven =>
    intro hp h7
    have hc := (coreStep_comp hb hp).symm.trans h
    refine ⟨rctr_lt_of_compStep hc, fun hl hu => ?_, fun hnone => ?_⟩
    · rcases compStep_seven hc h7 (rctr_lt_of_compStep hc) with ⟨hnone, -⟩ | ⟨-, ht⟩
      · exact ((inverseTerms_eq_none_iff.mp hnone).elim hl hu).elim
      · exact ht
    · rcases compStep_seven hc h7 (rctr_lt_of_compStep hc) with ⟨-, rfl⟩ | ⟨hsome, -⟩
      · exact ⟨rfl, rfl, rfl, rfl⟩
      · exact absurd (inverseTerms_eq_none_iff.mpr hnone) hsome
  case sub1 => exact fun hp => congrArg State.phase (next_unique h (coreStep_sub1 hb hp))
  case bperm => exact fun hp => congrArg State.phase (next_unique h (coreStep_bperm hb hp))
  case sub2 => exact fun hp => congrArg State.phase (next_unique h (coreStep_sub2 hb hp))
  case fb => exact fun hp => congrArg State.phase (next_unique h (coreStep_fb hb hp))
  case sample =>
    intro hp hin
    obtain ⟨u, rfl⟩ := sampleStep_end ((coreStep_sample hb hp).symm.trans h) hin
    rfl
  case wb =>
    intro hp
    rw [next_unique h (coreStep_wb hb hp), writeback_frame]
    exact ⟨rfl, rfl, rfl⟩

/-- Settles O37: the step waits, discards a seen draw (`sampleStep_seen`) or collects a new one (`sampleStep_new`),
which `collect_buf` and `collect_seen` describe entry by entry. -/
theorem aSampleStepCollectsANewDrawOrDiscardsIt : Obligations.ASampleStepCollectsANewDrawOrDiscardsIt := by
  intro s hb hp hcnt
  rw [coreStep_sample hb hp]
  refine ⟨sampleStep_wait, fun d rest hin => ?_⟩
  rw [← draw_toNat, BitVec.ofNat_toNat, BitVec.setWidth_eq]
  cases hseen : s.seen.getLsbD (draw s.sw d).toNat with
  | true => exact ⟨_, sampleStep_seen hin hseen, fun _ => rfl, fun h => absurd h (by simp)⟩
  | false =>
    refine ⟨_, sampleStep_new hin hseen hcnt, fun h => absurd h (by simp), fun _ => ⟨rfl, fun j => ?_, fun v => ?_⟩⟩
    · have hbuf := collect_buf (draw s.sw d) ⟨s.cnt.toNat, hcnt⟩ { s with rngIn := rest } j
      simp only [Fin.ext_iff] at hbuf
      exact hbuf
    · exact collect_seen (draw s.sw d) ⟨s.cnt.toNat, hcnt⟩ { s with rngIn := rest } v

/-! The eight COMP steps (R156). -/

/-- Settles O38: a state before its first COMP step (`BeforeComp`) and its eight steps (`coreRun_comp_of_some`,
`coreRun_comp_of_none`). -/
theorem eightCompStepsComputeG : Obligations.EightCompStepsComputeG := by
  intro s hr hb hp hbpos hr5 hr6
  have hbefore : BeforeComp s := ⟨hb, hp, hbpos, hr5, hr6, hr⟩
  refine ⟨fun c hc => ⟨_, coreRun_comp_of_some hbefore hc, ?_⟩, fun hc => ⟨_, coreRun_comp_of_none hbefore hc, rfl⟩⟩
  rw [hbpos]

end Sys2Proof.Machine
end

section
/-! PROOFS of the statements about who changes ERR and the data registers (spec/60_exceptions.md R203, R211, R212;
spec/10_state.md R22 to R27): what one step can do to them. -/

namespace Sys2Proof.Machine

/-! Raising an error and ending the error state (R203, R212). -/

/-- A step's error: the status says so and the sequencer is idle, and of the rest only the latches and the schedule
differ. -/
def Raised (s t : State) : Prop := ∃ code, code ≠ .none ∧ t = raise code
  { s with schedule := t.schedule, opl := t.opl, argl := t.argl, tsell := t.tsell, strictl := t.strictl }

/-- A command has been taken: it is in progress, with the status cleared. -/
def Accepted (s t : State) : Prop := ∃ w rest i, s.schedule = .host (.write 0x08 4 w) :: rest ∧ decode w = .ok i ∧
  s.busy = false ∧ t.busy = true ∧ t.err = false ∧ t.errCode = .none

/-- A core step keeps ERR and ERRCODE, or raises DegenerateInverseLookup in COMP. -/
theorem coreStep_err {s t : State} (h : coreStep s = .next t) :
    (t.err = s.err ∧ t.errCode = s.errCode) ∨ (s.phase = .comp ∧ t = raise .degenerateInverseLookup s) := by
  by_cases hp : s.phase = .wb
  · refine .inl ?_
    cases hb : s.busy with
    | false =>
      cases next_unique h (coreStep_idle hb)
      exact ⟨rfl, rfl⟩
    | true =>
      rw [next_unique h (coreStep_wb hb hp), writeback_frame]
      exact ⟨rfl, rfl⟩
  · rcases coreStep_status h hp with hraise | ⟨-, -, herr, hcode⟩
    · exact .inr hraise
    · exact .inl ⟨herr, hcode⟩

/-- Presenting a command keeps ERR and ERRCODE, raises an error, or takes the command. -/
theorem exec_err {i : Instr} {s t : State} (h : exec i s = .next t) :
    (t.err = s.err ∧ t.errCode = s.errCode) ∨ Raised s t ∨
    (s.busy = false ∧ t.busy = true ∧ t.err = false ∧ t.errCode = .none) := by
  rcases exec_cases h with ⟨-, rfl⟩ | ⟨-, code, hcode, rfl⟩ | ⟨hb, rfl⟩
  · exact .inl ⟨rfl, rfl⟩
  · exact .inr (.inl ⟨code, hcode, rfl⟩)
  · obtain ⟨hbusy, -, herr, hcode⟩ := initOf_running i s
    exact .inr (.inr ⟨hb, hbusy, herr, hcode⟩)

/-- What a host write does to ERR and ERRCODE: nothing, clear ERR alone through STATUS, raise an error, or take a
command. -/
theorem writeWindow_err {s t : State} {offset : BitVec 8} {v : Word} (h : writeWindow s offset v = .next t) :
    (t.err = s.err ∧ t.errCode = s.errCode) ∨
    (offset = 0x04 ∧ v.getLsbD 2 = true ∧ t.err = false ∧ t.errCode = s.errCode) ∨ Raised s t ∨
    (offset = 0x08 ∧ ∃ i, decode v = .ok i ∧ s.busy = false ∧ t.busy = true ∧ t.err = false ∧ t.errCode = .none) := by
  rcases writeWindow_cases h with rfl | ⟨-, rfl⟩ | ⟨rfl, rfl⟩ | ⟨rfl, hc⟩ | ⟨-, -, rfl⟩ | ⟨-, hd⟩
  · exact .inl ⟨rfl, rfl⟩
  · exact .inl ⟨rfl, rfl⟩
  · rw [writeStatus_eq]
    by_cases h2 : v.getLsbD 2 = true
    · exact .inr (.inl ⟨rfl, h2, if_pos h2, rfl⟩)
    · exact .inl ⟨if_neg h2, rfl⟩
  · rcases writeCmd_cases hc with ⟨-, rfl⟩ | ⟨-, i, hi, he⟩ | ⟨-, rfl⟩
    · exact .inl ⟨rfl, rfl⟩
    · rcases exec_err he with hsame | hraise | htaken
      · exact .inl hsame
      · exact .inr (.inr (.inl hraise))
      · exact .inr (.inr (.inr ⟨rfl, i, hi, htaken⟩))
    · exact .inr (.inr (.inl ⟨.illegalCommand, by decide, rfl⟩))
  · exact .inl ⟨rfl, rfl⟩
  · rcases hd with ⟨-, rfl⟩ | ⟨-, rfl⟩ | ⟨-, rfl⟩ | ⟨-, rfl⟩ | ⟨-, rfl⟩ | ⟨-, rfl⟩ <;> exact .inl ⟨rfl, rfl⟩

theorem pollStatus_err (s : State) : (pollStatus s).err = s.err ∧ (pollStatus s).errCode = s.errCode := by
  cases hb : s.busy with
  | false =>
    rw [pollStatus_idle hb]
    exact ⟨rfl, rfl⟩
  | true =>
    rw [pollStatus_busy hb]
    exact ⟨rfl, rfl⟩

/-- What a step does to ERR and ERRCODE: nothing, raise an error, clear ERR alone through STATUS, take a command, or
reset. -/
theorem step_err {s t : State} (h : step s = .next t) :
    (t.err = s.err ∧ t.errCode = s.errCode) ∨ Raised s t ∨
    (∃ v rest, s.schedule = .host (.write 0x04 4 v) :: rest ∧ v.getLsbD 2 = true ∧ t.err = false ∧
      t.errCode = s.errCode) ∨
    Accepted s t ∨ (∃ rest, s.schedule = .rst :: rest ∧ t.err = false ∧ t.errCode = .none) := by
  rcases step_cases h with ⟨-, hc⟩ | ⟨rest, -, hc⟩ | ⟨rest, hs, rfl⟩ | ⟨rest, -, rfl⟩ |
    ⟨rest, offset, -, -, rfl⟩ | ⟨rest, offset, v, hs, -, hw⟩
  · rcases coreStep_err hc with hsame | ⟨-, rfl⟩
    · exact .inl hsame
    · exact .inr (.inl ⟨_, by decide, rfl⟩)
  · rcases coreStep_err hc with hsame | ⟨-, rfl⟩
    · exact .inl hsame
    · exact .inr (.inl ⟨_, by decide, rfl⟩)
  · exact .inr (.inr (.inr (.inr ⟨rest, hs, rfl, rfl⟩)))
  · exact .inl (pollStatus_err _)
  · exact .inl ⟨rfl, rfl⟩
  · rcases writeWindow_err hw with hsame | ⟨rfl, h2, hclear⟩ | ⟨code, hne, hraise⟩ | ⟨rfl, i, hi, hb, htaken⟩
    · exact .inl hsame
    · exact .inr (.inr (.inl ⟨v, rest, hs, h2, hclear⟩))
    · exact .inr (.inl ⟨code, hne, hraise⟩)
    · exact .inr (.inr (.inr (.inl ⟨v, rest, i, hs, hi, hb, htaken⟩)))

theorem Raised.err {s t : State} (h : Raised s t) : t.err = true := by
  obtain ⟨code, -, ht⟩ := h
  rw [ht]
  rfl

/-- A step after which ERR is 1 and was 0 before has raised an error. -/
theorem raised_of_step {s t : State} (h : step s = .next t) (hs : s.err = false) (ht : t.err = true) : Raised s t := by
  rcases step_err h with ⟨hsame, -⟩ | hraise | ⟨v, rest, -, -, hclear, -⟩ | ⟨w, rest, i, -, -, -, -, hclear, -⟩ |
    ⟨rest, -, hclear, -⟩
  · simp [hsame, hs] at ht
  · exact hraise
  · simp [hclear] at ht
  · simp [hclear] at ht
  · simp [hclear] at ht

/-- In COMP, the command in progress is COMPRESS, ROUND or ENCRYPT (R187). -/
theorem Inv.comp_op {s : State} (h : Inv s) (hp : s.phase = .comp) :
    s.opl = .compress ∨ s.opl = .round ∨ s.opl = .encrypt := by
  have hop := h.phase_op
  simp only [phaseAllows, hp, Bool.or_eq_true, beq_iff_eq] at hop
  tauto

/-- Settles O47: the error of a step is a raise (`raised_of_step`), which writes STATUS only; that of a core step is
raised in COMP (`coreStep_err`). -/
theorem anErrorEndsTheCommandAndWritesNothingBack : Obligations.AnErrorEndsTheCommandAndWritesNothingBack := by
  refine ⟨fun s t h hs ht => ?_, fun s t hinv hb h ht => ?_⟩
  · obtain ⟨code, hcode, hraise⟩ := raised_of_step h hs ht
    rw [hraise]
    exact ⟨rfl, rfl, rfl, hcode, rfl, rfl, rfl, rfl, rfl, rfl, rfl, rfl, rfl, rfl, rfl⟩
  · rcases coreStep_err h with ⟨hsame, -⟩ | ⟨hp, rfl⟩
    · simp [hsame, (hinv.running hb).err] at ht
    · exact ⟨rfl, hinv.comp_op hp⟩

/-- Settles O48: of what a step can do to ERR (`step_err`), three things take it from 1 to 0. -/
theorem theErrorStateEndsOnlyByClearingAcceptOrReset : Obligations.TheErrorStateEndsOnlyByClearingAcceptOrReset := by
  intro s t h hs ht
  rcases step_err h with ⟨hsame, -⟩ | hraise | ⟨v, rest, hw, h2, -, hcode⟩ | ⟨w, rest, i, hw, hi, hb, htb, -, hcode⟩ |
    ⟨rest, hr, -, hcode⟩
  · simp [hsame, hs] at ht
  · simp [hraise.err] at ht
  · exact .inl ⟨v, rest, hw, h2, hcode⟩
  · exact .inr (.inl ⟨w, rest, i, hw, hi, hb, htb, hcode⟩)
  · exact .inr (.inr ⟨rest, hr, hcode⟩)

/-! The writers of the data registers (R22 to R25, R43, R57). -/

/-- The operand registers and the enumerator are the same in both states. -/
structure SameData (s t : State) : Prop where
  blockLo : t.blockLo = s.blockLo
  blockHi : t.blockHi = s.blockHi
  keyReg : t.keyReg = s.keyReg
  pbox : t.pbox = s.pbox
  sboxLo : t.sboxLo = s.sboxLo
  sboxHi : t.sboxHi = s.sboxHi
  enumCur : t.enumCur = s.enumCur
  enumValid : t.enumValid = s.enumValid

/-- Taking an event off the schedule makes no difference to them. -/
theorem SameData.of_taken {s t : State} {rest : List Event} (h : SameData { s with schedule := rest } t) :
    SameData s t := by
  obtain ⟨hlo, hhi, hkey, hpbox, hslo, hshi, hcur, hvalid⟩ := h
  exact ⟨hlo, hhi, hkey, hpbox, hslo, hshi, hcur, hvalid⟩

/-- A core step other than a writeback leaves them alone. -/
theorem coreStep_data {s t : State} (h : coreStep s = .next t) :
    SameData s t ∨ (s.busy = true ∧ s.phase = .wb ∧ t = writeback s) := by
  by_cases hp : s.phase = .wb
  · cases hb : s.busy with
    | false =>
      cases next_unique h (coreStep_idle hb)
      exact .inl ⟨rfl, rfl, rfl, rfl, rfl, rfl, rfl, rfl⟩
    | true => exact .inr ⟨rfl, hp, next_unique h (coreStep_wb hb hp)⟩
  · rw [coreStep_frame h hp]
    exact .inl ⟨rfl, rfl, rfl, rfl, rfl, rfl, rfl, rfl⟩

theorem exec_data {i : Instr} {s t : State} (h : exec i s = .next t) : SameData s t := by
  obtain ⟨-, -, hlo, hhi, hkey, hpbox, hslo, hshi, -, hcur, hvalid, -⟩ :=
    presentingACommandChangesNoDataRegister i s t h
  exact ⟨hlo, hhi, hkey, hpbox, hslo, hshi, hcur, hvalid⟩

theorem writeCmd_data {w : Word} {s t : State} (h : writeCmd w s = .next t) : SameData s t := by
  rcases writeCmd_cases h with ⟨-, rfl⟩ | ⟨-, i, -, he⟩ | ⟨-, rfl⟩
  · exact ⟨rfl, rfl, rfl, rfl, rfl, rfl, rfl, rfl⟩
  · exact exec_data he
  · exact ⟨rfl, rfl, rfl, rfl, rfl, rfl, rfl, rfl⟩

/-- The state after a write of the data register at an offset, if one stands there (R50). -/
inductive DataWrite (s : State) (v : Word) : BitVec 8 → State → Prop
  | blockLo : DataWrite s v 0x10 { s with blockLo := v }
  | blockHi : DataWrite s v 0x14 { s with blockHi := v }
  | keyReg : DataWrite s v 0x18 { s with keyReg := v }
  | pbox : DataWrite s v 0x1C { s with pbox := v.truncate 24 }
  | sboxLo : DataWrite s v 0x20 { s with sboxLo := v }
  | sboxHi : DataWrite s v 0x24 { s with sboxHi := v }

/-- A host write leaves them alone, or writes the one at its offset while BUSY = 0. -/
theorem writeWindow_data {s t : State} {offset : BitVec 8} {v : Word} (h : writeWindow s offset v = .next t) :
    SameData s t ∨ (s.busy = false ∧ DataWrite s v offset t) := by
  rcases writeWindow_cases h with rfl | ⟨-, rfl⟩ | ⟨-, rfl⟩ | ⟨-, hc⟩ | ⟨-, -, rfl⟩ | ⟨hb, hd⟩
  · exact .inl ⟨rfl, rfl, rfl, rfl, rfl, rfl, rfl, rfl⟩
  · exact .inl ⟨rfl, rfl, rfl, rfl, rfl, rfl, rfl, rfl⟩
  · exact .inl ⟨rfl, rfl, rfl, rfl, rfl, rfl, rfl, rfl⟩
  · exact .inl (writeCmd_data hc)
  · exact .inl ⟨rfl, rfl, rfl, rfl, rfl, rfl, rfl, rfl⟩
  · refine .inr ⟨hb, ?_⟩
    rcases hd with ⟨rfl, rfl⟩ | ⟨rfl, rfl⟩ | ⟨rfl, rfl⟩ | ⟨rfl, rfl⟩ | ⟨rfl, rfl⟩ | ⟨rfl, rfl⟩
    · exact .blockLo
    · exact .blockHi
    · exact .keyReg
    · exact .pbox
    · exact .sboxLo
    · exact .sboxHi

theorem pollStatus_data (s : State) : SameData s (pollStatus s) := by
  cases hb : s.busy with
  | false =>
    rw [pollStatus_idle hb]
    exact ⟨rfl, rfl, rfl, rfl, rfl, rfl, rfl, rfl⟩
  | true =>
    rw [pollStatus_busy hb]
    exact ⟨rfl, rfl, rfl, rfl, rfl, rfl, rfl, rfl⟩

/-- A step other than a reset leaves them alone, is a writeback, or is a host write of one of them while BUSY = 0. -/
theorem step_data {s t : State} (h : step s = .next t) (hr : ∀ rest, s.schedule ≠ .rst :: rest) :
    SameData s t ∨
    (s.busy = true ∧ s.phase = .wb ∧ ∃ rest, t = writeback { s with schedule := rest }) ∨
    (s.busy = false ∧ ∃ offset v rest, s.schedule = .host (.write offset 4 v) :: rest ∧
      DataWrite { s with schedule := rest } v offset t) := by
  rcases step_cases h with ⟨-, hc⟩ | ⟨rest, -, hc⟩ | ⟨rest, hs, -⟩ | ⟨rest, -, rfl⟩ |
    ⟨rest, offset, -, -, rfl⟩ | ⟨rest, offset, v, hs, -, hw⟩
  · rcases coreStep_data hc with hsame | ⟨hb, hp, ht⟩
    · exact .inl hsame
    · exact .inr (.inl ⟨hb, hp, s.schedule, ht⟩)
  · rcases coreStep_data hc with hsame | ⟨hb, hp, ht⟩
    · exact .inl hsame.of_taken
    · exact .inr (.inl ⟨hb, hp, rest, ht⟩)
  · exact absurd hs (hr rest)
  · exact .inl (pollStatus_data _).of_taken
  · exact .inl ⟨rfl, rfl, rfl, rfl, rfl, rfl, rfl, rfl⟩
  · rcases writeWindow_data hw with hsame | ⟨hb, hd⟩
    · exact .inl hsame.of_taken
    · exact .inr (.inr ⟨hb, offset, v, rest, hs, hd⟩)

/-- The commands whose writeback changes each data register. -/
theorem writeback_changed (s : State) :
    ((writeback s).blockLo ≠ s.blockLo ∨ (writeback s).blockHi ≠ s.blockHi → s.opl ∈ writesBlock) ∧
    ((writeback s).keyReg ≠ s.keyReg → s.opl = .enumNext) ∧
    ((writeback s).pbox ≠ s.pbox → s.opl ∈ writesBox ∧ s.sn = 8) ∧
    ((writeback s).sboxLo ≠ s.sboxLo ∨ (writeback s).sboxHi ≠ s.sboxHi → s.opl ∈ writesBox ∧ s.sn = 16) ∧
    ((writeback s).enumCur ≠ s.enumCur ∨ (writeback s).enumValid ≠ s.enumValid →
      s.opl = .enumReset ∨ s.opl = .enumNext) := by
  rw [writeback_eq]
  dsimp only [complete]
  refine ⟨fun h => by_contra fun hn => ?_, fun h => by_contra fun hn => ?_, fun h => by_contra fun hn => ?_,
    fun h => by_contra fun hn => ?_, fun h => by_contra fun hn => ?_⟩
  · exact h.elim (absurd (if_neg hn)) (absurd (if_neg hn))
  · exact h (if_neg hn)
  · exact h (if_neg hn)
  · exact h.elim (absurd (if_neg hn)) (absurd (if_neg hn))
  · obtain ⟨hreset, hnext⟩ := not_or.mp hn
    simp [hreset, hnext] at h

/-- Settles O53: one case for each thing that a step can do to the data registers (`step_data`): the writeback by what
its command writes (`writeback_changed`), the host write by the register at its offset (`DataWrite`). -/
theorem dataRegistersChangeOnlyByTheirWriters : Obligations.DataRegistersChangeOnlyByTheirWriters := by
  intro s t h hr
  rcases step_data h hr with hsame | ⟨hb, hp, rest, rfl⟩ | ⟨hb, offset, v, rest, hs, hd⟩
  · obtain ⟨hlo, hhi, hkey, hpbox, hslo, hshi, hcur, hvalid⟩ := hsame
    exact ⟨fun h => h.elim (absurd hlo) (absurd hhi), absurd hkey, absurd hpbox,
      fun h => h.elim (absurd hslo) (absurd hshi), fun h => h.elim (absurd hcur) (absurd hvalid)⟩
  · obtain ⟨hblock, hkey, hpbox, hsbox, henum⟩ := writeback_changed { s with schedule := rest }
    exact ⟨fun h => .inl ⟨hb, hp, hblock h⟩, fun h => .inl ⟨hb, hp, hkey h⟩, fun h => .inl ⟨hb, hp, hpbox h⟩,
      fun h => .inl ⟨hb, hp, hsbox h⟩, fun h => ⟨hb, hp, henum h⟩⟩
  · cases hd with
    | blockLo => simp [hb, hs]
    | blockHi => simp [hb, hs]
    | keyReg => simp [hb, hs]
    | pbox => simp [hb, hs]
    | sboxLo => simp [hb, hs]
    | sboxHi => simp [hb, hs]

end Sys2Proof.Machine
end

section
/-! PROOFS of the statement about ENCRYPT (spec/44_sequencer.md R175, R184, R190): its rounds one after another. -/

namespace Sys2Proof.Machine

/-- The machine that has just accepted ENCRYPT. -/
def encrypting (a : Byte) (s : State) : State := initOf (.encrypt a) (latchedFor (.encrypt a) s)

/-- ENCRYPT with `a` rounds after `j` of them, which have made `m` of the block. -/
def AfterRounds (a : Byte) (s : State) (j : Nat) (m : Block) (x : State) : Prop :=
  x = { encrypting a s with
    work := m, r5 := x.r5, r6 := x.r6, t := x.t, bpos := x.bpos, rctr := BitVec.ofNat 4 j
    phase := if j = a.toNat then .wb else .perm }

/-- ENCRYPT's round count is at most 12. -/
theorem encrypt_rounds_le {a : Byte} {s : State} (h : acceptError (.encrypt a) s = none) : a.toNat ≤ 12 := by
  obtain ⟨-, -, hround, -⟩ := acceptError_eq_none h
  simpa [roundTooLarge] using hround

theorem afterRounds_zero (a : Byte) (s : State) : AfterRounds a s 0 s.block (encrypting a s) := by
  have hzero : a = 0 ↔ 0 = a.toNat := by rw [← BitVec.toNat_inj, eq_comm]; rfl
  simp only [AfterRounds, encrypting, initOf, hzero]
  rfl

/-- With rounds left, the machine is before the PERM step of the round of index `j`. -/
theorem AfterRounds.beforeRound {a : Byte} {s x : State} {j : Nat} {m : Block} (h : AfterRounds a s j m x)
    (hj : j < a.toNat) (ha : a.toNat ≤ 12) : BeforeRound x ∧ x.rctr.toNat = j := by
  have hrctr : x.rctr.toNat = j := by
    rw [h]
    exact Nat.mod_eq_of_lt (by omega)
  refine ⟨⟨?_, ?_, ?_, by omega⟩, hrctr⟩
  · rw [h]
    rfl
  · rw [h]
    exact if_neg hj.ne
  · rw [h]
    exact .inl rfl

/-- That round is the one of index `j` on `m`. -/
theorem AfterRounds.cipherRound {a : Byte} {s x : State} {j : Nat} {m : Block} (h : AfterRounds a s j m x)
    (hj : x.rctr.toNat = j) (h12 : j < 12) (hr : x.rctr.toNat < 12) :
    cipherRound Config.tables x.work x.key x.perm x.subst ⟨x.rctr.toNat, hr⟩ =
      cipherRound Config.tables m s.key s.perm s.subst ⟨j, h12⟩ := by
  obtain ⟨hwork, hkey, hperm, hsubst⟩ : x.work = m ∧ x.key = s.key ∧ x.perm = s.perm ∧ x.subst = s.subst := by
    rw [h]
    exact ⟨rfl, rfl, rfl, rfl⟩
  simp only [hj, hwork, hkey, hperm, hsubst]

/-- A round that has a value is 13 core steps. -/
theorem AfterRounds.next {a : Byte} {s x : State} {j : Nat} {m n : Block} (h : AfterRounds a s j m x)
    (hj : j < a.toNat) (ha : a.toNat ≤ 12)
    (hn : Machine.cipherRound Config.tables m s.key s.perm s.subst ⟨j, by omega⟩ = some n) :
    ∃ y, coreRun 13 x = .next y ∧ AfterRounds a s (j + 1) n y := by
  obtain ⟨hbefore, hrctr⟩ := h.beforeRound hj ha
  obtain ⟨r5, r6, hrun⟩ := coreRun_round_of_some hbefore ((h.cipherRound hrctr (by omega) _).trans hn)
  refine ⟨_, hrun, ?_⟩
  have hnext : BitVec.ofNat 4 j + 1 = BitVec.ofNat 4 (j + 1) := by bv_omega
  have hlast : BitVec.ofNat 4 (j + 1) = a.truncate 4 ↔ j + 1 = a.toNat := by
    have := truncate_toNat ha
    rw [← BitVec.toNat_inj, this]
    simp [Nat.mod_eq_of_lt (show j + 1 < 16 by omega)]
  rw [h, AfterRounds]
  dsimp only
  rw [hnext, show (encrypting a s).rlimit = a.truncate 4 from rfl]
  simp only [hlast]

/-- As long as the rounds have values, ENCRYPT runs them. -/
theorem exists_afterRounds {a : Byte} {s : State} {j : Nat} (hj : j ≤ a.toNat) (ha : a.toNat ≤ 12) {m : Block}
    (hm : encryptBlock Config.tables s.block s.key s.perm s.subst j = some m) :
    ∃ x, coreRun (13 * j) (encrypting a s) = .next x ∧ AfterRounds a s j m x := by
  induction j generalizing m with
  | zero =>
    cases hm
    exact ⟨_, rfl, afterRounds_zero a s⟩
  | succ j ih =>
    rw [encryptBlock, cipherRounds_succ _ _ _ _ (Nat.zero_add j) (by omega), Option.bind_eq_some_iff] at hm
    obtain ⟨b, hb, hround⟩ := hm
    obtain ⟨x, hrun, hx⟩ := ih (by omega) hb
    obtain ⟨y, hy, hafter⟩ := hx.next (by omega) ha hround
    exact ⟨y, (coreRun_add (13 * j) 13 hrun).trans hy, hafter⟩

/-- After its last round ENCRYPT writes WORK back to BLOCK and completes. -/
theorem AfterRounds.writeback {a : Byte} {s x : State} {m : Block} (h : AfterRounds a s a.toNat m x) :
    x.busy = true ∧ coreStep x = .next { finished (.encrypt a) s with
      work := m, blockLo := blockLoOf m, blockHi := blockHiOf m, r5 := x.r5, r6 := x.r6, t := x.t
      rctr := a.extractLsb' 0 4, rlimit := a.extractLsb' 0 4, bpos := x.bpos } := by
  have hlow : BitVec.ofNat 4 a.toNat = a.extractLsb' 0 4 := by
    rw [BitVec.ofNat_toNat, BitVec.setWidth_eq_extractLsb' (by decide)]
  obtain ⟨hbusy, hphase⟩ : x.busy = true ∧ x.phase = .wb := by
    rw [h]
    exact ⟨rfl, if_pos rfl⟩
  refine ⟨hbusy, ?_⟩
  rw [coreStep_wb hbusy hphase, h, hlow, ← BitVec.setWidth_eq_extractLsb' (by decide)]
  rfl

/-- ENCRYPT where round `j` is the first degenerate one ends in it with DegenerateInverseLookup. -/
theorem AfterRounds.degenerate {a : Byte} {s x : State} {j : Nat} {m : Block} (h : AfterRounds a s j m x)
    (hj : j < a.toNat) (ha : a.toNat ≤ 12)
    (hn : Machine.cipherRound Config.tables m s.key s.perm s.subst ⟨j, by omega⟩ = none) :
    ∃ u, coreRun 9 x = .next u ∧ u = { rejected (.encrypt a) .degenerateInverseLookup s with
      work := u.work, r5 := u.r5, r6 := u.r6, t := u.t
      rctr := BitVec.ofNat 4 j, rlimit := a.extractLsb' 0 4, bpos := 7 } := by
  obtain ⟨hbefore, hrctr⟩ := h.beforeRound hj ha
  obtain ⟨r5, r6, hrun⟩ := coreRun_round_of_none hbefore ((h.cipherRound hrctr (by omega) _).trans hn)
  refine ⟨_, hrun, ?_⟩
  rw [h, ← BitVec.setWidth_eq_extractLsb' (by decide)]
  rfl

/-- Settles O26: the word by ENCRYPT's row, the accept by its checks (`firstFailure_checksOf`), the run by induction on
the rounds (`exists_afterRounds`) up to the writeback or the first degenerate round; BLOCK is unchanged while ENCRYPT is
in progress (`coreRun_busy_of_le`). -/
theorem encryptRunsItsRoundsOnTheBlock : Obligations.EncryptRunsItsRoundsOnTheBlock := by
  refine fun s a => ⟨decode_pattern_arg 1 rfl a, fun hb => ⟨fun code hcode => ?_, fun hnone => ?_⟩⟩
  · exact exec_rejected hb ((firstFailure_checksOf _ s).trans hcode)
  · have ha := encrypt_rounds_le hnone
    refine ⟨encrypting a s, exec_accepted hb hnone, rfl, rfl, fun m hm => ?_, fun j h12 m hj hm hround => ?_⟩
    · obtain ⟨x, hrun, hx⟩ := exists_afterRounds le_rfl ha hm
      obtain ⟨hbusy, hwb⟩ := hx.writeback
      have hdone := ((coreRun_add _ 1 hrun).trans (coreRun_one x)).trans hwb
      exact ⟨fun k hk => coreRun_busy_of_le hrun hbusy hk, _, hdone, blockOf_pack m, rfl⟩
    · obtain ⟨x, hrun, hx⟩ := exists_afterRounds hj.le ha hm
      obtain ⟨u, hu, hend⟩ := hx.degenerate hj ha hround
      exact ⟨u, (coreRun_add _ 9 hrun).trans hu, hend⟩

end Sys2Proof.Machine
end

section
/-! PROOFS of the statement about the sampler's commands (spec/41_keygen.md R110 to R115): the distinct draws one sample
after another. -/

namespace Sys2Proof.Machine

/-! The distinct draws of a list of samples. -/

/-- The values collected once one more sample has been drawn (R111). -/
def gather (w : BitVec 3) (got : List Nibble) (d : Nibble) : List Nibble :=
  if draw w d ∈ got then got else got ++ [draw w d]

theorem distinctDraws_cons (w : BitVec 3) (got : List Nibble) (d : Nibble) (ds : List Nibble) :
    distinctDraws w got (d :: ds) = distinctDraws w (gather w got d) ds := by
  rw [distinctDraws, gather]
  split_ifs <;> rfl

theorem distinctDraws_append (w : BitVec 3) (got ds : List Nibble) (d : Nibble) :
    distinctDraws w got (ds ++ [d]) = gather w (distinctDraws w got ds) d := by
  induction ds generalizing got with
  | nil => exact distinctDraws_cons w got d []
  | cons e ds ih => rw [List.cons_append, distinctDraws_cons, distinctDraws_cons, ih]

/-- No value is lost by drawing on. -/
theorem length_le_distinctDraws (w : BitVec 3) (got ds : List Nibble) :
    got.length ≤ (distinctDraws w got ds).length := by
  induction ds generalizing got with
  | nil => exact le_rfl
  | cons d ds ih =>
    rw [distinctDraws_cons]
    refine le_trans ?_ (ih _)
    unfold gather
    split_ifs <;> simp

/-- Every value but those given before is a draw. -/
theorem mem_distinctDraws {w : BitVec 3} {got ds : List Nibble} {v : Nibble} (h : v ∈ distinctDraws w got ds) :
    v ∈ got ∨ ∃ d, v = draw w d := by
  induction ds generalizing got with
  | nil => exact .inl h
  | cons d ds ih =>
    rw [distinctDraws_cons] at h
    rcases ih h with hg | hd
    · unfold gather at hg
      split_ifs at hg
      · exact .inl hg
      · exact (List.mem_append.mp hg).imp_right fun hv => ⟨d, List.mem_singleton.mp hv⟩
    · exact .inr hd

/-! The sampler's state after some samples. -/

/-- A sampler for `n` values that has started in `base` has taken its samples up to `rng`, and has collected the values
of `got`. -/
structure Sampling (base : State) (n : Nat) (got rng : List Nibble) (x : State) : Prop where
  frame : x = { base with rngIn := rng, buf := x.buf, seen := x.seen, cnt := x.cnt, phase := x.phase }
  cnt : x.cnt.toNat = got.length
  phase : x.phase = if got.length = n then .wb else .sample
  buf : ∀ j : Fin 16, j.val < got.length → got[j.val]? = some x.buf[j]
  seen : ∀ v : Nibble, x.seen.getLsbD v.toNat = decide (v ∈ got)

/-- The state in which a sampler starts. -/
structure SamplerStart (base : State) (n : Nat) : Prop where
  busy : base.busy = true
  phase : base.phase = .sample
  sn : base.sn = BitVec.ofNat 5 n
  seen : base.seen = 0
  cnt : base.cnt = 0
  size : 0 < n ∧ n ≤ 16

theorem SamplerStart.sampling {base : State} {n : Nat} (h : SamplerStart base n) :
    Sampling base n [] base.rngIn base where
  frame := rfl
  cnt := by simp [h.cnt]
  phase := h.phase.trans (if_neg h.size.1.ne).symm
  buf := fun j hj => absurd hj (Nat.not_lt_zero _)
  seen := fun v => by simp [h.seen]

/-- The end of a SAMPLE step, by the number of values that are collected. -/
theorem endSample_phase {x : State} {n k : Nat} (hsn : x.sn = BitVec.ofNat 5 n) (hn : n ≤ 16) (hk : x.cnt.toNat = k) :
    (endSample x).phase = if k = n then .wb else .sample := by
  have hfull : x.cnt = x.sn ↔ k = n := by
    rw [hsn, ← BitVec.toNat_inj, hk, BitVec.toNat_ofNat, Nat.mod_eq_of_lt (by omega)]
  simp only [endSample, hfull]

/-- A SAMPLE step writes the sampler's fields, PHASE, and what is left of the samples, as the steps before it did. -/
theorem sampleStep_frame_from {base x y : State} {rng rest : List Nibble}
    (hx : x = { base with rngIn := rng, buf := x.buf, seen := x.seen, cnt := x.cnt, phase := x.phase })
    (h : sampleStep x = .next y) (hr : y.rngIn = rest) :
    y = { base with rngIn := rest, buf := y.buf, seen := y.seen, cnt := y.cnt, phase := y.phase } := by
  have hy := sampleStep_frame h
  rw [hr] at hy
  rw [hy, hx]

/-- One SAMPLE step draws one sample. -/
theorem Sampling.next {base x : State} {n : Nat} {got rest : List Nibble} {d : Nibble} (hbase : SamplerStart base n)
    (h : Sampling base n got (d :: rest) x) (hroom : got.length < n) :
    ∃ y, coreStep x = .next y ∧ Sampling base n (gather base.sw got d) rest y := by
  obtain ⟨-, hn⟩ := hbase.size
  obtain ⟨hframe, hcnt, hphase, hbuf, hseen⟩ := h
  obtain ⟨hb, hin, hsn, hsw⟩ : x.busy = true ∧ x.rngIn = d :: rest ∧ x.sn = BitVec.ofNat 5 n ∧ x.sw = base.sw := by
    rw [hframe]
    exact ⟨hbase.busy, rfl, hbase.sn, rfl⟩
  have hmark : x.seen.getLsbD (draw x.sw d).toNat = decide (draw base.sw d ∈ got) := by rw [hseen, hsw]
  rw [coreStep_sample hb (hphase.trans (if_neg hroom.ne))]
  by_cases hd : draw base.sw d ∈ got
  · have hstep := sampleStep_seen hin (hmark.trans (decide_eq_true hd))
    refine ⟨_, hstep, ?_⟩
    rw [gather, if_pos hd]
    exact ⟨sampleStep_frame_from hframe hstep rfl, hcnt, endSample_phase hsn hn hcnt, hbuf, hseen⟩
  · have hc : x.cnt.toNat < 16 := by omega
    have hstep := sampleStep_new hin (hmark.trans (decide_eq_false hd)) hc
    rw [hsw] at hstep
    refine ⟨_, hstep, ?_⟩
    rw [gather, if_neg hd]
    have hnext : (collect (draw base.sw d) ⟨x.cnt.toNat, hc⟩ { x with rngIn := rest }).cnt.toNat =
        (got ++ [draw base.sw d]).length := by
      rw [List.length_append, List.length_singleton, ← hcnt]
      change (x.cnt + 1).toNat = _
      bv_omega
    refine ⟨sampleStep_frame_from hframe hstep rfl, hnext, endSample_phase hsn hn hnext, fun j hj => ?_, fun v => ?_⟩
    · refine Eq.trans ?_ (congrArg some (collect_buf _ _ _ j).symm)
      split_ifs with hj'
      · simp [hj', hcnt]
      · have hlt : j.val < got.length := by grind
        rw [List.getElem?_append_left hlt]
        exact hbuf j hlt
    · refine (collect_seen _ ⟨x.cnt.toNat, hc⟩ _ (nibbleIndex v)).trans ?_
      change (x.seen.getLsbD v.toNat || decide (v.toNat = (draw base.sw d).toNat)) = _
      rw [hseen, ← Bool.decide_or]
      simp [BitVec.toNat_inj]

/-- As long as values are missing, each core step draws one sample. -/
theorem Sampling.run {base x : State} {n : Nat} {got ds rest : List Nibble} (hbase : SamplerStart base n)
    (h : Sampling base n got (ds ++ rest) x) (hroom : (distinctDraws base.sw got ds).length < n) :
    ∃ y, coreRun ds.length x = .next y ∧ Sampling base n (distinctDraws base.sw got ds) rest y := by
  induction ds generalizing got x with
  | nil => exact ⟨x, rfl, h⟩
  | cons d ds ih =>
    have hgot := length_le_distinctDraws base.sw got (d :: ds)
    rw [distinctDraws_cons] at hroom ⊢
    obtain ⟨y, hy, hnext⟩ := h.next hbase (by rw [distinctDraws_cons] at hgot; omega)
    obtain ⟨z, hz, hlast⟩ := ih hnext hroom
    exact ⟨z, (coreRun_succ _ hy).trans hz, hlast⟩

/-! The four commands. -/

/-- The machine that has just accepted a sampler's command for `n` values (R110, R172). -/
def samplerStarted (i : Instr) (n : Nat) (s : State) : State :=
  { latched i s with
    busy := true, sn := BitVec.ofNat 5 n, sw := if n = 8 then 3 else 4, seen := 0, cnt := 0, phase := .sample }

theorem samplerStart_started (i : Instr) {n : Nat} (hn : n = 8 ∨ n = 16) (s : State) :
    SamplerStart (samplerStarted i n s) n :=
  ⟨rfl, rfl, rfl, rfl, rfl, by omega⟩

/-- After its samples the sampler has collected the distinct draws, and the writeback is next. -/
theorem exists_sampled {i : Instr} {n : Nat} (hn : n = 8 ∨ n = 16) {s : State} {ds rest : List Nibble} {last : Nibble}
    (hin : s.rngIn = ds ++ last :: rest)
    (hmissing : (distinctDraws (samplerStarted i n s).sw [] ds).length < n) :
    ∃ x, coreRun (ds.length + 1) (samplerStarted i n s) = .next x ∧
      Sampling (samplerStarted i n s) n (distinctDraws (samplerStarted i n s).sw [] (ds ++ [last])) rest x := by
  have hbase := samplerStart_started i hn s
  have hstart : Sampling (samplerStarted i n s) n [] (ds ++ last :: rest) (samplerStarted i n s) := hin ▸ hbase.sampling
  obtain ⟨y, hy, hall⟩ := hstart.run hbase hmissing
  obtain ⟨x, hx, hdone⟩ := hall.next hbase hmissing
  rw [distinctDraws_append]
  exact ⟨x, (coreRun_add _ 1 hy).trans ((coreRun_one y).trans hx), hdone⟩

/-- A value drawn with width 3 is its low three bits. -/
theorem zeroExtend_extractLsb'_of_draw {ds : List Nibble} {v : Nibble} (h : v ∈ distinctDraws 3 [] ds) :
    (v.extractLsb' 0 3).zeroExtend 4 = v := by
  obtain hnil | ⟨d, rfl⟩ := mem_distinctDraws h
  · cases hnil
  · have hlt : (draw 3 d).toNat < 8 := by
      rw [draw_toNat]
      exact Nat.mod_lt _ (by decide)
    rw [← BitVec.setWidth_eq_extractLsb' (by decide)]
    bv_omega

/-- The writeback of a sampler's command completes it with the box alone. -/
theorem writeback_of_writesBox {s : State} (h : s.opl ∈ writesBox) : writeback s = complete (writeSample s) := by
  simp only [writesBox, List.mem_cons, List.not_mem_nil, or_false] at h
  rcases h with ho | ho | ho <;> simp only [writeback, ho] <;> rfl

/-- What the writeback leaves of the machine that has sampled. -/
theorem Sampling.writeback {i : Instr} {n : Nat} {s x : State} {got rest : List Nibble} (hi : i.op ∈ writesBox)
    (h : Sampling (samplerStarted i n s) n got rest x) (hfull : got.length = n) :
    coreStep x = .next (writeback x) ∧ writeback x = { finished i s with
      sn := BitVec.ofNat 5 n, sw := if n = 8 then 3 else 4, seen := (writeback x).seen, cnt := BitVec.ofNat 5 n
      buf := (writeback x).buf, rngIn := rest, pbox := (writeback x).pbox, sboxLo := (writeback x).sboxLo
      sboxHi := (writeback x).sboxHi } := by
  obtain ⟨hframe, hcnt, hphase, -, -⟩ := h
  obtain ⟨hb, ho⟩ : x.busy = true ∧ x.opl ∈ writesBox := by
    rw [hframe]
    exact ⟨rfl, hi⟩
  have hcnt' : x.cnt = BitVec.ofNat 5 n := by rw [← hfull, ← hcnt, BitVec.ofNat_toNat, BitVec.setWidth_eq]
  refine ⟨coreStep_wb hb (hphase.trans (if_pos hfull)), ?_⟩
  rw [writeback_of_writesBox ho, writeSample_frame, hframe, hcnt']
  rfl

/-- With 8 values the box is PBOX. -/
theorem Sampling.writeback_pbox {i : Instr} {s x : State} {got rest : List Nibble} (hi : i.op ∈ writesBox)
    (h : Sampling (samplerStarted i 8 s) 8 got rest x) :
    (Machine.writeback x).sboxLo = s.sboxLo ∧ (Machine.writeback x).sboxHi = s.sboxHi ∧
      (Machine.writeback x).perm = pboxOfBuf x.buf := by
  obtain ⟨hsn, ho, hlo, hhi⟩ : x.sn = 8 ∧ x.opl ∈ writesBox ∧ x.sboxLo = s.sboxLo ∧ x.sboxHi = s.sboxHi := by
    rw [h.frame]
    exact ⟨rfl, hi, rfl, rfl⟩
  have hno : ¬ (x.opl ∈ writesBox ∧ x.sn = 16) := by simp [hsn]
  refine ⟨?_, ?_, (writeback_perm x).trans (if_pos ⟨ho, hsn⟩)⟩ <;> rw [writeback_eq]
  · exact (if_neg hno).trans hlo
  · exact (if_neg hno).trans hhi

/-- With 16 values the box is SBOX. -/
theorem Sampling.writeback_sbox {i : Instr} {s x : State} {got rest : List Nibble} (hi : i.op ∈ writesBox)
    (h : Sampling (samplerStarted i 16 s) 16 got rest x) :
    (Machine.writeback x).pbox = s.pbox ∧ (Machine.writeback x).subst = x.buf := by
  obtain ⟨hsn, ho, hpbox⟩ : x.sn = 16 ∧ x.opl ∈ writesBox ∧ x.pbox = s.pbox := by
    rw [h.frame]
    exact ⟨rfl, hi, rfl⟩
  have hno : ¬ (x.opl ∈ writesBox ∧ x.sn = 8) := by simp [hsn]
  refine ⟨?_, (writeback_subst x).trans (if_pos ⟨ho, hsn⟩)⟩
  rw [writeback_eq]
  exact (if_neg hno).trans hpbox

/-- Settles O27: the accept as O18 states it, one core step a sample (`exists_sampled`), and the writeback, which puts
the values collected into the box as they stand in BUF (`writeback_perm`, `writeback_subst`). -/
theorem randomPermutationsAreTheDistinctDrawsInOrder : Obligations.RandomPermutationsAreTheDistinctDrawsInOrder := by
  intro i n hi s ds last rest w hb hin hw hmissing hfull
  subst hw
  obtain ⟨hn, hbox⟩ : (n = 8 ∨ n = 16) ∧ i.op ∈ writesBox := by
    simp only [List.mem_cons, Prod.mk.injEq, List.not_mem_nil, or_false] at hi
    rcases hi with ⟨rfl, rfl⟩ | ⟨rfl, rfl⟩ | ⟨rfl, rfl⟩ | ⟨rfl, rfl⟩ <;> decide
  obtain ⟨-, -, -, -, -, -, -, haccept, -⟩ := anAcceptedCommandIsInitialisedAsTheTableSays s hb
  have hexec : exec i s = .next (samplerStarted i n s) := by
    refine haccept i n ?_
    simp only [List.mem_cons, Prod.mk.injEq, List.not_mem_nil, or_false] at hi ⊢
    tauto
  obtain ⟨x, hrun, hx⟩ := exists_sampled hn hin hmissing
  obtain ⟨hstep, hend⟩ := hx.writeback hbox hfull
  have hdone : coreRun (ds.length + 2) (samplerStarted i n s) = .next (writeback x) :=
    (coreRun_add _ 1 hrun).trans ((coreRun_one x).trans hstep)
  refine ⟨_, _, hexec, rfl, rfl, hdone, hend, fun h8 => ?_, fun h16 => ?_⟩
  · subst h8
    obtain ⟨hlo, hhi, hperm⟩ := hx.writeback_pbox hbox
    refine ⟨hlo, hhi, fun j => ?_⟩
    have hentry := hx.buf (j.castLE (by decide)) (j.isLt.trans_eq hfull.symm)
    have hlow := zeroExtend_extractLsb'_of_draw (List.mem_of_getElem? hentry)
    rw [hperm]
    simp only [pboxOfBuf, Fin.getElem_fin, Vector.getElem_ofFn]
    exact hentry.trans (congrArg some hlow.symm)
  · subst h16
    obtain ⟨hpbox, hsubst⟩ := hx.writeback_sbox hbox
    refine ⟨hpbox, fun j => ?_⟩
    rw [hsubst]
    exact hx.buf j (j.isLt.trans_eq hfull.symm)

end Sys2Proof.Machine
end

section
/-! PROOFS of the statement about host accesses between the core steps of a command (spec/20_memory.md R57, R58, R60,
spec/70_reset_and_hazards.md section 3): the core reads nothing that they can change. -/

namespace Sys2Proof.Machine

/-! What a host access can change while a command runs, and the core's steps beside it. -/

/-- The state `s` with the host's side of `y`: CTRL, WBUSY, the value last read, and what is still scheduled. -/
def hostSide (y s : State) : State :=
  { s with irqEn := y.irqEn, strictKey := y.strictKey, wbusy := y.wbusy, rdata := y.rdata, schedule := y.schedule }

theorem sameCommandState_hostSide (y s : State) : SameCommandState s (hostSide y s) := rfl

theorem permStep_hostSide (y s : State) : permStep (hostSide y s) = hostSide y (permStep s) := by
  by_cases ho : s.opl = .pbox
  · rw [permStep, permStep, if_pos ho, if_pos (show (hostSide y s).opl = .pbox from ho)]
    rfl
  · rw [permStep, permStep, if_neg ho, if_neg (show (hostSide y s).opl ≠ .pbox from ho)]
    rfl

theorem compStep_hostSide {tables : Aut64Tables} (y : State) {s t : State} (h : compStep tables s = .next t) :
    compStep tables (hostSide y s) = .next (hostSide y t) := by
  have hr : s.rctr.toNat < 12 := rctr_lt_of_compStep h
  by_cases h7 : s.bpos = 7
  · cases hterms : inverseTerms tables s.key ⟨s.rctr.toNat, hr⟩ s.work with
    | none =>
      rw [next_unique h (compStep_degenerate hr h7 hterms)]
      exact compStep_degenerate (s := hostSide y s) hr h7 hterms
    | some terms =>
      rw [next_unique h (compStep_last hr h7 hterms)]
      exact compStep_last (s := hostSide y s) hr h7 hterms
  · rw [next_unique h (compStep_forward hr h7)]
    exact compStep_forward (s := hostSide y s) hr h7

theorem writeback_hostSide (y s : State) : writeback (hostSide y s) = hostSide y (writeback s) := by
  rw [writeback_eq, writeback_eq]
  rfl

theorem sampleStep_hostSide (y : State) {s t : State} (h : sampleStep s = .next t) :
    sampleStep (hostSide y s) = .next (hostSide y t) := by
  cases hin : s.rngIn with
  | nil =>
    rw [next_unique h (sampleStep_wait hin)]
    exact sampleStep_wait (s := hostSide y s) hin
  | cons d rest =>
    cases hseen : s.seen.getLsbD (draw s.sw d).toNat with
    | true =>
      rw [next_unique h (sampleStep_seen hin hseen)]
      exact sampleStep_seen (s := hostSide y s) hin hseen
    | false =>
      have hc : s.cnt.toNat < 16 := by
        by_contra hc
        simp [sampleStep, hin, hseen, hc] at h
      rw [next_unique h (sampleStep_new hin hseen hc)]
      exact sampleStep_new (s := hostSide y s) hin hseen hc

/-- A core step neither reads nor writes the host's side. -/
theorem coreStep_hostSide (y : State) {s t : State} (h : coreStep s = .next t) :
    coreStep (hostSide y s) = .next (hostSide y t) := by
  cases hb : s.busy with
  | false =>
    rw [next_unique h (coreStep_idle hb)]
    exact coreStep_idle hb
  | true =>
    have hbusy : (hostSide y s).busy = true := hb
    rcases coreStep_cases hb h with
      ⟨hp, rfl⟩ | ⟨hp, hc⟩ | ⟨hp, rfl⟩ | ⟨hp, rfl⟩ | ⟨hp, rfl⟩ | ⟨hp, rfl⟩ | ⟨hp, rfl⟩ | ⟨hp, hs⟩
    · rw [coreStep_perm hbusy hp, permStep_hostSide]
    · rw [coreStep_comp hbusy hp, compStep_hostSide y hc]
    · exact coreStep_sub1 hbusy hp
    · exact coreStep_bperm hbusy hp
    · exact coreStep_sub2 hbusy hp
    · exact coreStep_fb hbusy hp
    · rw [coreStep_wb hbusy hp, writeback_hostSide]
    · rw [coreStep_sample hbusy hp, sampleStep_hostSide y hs]

/-- A host write while a command runs changes the host's side only: STATUS has no flag to clear but WBUSY, and every
other write is dropped. -/
theorem writeWindow_sameCommandState {s u v : State} {offset : BitVec 8} {w : Word} (hs : Running s)
    (hu : SameCommandState s u) (h : writeWindow u offset w = .next v) :
    SameCommandState s v ∧ v.schedule = u.schedule := by
  obtain ⟨hb, hd, he, -⟩ := hs
  have hub : u.busy = true := by
    rw [hu]
    exact hb
  rcases writeWindow_cases h with rfl | ⟨-, rfl⟩ | ⟨-, rfl⟩ | ⟨-, hc⟩ | ⟨-, -, rfl⟩ | ⟨hidle, -⟩
  · exact ⟨hu, rfl⟩
  · rw [hu]
    exact ⟨rfl, rfl⟩
  · rw [hu]
    refine ⟨?_, rfl⟩
    simp only [SameCommandState, writeStatus, hd, he, Bool.false_and]
  · rw [next_unique hc (writeCmd_busy w hub), hu]
    exact ⟨rfl, rfl⟩
  · rw [hu]
    exact ⟨rfl, rfl⟩
  · simp [hub] at hidle

/-- A host access between two core steps changes the host's side only. -/
theorem step_sameCommandState {s u : State} {op : HostOp} {rest : List Event} (hs : Running s)
    (hu : SameCommandState s u) (hsched : u.schedule = .host op :: rest) (hop : interleaves (.host op) = true) :
    ∃ v, step u = .next v ∧ SameCommandState s v ∧ v.schedule = rest := by
  cases op with
  | wait => simp [interleaves] at hop
  | read offset width =>
    refine ⟨_, (step_host hsched).trans (if_pos hop), ?_, rfl⟩
    rw [hu]
    rfl
  | write offset width w =>
    obtain ⟨v, hv⟩ := writeWindow_next { u with schedule := rest } offset w
    have htaken : SameCommandState s { u with schedule := rest } := by
      rw [hu]
      rfl
    obtain ⟨hsame, hschedule⟩ := writeWindow_sameCommandState hs htaken hv
    exact ⟨v, ((step_host hsched).trans (if_pos hop)).trans hv, hsame, hschedule⟩

/-- A core slot takes the same core step on both sides. -/
theorem step_core_sameCommandState {s t u : State} {rest : List Event} (hu : SameCommandState s u)
    (hsched : u.schedule = .core :: rest) (h : coreStep s = .next t) :
    ∃ v, step u = .next v ∧ SameCommandState t v ∧ v.schedule = rest := by
  have htaken : { u with schedule := rest } = hostSide { u with schedule := rest } s := by
    rw [hu]
    rfl
  refine ⟨hostSide { u with schedule := rest } t, ?_, sameCommandState_hostSide _ t, rfl⟩
  rw [step_core hsched, htaken]
  exact coreStep_hostSide _ h

theorem run_succ {s t : State} (n : Nat) (h : step s = .next t) : run (n + 1) s = run n t := by
  simp [run, h]

/-- Core steps on `s` beside the same core steps on a machine that differs in the host's side, with host accesses in
between. -/
theorem run_interleaved {es : List Event} {s t u : State} (hinv : Inv s) (hu : SameCommandState s u)
    (hsched : u.schedule = es ++ [.core]) (hes : ∀ e ∈ es, interleaves e = true)
    (hbusy : ∀ k, k ≤ es.count .core → ∃ x, coreRun k s = .next x ∧ x.busy = true)
    (hrun : coreRun (es.count .core + 1) s = .next t) :
    ∃ v, run (es.length + 1) u = .next v ∧ v.schedule = [] ∧ SameCommandState t v := by
  induction es generalizing s u with
  | nil =>
    obtain ⟨v, hv, hsame, hschedule⟩ := step_core_sameCommandState hu hsched ((coreRun_one s).symm.trans hrun)
    exact ⟨v, run_succ 0 hv, hschedule, hsame⟩
  | cons e es ih =>
    have hrest : ∀ e ∈ es, interleaves e = true := fun e he => hes e (List.mem_cons_of_mem _ he)
    cases e with
    | rst => exact absurd (hes .rst List.mem_cons_self) Bool.false_ne_true
    | core =>
      rw [List.count_cons_self] at hbusy hrun
      obtain ⟨x, hx, hxrun⟩ := coreRun_succ_eq_next hrun
      obtain ⟨v, hv, hsame, hschedule⟩ := step_core_sameCommandState hu hsched hx
      have hxbusy (k : Nat) (hk : k ≤ es.count .core) : ∃ y, coreRun k x = .next y ∧ y.busy = true := by
        obtain ⟨y, hy, hyb⟩ := hbusy (k + 1) (by omega)
        exact ⟨y, (coreRun_succ k hx).symm.trans hy, hyb⟩
      obtain ⟨z, hz, hend⟩ := ih (hinv.coreStep hx) hsame hschedule hrest hxbusy hxrun
      exact ⟨z, (run_succ _ hv).trans hz, hend⟩
    | host op =>
      rw [List.count_cons_of_ne (by simp)] at hbusy hrun
      obtain ⟨x, hx, hb⟩ := hbusy 0 (Nat.zero_le _)
      cases hx
      obtain ⟨v, hv, hsame, hschedule⟩ :=
        step_sameCommandState (hinv.running hb) hu hsched (hes _ List.mem_cons_self)
      obtain ⟨z, hz, hend⟩ := ih hinv hsame hschedule hrest hbusy hrun
      exact ⟨z, (run_succ _ hv).trans hz, hend⟩

/-- Settles O58: the machine with the host's accesses and the command on its own start equal (`run_interleaved`). -/
theorem interleavedHostAccessesDoNotChangeACommandsResult :
    Obligations.InterleavedHostAccessesDoNotChangeACommandsResult :=
  fun _ _ _ hinv hsched hes hbusy hrun => run_interleaved hinv rfl hsched hes hbusy hrun

end Sys2Proof.Machine
end

section
/-! PROOFS of the statement about the fields without a specified reset value (spec/10_state.md R46,
spec/70_reset_and_hazards.md R230): two machines that differ in them alone cannot be told apart, because a command
writes such a field before it reads it. -/

namespace Sys2Proof.Machine

/-! What the two machines must agree on while a command is in progress. -/

/-- The samplers have the same size and width, have seen the same values, and have collected the same entries. -/
structure SampledAlike (s u : State) : Prop where
  sn : u.sn = s.sn
  sw : u.sw = s.sw
  seen : u.seen = s.seen
  cnt : u.cnt = s.cnt
  buf : ∀ j : Fin 16, j.val < s.cnt.toNat → u.buf[j] = s.buf[j]

/-- Of the fields without a reset value, the two machines agree on those that the command in progress has still to
read. -/
inductive Alike (s u : State) : Prop
  | perm (hp : s.phase = .perm) (ho : s.opl ∉ writesBox) (hwork : u.work = s.work)
  | comp (hp : s.phase = .comp) (ho : s.opl ∉ writesBox) (hwork : u.work = s.work) (hr5 : u.r5 = s.r5)
      (hr6 : u.r6 = s.r6)
  | latch (hp : s.phase = .sub1 ∨ s.phase = .bperm ∨ s.phase = .sub2 ∨ s.phase = .fb) (ho : s.opl ∉ writesBox)
      (hwork : u.work = s.work) (ht : u.t = s.t)
  | sample (hp : s.phase = .sample) (ho : s.opl ∈ writesBox) (hsampled : SampledAlike s u)
  | writeback (hp : s.phase = .wb) (hblock : s.opl ∈ writesBlock → u.work = s.work)
      (hresult : s.opl ∈ writesResult → u.t = s.t) (hbox : s.opl ∈ writesBox → SampledAlike s u ∧ s.cnt = s.sn)

/-- The two machines cannot be told apart, now or later. -/
structure Indistinct (s u : State) : Prop where
  scratch : SameButScratch s u
  op : s.busy = true → u.opl = s.opl
  alike : s.busy = true → Alike s u

/-- Two answers that cannot be told apart, now or later. -/
inductive Matched : Result → Result → Prop
  | next {s u : State} (h : Indistinct s u) : Matched (.next s) (.next u)
  | fault (f : Fault) : Matched (.fault f) (.fault f)
  | refused (r : Refusal) : Matched (.refused r) (.refused r)

theorem Indistinct.of_idle {s u : State} (h : SameButScratch s u) (hb : s.busy = false) : Indistinct s u :=
  ⟨h, fun hbusy => absurd (hb.symm.trans hbusy) Bool.false_ne_true,
    fun hbusy => absurd (hb.symm.trans hbusy) Bool.false_ne_true⟩

/-- The host sees none of the fields without a reset value. -/
theorem SameButScratch.sameVisible {s u : State} (h : SameButScratch s u) : SameVisible s u := by
  rw [h]
  exact ⟨fun _ => rfl, rfl, rfl, rfl, rfl⟩

/-! The core steps, phase by phase. -/

theorem permStep_indistinct {s u : State} (h : SameButScratch s u) (hop : u.opl = s.opl)
    (ho : s.opl ∉ writesBox) (hwork : u.work = s.work) : Indistinct (permStep s) (permStep u) := by
  obtain ⟨y, rfl⟩ : ∃ y : State, u = { s with
      r5 := y.r5, r6 := y.r6, t := y.t, argl := y.argl, tsell := y.tsell, strictl := y.strictl, sn := y.sn, sw := y.sw
      seen := y.seen, cnt := y.cnt, buf := y.buf } := ⟨u, h.trans (by rw [hop, hwork])⟩
  by_cases hpbox : s.opl = .pbox
  · rw [permStep, permStep, if_pos hpbox, if_pos hpbox]
    refine ⟨rfl, fun _ => rfl, fun _ => ?_⟩
    by_cases hlast : s.piter - 1 = 0
    · refine .writeback (if_pos hlast) (fun _ => rfl) (fun hr => ?_) fun hb => absurd hb ho
      simp [hpbox, writesResult] at hr
    · exact .perm (if_neg hlast) ho rfl
  · rw [permStep, permStep, if_neg hpbox, if_neg hpbox]
    exact ⟨rfl, fun _ => rfl, fun _ => .comp rfl ho rfl rfl rfl⟩

theorem compStep_fault {tables : Aut64Tables} {s : State} (h : ¬ s.rctr.toNat < 12) :
    compStep tables s = .fault .roundIndexBeyondTables := dif_neg h

/-- The state `s` with what `y` holds in the fields without a reset value that COMP does not read. -/
def compUnread (y s : State) : State :=
  { s with
    t := y.t, argl := y.argl, tsell := y.tsell, strictl := y.strictl, sn := y.sn, sw := y.sw, seen := y.seen
    cnt := y.cnt, buf := y.buf }

theorem compStep_compUnread_matched (y : State) {s : State} (hp : s.phase = .comp) (ho : s.opl ∉ writesBox) :
    Matched (compStep Config.tables s) (compStep Config.tables (compUnread y s)) := by
  by_cases hr : s.rctr.toNat < 12
  · by_cases h7 : s.bpos = 7
    · cases hterms : inverseTerms Config.tables s.key ⟨s.rctr.toNat, hr⟩ s.work with
      | none =>
        rw [compStep_degenerate hr h7 hterms, compStep_degenerate (s := compUnread y s) hr h7 hterms]
        exact .next (.of_idle rfl rfl)
      | some terms =>
        rw [compStep_last hr h7 hterms, compStep_last (s := compUnread y s) hr h7 hterms]
        refine .next ⟨rfl, fun _ => rfl, fun _ => ?_⟩
        by_cases hcompress : s.opl = .compress
        · exact .writeback (if_pos hcompress) (fun _ => rfl) (fun _ => rfl) fun hb => absurd hb ho
        · exact .latch (.inl (if_neg hcompress)) ho rfl rfl
    · rw [compStep_forward hr h7, compStep_forward (s := compUnread y s) hr h7]
      exact .next ⟨rfl, fun _ => rfl, fun _ => .comp hp ho rfl rfl rfl⟩
  · rw [compStep_fault hr, compStep_fault (s := compUnread y s) hr]
    exact .fault _

theorem compStep_matched {s u : State} (h : SameButScratch s u) (hop : u.opl = s.opl) (hp : s.phase = .comp)
    (ho : s.opl ∉ writesBox) (hwork : u.work = s.work) (hr5 : u.r5 = s.r5) (hr6 : u.r6 = s.r6) :
    Matched (compStep Config.tables s) (compStep Config.tables u) := by
  have hu : u = compUnread u s := h.trans (by rw [hop, hwork, hr5, hr6, compUnread])
  rw [hu]
  exact compStep_compUnread_matched u hp ho

/-- SUB1, BPERM and SUB2 make the same byte of the same T. -/
theorem latchStep_indistinct {s u : State} (h : SameButScratch s u) (hop : u.opl = s.opl) (ho : s.opl ∉ writesBox)
    (hwork : u.work = s.work) {p : Phase} (hp : p = .bperm ∨ p = .sub2 ∨ p = .fb) {b c : Byte} (hbc : c = b) :
    Indistinct { s with t := b, phase := p } { u with t := c, phase := p } := by
  refine ⟨?_, fun _ => hop, fun _ => .latch (.inr hp) ho hwork hbc⟩
  rw [h]
  rfl

theorem fbStep_indistinct {s u : State} (h : SameButScratch s u) (hop : u.opl = s.opl) (ho : s.opl ∉ writesBox)
    (hwork : u.work = s.work) (ht : u.t = s.t) : Indistinct (fbStep s) (fbStep u) := by
  obtain ⟨y, rfl⟩ : ∃ y : State, u = { s with
      r5 := y.r5, r6 := y.r6, argl := y.argl, tsell := y.tsell, strictl := y.strictl, sn := y.sn, sw := y.sw
      seen := y.seen, cnt := y.cnt, buf := y.buf } := ⟨u, h.trans (by rw [hop, hwork, ht])⟩
  refine ⟨rfl, fun _ => rfl, fun _ => ?_⟩
  by_cases hlast : s.rctr + 1 = s.rlimit
  · exact .writeback (if_pos hlast) (fun _ => rfl) (fun _ => rfl) fun hb => absurd hb ho
  · exact .perm (if_neg hlast) ho rfl

/-- The end of a SAMPLE step goes on sampling, or to a writeback for which all that is read has been collected. -/
theorem endSample_alike {s u : State} (ho : s.opl ∈ writesBox) (h : SampledAlike s u) :
    Alike (endSample s) (endSample u) := by
  obtain ⟨hsn, hsw, hseen, hcnt, hbuf⟩ := h
  have hend : SampledAlike (endSample s) (endSample u) := ⟨hsn, hsw, hseen, hcnt, hbuf⟩
  by_cases hfull : s.cnt = s.sn
  · refine .writeback (if_pos hfull) (fun hblock => ?_) (fun hresult => ?_) fun _ => ⟨hend, hfull⟩
    · exact absurd hblock (by revert ho; change s.opl ∈ writesBox → s.opl ∉ writesBlock; cases s.opl <;> decide)
    · exact absurd hresult (by revert ho; change s.opl ∈ writesBox → s.opl ∉ writesResult; cases s.opl <;> decide)
  · exact .sample (if_neg hfull) ho hend

theorem endSample_sameButScratch {s u : State} (h : SameButScratch s u) (hcnt : u.cnt = s.cnt) (hsn : u.sn = s.sn) :
    SameButScratch (endSample s) (endSample u) := by
  rw [h]
  simp only [SameButScratch, endSample, hcnt, hsn]

theorem sampleStep_fault {s : State} {d : Nibble} {rest : List Nibble} (h : s.rngIn = d :: rest)
    (hs : s.seen.getLsbD (draw s.sw d).toNat = false) (hc : ¬ s.cnt.toNat < 16) :
    sampleStep s = .fault .samplerOverrun := by
  simp [sampleStep, h, hs, hc]

theorem collect_sameButScratch {s u : State} (h : SameButScratch s u) (d : Nibble) (i j : Fin 16) :
    SameButScratch (collect d i s) (collect d j u) := by
  rw [h]
  rfl

/-- Both samplers collect the same value as the same entry. -/
theorem SampledAlike.collect {s u : State} (h : SampledAlike s u) {d : Nibble} (hc : s.cnt.toNat < 16)
    (hcu : u.cnt.toNat < 16) : SampledAlike (collect d ⟨s.cnt.toNat, hc⟩ s) (collect d ⟨u.cnt.toNat, hcu⟩ u) := by
  obtain ⟨hsn, hsw, hseen, hcnt, hbuf⟩ := h
  refine ⟨hsn, hsw, ?_, ?_, fun j hj => ?_⟩
  · simp only [Machine.collect, hseen]
  · simp only [Machine.collect, hcnt]
  · have hnext : (Machine.collect d ⟨s.cnt.toNat, hc⟩ s).cnt.toNat = s.cnt.toNat + 1 := by
      simp only [Machine.collect]
      bv_omega
    rw [hnext] at hj
    rw [collect_buf, collect_buf]
    simp only [hcnt]
    split_ifs with he
    · rfl
    · exact hbuf j (by grind)

theorem sampleStep_matched {s u : State} (h : SameButScratch s u) (hop : u.opl = s.opl) (hp : s.phase = .sample)
    (ho : s.opl ∈ writesBox) (hsampled : SampledAlike s u) : Matched (sampleStep s) (sampleStep u) := by
  have hrng : u.rngIn = s.rngIn := by rw [h]
  obtain ⟨hsn, hsw, hseen, hcnt, hbuf⟩ := hsampled
  cases hin : s.rngIn with
  | nil =>
    rw [sampleStep_wait hin, sampleStep_wait (hrng.trans hin)]
    exact .next ⟨h, fun _ => hop, fun _ => .sample hp ho ⟨hsn, hsw, hseen, hcnt, hbuf⟩⟩
  | cons d rest =>
    have htaken : SampledAlike { s with rngIn := rest } { u with rngIn := rest } := ⟨hsn, hsw, hseen, hcnt, hbuf⟩
    have hscratch : SameButScratch { s with rngIn := rest } { u with rngIn := rest } := by
      rw [h]
      rfl
    have hdraw : draw u.sw d = draw s.sw d := by rw [hsw]
    have hmark : u.seen.getLsbD (draw u.sw d).toNat = s.seen.getLsbD (draw s.sw d).toNat := by rw [hseen, hsw]
    cases hold : s.seen.getLsbD (draw s.sw d).toNat with
    | true =>
      rw [sampleStep_seen hin hold, sampleStep_seen (hrng.trans hin) (hmark.trans hold)]
      exact .next ⟨endSample_sameButScratch hscratch hcnt hsn, fun _ => hop, fun _ => endSample_alike ho htaken⟩
    | false =>
      by_cases hc : s.cnt.toNat < 16
      · have hcu : u.cnt.toNat < 16 := by rwa [hcnt]
        rw [sampleStep_new hin hold hc, sampleStep_new (hrng.trans hin) (hmark.trans hold) hcu, hdraw]
        have hcollect := htaken.collect (d := draw s.sw d) hc hcu
        exact .next ⟨endSample_sameButScratch (collect_sameButScratch hscratch _ _ _) hcollect.cnt hcollect.sn,
          fun _ => hop, fun _ => endSample_alike ho hcollect⟩
      · rw [sampleStep_fault hin hold hc, sampleStep_fault (hrng.trans hin) (hmark.trans hold) (by rwa [hcnt])]
        exact .fault _

/-- Both samplers write back the same box: it is made of collected entries only. -/
theorem writeSample_sameButScratch {s u : State} (h : SameButScratch s u) (hsampled : SampledAlike s u)
    (hfull : s.cnt = s.sn) : SameButScratch (writeSample s) (writeSample u) := by
  obtain ⟨hsn, -, -, -, hbuf⟩ := hsampled
  rw [writeSample_eq, writeSample_eq]
  by_cases h8 : s.sn = 8
  · have hbox : pboxOfBuf u.buf = pboxOfBuf s.buf := by
      refine Vector.ext fun j hj => ?_
      have hentry : u.buf[j] = s.buf[j] := hbuf ⟨j, by omega⟩ (by rw [hfull, h8]; exact hj)
      simp only [pboxOfBuf, Vector.getElem_ofFn, hentry]
    have h16 : s.sn ≠ 16 := by simp [h8]
    simp only [hsn, hbox, if_pos h8, if_neg h16]
    rw [h]
    rfl
  · by_cases h16 : s.sn = 16
    · have hbox : u.buf = s.buf :=
        Vector.ext fun j hj => hbuf ⟨j, hj⟩ (by rw [hfull, h16]; exact hj)
      simp only [hsn, hbox, if_neg h8, if_pos h16]
      rw [h]
      rfl
    · simp only [hsn, if_neg h8, if_neg h16]
      rw [h]
      rfl

theorem writeback_indistinct {s u : State} (h : SameButScratch s u) (hop : u.opl = s.opl)
    (hblock : s.opl ∈ writesBlock → u.work = s.work) (hresult : s.opl ∈ writesResult → u.t = s.t)
    (hbox : s.opl ∈ writesBox → SampledAlike s u ∧ s.cnt = s.sn) : Indistinct (writeback s) (writeback u) := by
  have hidle : (writeback s).busy = false := by rw [writeback_frame]
  refine .of_idle ?_ hidle
  by_cases ho : s.opl ∈ writesBox
  · obtain ⟨hsampled, hfull⟩ := hbox ho
    rw [writeback_of_writesBox ho, writeback_of_writesBox (by rwa [hop])]
    have hwritten := writeSample_sameButScratch h hsampled hfull
    rw [hwritten]
    rfl
  · have hlo : (if s.opl ∈ writesBlock then blockLoOf u.work else u.blockLo) =
        if s.opl ∈ writesBlock then blockLoOf s.work else s.blockLo :=
      ite_congr rfl (fun hb => by rw [hblock hb]) fun _ => by rw [h]
    have hhi : (if s.opl ∈ writesBlock then blockHiOf u.work else u.blockHi) =
        if s.opl ∈ writesBlock then blockHiOf s.work else s.blockHi :=
      ite_congr rfl (fun hb => by rw [hblock hb]) fun _ => by rw [h]
    have hres : (if s.opl ∈ writesResult then u.t else u.result) = if s.opl ∈ writesResult then s.t else s.result :=
      ite_congr rfl hresult fun _ => by rw [h]
    rw [writeback_eq, writeback_eq]
    simp only [hop, ho, false_and, if_false, hlo, hhi, hres]
    rw [h]
    rfl

/-- A core step of both machines. -/
theorem coreStep_matched {s u : State} (h : Indistinct s u) : Matched (coreStep s) (coreStep u) := by
  obtain ⟨hscratch, hop, halike⟩ := h
  have hub : u.busy = s.busy := by rw [hscratch]
  have hup : u.phase = s.phase := by rw [hscratch]
  cases hb : s.busy with
  | false =>
    rw [coreStep_idle hb, coreStep_idle (hub.trans hb)]
    exact .next (.of_idle hscratch hb)
  | true =>
    have hbu := hub.trans hb
    have ho := hop hb
    have hsubst : u.subst = s.subst := by rw [hscratch]; rfl
    have hperm : u.perm = s.perm := by rw [hscratch]; rfl
    cases halike hb with
    | perm hp hbox hwork =>
      rw [coreStep_perm hb hp, coreStep_perm hbu (hup.trans hp)]
      exact .next (permStep_indistinct hscratch ho hbox hwork)
    | comp hp hbox hwork hr5 hr6 =>
      rw [coreStep_comp hb hp, coreStep_comp hbu (hup.trans hp)]
      exact compStep_matched hscratch ho hp hbox hwork hr5 hr6
    | latch hp hbox hwork ht =>
      rcases hp with hp | hp | hp | hp
      · rw [coreStep_sub1 hb hp, coreStep_sub1 hbu (hup.trans hp)]
        exact .next (latchStep_indistinct hscratch ho hbox hwork (.inl rfl) (by rw [ht, hsubst]))
      · rw [coreStep_bperm hb hp, coreStep_bperm hbu (hup.trans hp)]
        exact .next (latchStep_indistinct hscratch ho hbox hwork (.inr (.inl rfl)) (by rw [ht, hperm]))
      · rw [coreStep_sub2 hb hp, coreStep_sub2 hbu (hup.trans hp)]
        exact .next (latchStep_indistinct hscratch ho hbox hwork (.inr (.inr rfl)) (by rw [ht, hsubst]))
      · rw [coreStep_fb hb hp, coreStep_fb hbu (hup.trans hp)]
        exact .next (fbStep_indistinct hscratch ho hbox hwork ht)
    | sample hp hbox hsampled =>
      rw [coreStep_sample hb hp, coreStep_sample hbu (hup.trans hp)]
      exact sampleStep_matched hscratch ho hp hbox hsampled
    | writeback hp hblock hresult hbox =>
      rw [coreStep_wb hb hp, coreStep_wb hbu (hup.trans hp)]
      exact .next (writeback_indistinct hscratch ho hblock hresult hbox)

/-! Presenting a command: every field that the command reads is written first. -/

theorem acceptError_scratch {s u : State} (h : SameButScratch s u) (i : Instr) : acceptError i u = acceptError i s := by
  rw [h]
  cases i <;> rfl

/-- The two machines latch the same, so that they differ in the other fields only. -/
def latchedUnread (y s : State) : State :=
  { s with
    work := y.work, r5 := y.r5, r6 := y.r6, t := y.t, sn := y.sn, sw := y.sw, seen := y.seen, cnt := y.cnt
    buf := y.buf }

theorem latchedFor_scratch {s u : State} (h : SameButScratch s u) (i : Instr) :
    latchedFor i u = latchedUnread u (latchedFor i s) := by
  rw [h]
  rfl

/-- A command that goes to its writeback at once and writes no box. -/
theorem alike_at_writeback {s u : State} {op : Op} (hp : s.phase = .wb) (ho : s.opl = op) (hbox : op ∉ writesBox)
    (hblock : op ∈ writesBlock → u.work = s.work) (hresult : op ∈ writesResult → u.t = s.t) : Alike s u := by
  subst ho
  exact .writeback hp hblock hresult fun h => absurd h hbox

/-- A sampler that starts has collected nothing yet. -/
theorem startSampler_alike {n : Byte} {s u : State} (ho : s.opl ∈ writesBox) :
    Alike (startSampler n s) (startSampler n u) :=
  .sample rfl ho ⟨rfl, rfl, rfl, rfl, fun _ hj => absurd hj (Nat.not_lt_zero _)⟩

/-- A command that is accepted has written what its first phase reads. -/
theorem initOf_alike {i : Instr} (y : State) {s : State} (h : acceptError i s = none) :
    Alike (initOf i (latchedFor i s)) (initOf i (latchedUnread y (latchedFor i s))) := by
  cases i with
  | encrypt a =>
    by_cases ha : a = 0
    · exact alike_at_writeback (op := .encrypt) (if_pos ha) rfl (by decide) (fun _ => rfl) fun h => absurd h (by decide)
    · exact .perm (if_neg ha) (show Op.encrypt ∉ writesBox by decide) rfl
  | pbox n =>
    by_cases hn : n = 0
    · exact alike_at_writeback (op := .pbox) (if_pos hn) rfl (by decide) (fun _ => rfl) fun h => absurd h (by decide)
    · exact .perm (if_neg hn) (show Op.pbox ∉ writesBox by decide) rfl
  | round a => exact .perm rfl (show Op.round ∉ writesBox by decide) rfl
  | compress a => exact .comp rfl (show Op.compress ∉ writesBox by decide) rfl rfl rfl
  | sbox d => exact alike_at_writeback (op := .sbox) rfl rfl (by decide) (fun h => absurd h (by decide)) fun _ => rfl
  | pboxbit d =>
    exact alike_at_writeback (op := .pboxbit) rfl rfl (by decide) (fun h => absurd h (by decide)) fun _ => rfl
  | tableRead x a =>
    obtain ⟨b, hentry⟩ := exists_tableEntry h
    refine alike_at_writeback (op := .tableRead) rfl rfl (by decide) (fun h => absurd h (by decide)) fun _ => ?_
    simp only [initOf, hentry, Option.getD_some]
    rfl
  | randperm n => exact startSampler_alike (show Op.randperm ∈ writesBox by decide)
  | randsbox => exact startSampler_alike (show Op.randsbox ∈ writesBox by decide)
  | randpbox => exact startSampler_alike (show Op.randpbox ∈ writesBox by decide)
  | nop =>
    exact alike_at_writeback (op := .nop) rfl rfl (by decide) (fun h => absurd h (by decide))
      fun h => absurd h (by decide)
  | enumReset =>
    exact alike_at_writeback (op := .enumReset) rfl rfl (by decide) (fun h => absurd h (by decide))
      fun h => absurd h (by decide)
  | enumNext =>
    exact alike_at_writeback (op := .enumNext) rfl rfl (by decide) (fun h => absurd h (by decide))
      fun h => absurd h (by decide)

theorem initOf_indistinct {i : Instr} (y : State) {s : State} (h : acceptError i s = none) :
    Indistinct (initOf i (latchedFor i s)) (initOf i (latchedUnread y (latchedFor i s))) := by
  refine ⟨?_, fun _ => ?_, fun _ => initOf_alike y h⟩ <;> cases i <;> rfl

/-! The host's accesses, and the events. -/

/-- An update of fields that neither a core step of a command in progress nor `Alike` reads keeps two machines
indistinct. -/
theorem Indistinct.update {s u t v : State} (h : Indistinct s u)
    (ht : t = { s with
      irqEn := t.irqEn, strictKey := t.strictKey, done := t.done, err := t.err, wbusy := t.wbusy
      schedule := t.schedule, rdata := t.rdata })
    (hv : v = { u with
      irqEn := t.irqEn, strictKey := t.strictKey, done := t.done, err := t.err, wbusy := t.wbusy
      schedule := t.schedule, rdata := t.rdata }) : Indistinct t v := by
  obtain ⟨hscratch, hop, halike⟩ := h
  rw [hv, ht]
  refine ⟨?_, hop, fun hb => ?_⟩
  · rw [hscratch]
    rfl
  · cases halike hb with
    | perm hp ho hwork => exact .perm hp ho hwork
    | comp hp ho hwork hr5 hr6 => exact .comp hp ho hwork hr5 hr6
    | latch hp ho hwork ht => exact .latch hp ho hwork ht
    | sample hp ho hsampled =>
      obtain ⟨hsn, hsw, hseen, hcnt, hbuf⟩ := hsampled
      exact .sample hp ho ⟨hsn, hsw, hseen, hcnt, hbuf⟩
    | writeback hp hblock hresult hbox =>
      refine .writeback hp hblock hresult fun ho => ?_
      obtain ⟨⟨hsn, hsw, hseen, hcnt, hbuf⟩, hfull⟩ := hbox ho
      exact ⟨⟨hsn, hsw, hseen, hcnt, hbuf⟩, hfull⟩

theorem Indistinct.busy {s u : State} (h : Indistinct s u) : u.busy = s.busy := by rw [h.scratch]

theorem dropWrite_indistinct {s u : State} (h : Indistinct s u) : Indistinct (dropWrite s) (dropWrite u) := by
  refine h.update rfl ?_
  rw [h.scratch]
  rfl

theorem exec_matched {s u : State} (h : Indistinct s u) (i : Instr) : Matched (exec i s) (exec i u) := by
  cases hb : s.busy with
  | true =>
    rw [exec_busy i hb, exec_busy i (h.busy.trans hb)]
    exact .next (dropWrite_indistinct h)
  | false =>
    have hbu := h.busy.trans hb
    have herror := acceptError_scratch h.scratch i
    have hlatched := latchedFor_scratch h.scratch i
    cases hc : acceptError i s with
    | some code =>
      rw [exec_eq, exec_eq, accept_fails hb ((firstFailure_checksOf i s).trans hc),
        accept_fails hbu ((firstFailure_checksOf i u).trans (herror.trans hc)), hlatched]
      exact .next (.of_idle rfl rfl)
    | none =>
      rw [exec_accepted hb hc, exec_accepted hbu (herror.trans hc), hlatched]
      exact .next (initOf_indistinct u hc)

theorem acceptIllegal_matched {s u : State} (h : Indistinct s u) : Matched (acceptIllegal s) (acceptIllegal u) := by
  cases hb : s.busy with
  | true =>
    rw [acceptIllegal_busy hb, acceptIllegal_busy (h.busy.trans hb)]
    exact .next (dropWrite_indistinct h)
  | false =>
    rw [acceptIllegal_idle hb, acceptIllegal_idle (h.busy.trans hb)]
    refine .next (.of_idle ?_ rfl)
    rw [h.scratch]
    rfl

/-- A write of a data register, which is none of the fields without a reset value. -/
theorem writeData_indistinct {s u : State} (h : Indistinct s u) {write : State → State}
    (hbusy : (write s).busy = s.busy) (hwrite : SameButScratch (write s) (write u)) :
    Indistinct (writeData write s) (writeData write u) := by
  cases hb : s.busy with
  | true =>
    rw [writeData_busy hb, writeData_busy (h.busy.trans hb)]
    exact dropWrite_indistinct h
  | false =>
    rw [writeData_idle hb, writeData_idle (h.busy.trans hb)]
    exact .of_idle hwrite (hbusy.trans hb)

theorem writeReg_matched {s u : State} (h : Indistinct s u) (v : Word) (r : Reg) :
    Matched (writeReg s v r) (writeReg u v r) := by
  cases r with
  | ctrl | status =>
    refine .next (h.update rfl ?_)
    rw [h.scratch]
    rfl
  | cmd =>
    simp only [writeReg, writeCmd]
    split
    · exact exec_matched h _
    · exact acceptIllegal_matched h
  | result | enum => exact .next h
  | blockLo | blockHi | keyReg | pbox | sboxLo | sboxHi =>
    refine .next (writeData_indistinct h rfl ?_)
    rw [h.scratch]
    rfl

theorem writeWindow_matched {s u : State} (h : Indistinct s u) (offset : BitVec 8) (v : Word) :
    Matched (writeWindow s offset v) (writeWindow u offset v) := by
  unfold writeWindow
  split
  · exact writeReg_matched h v _
  · exact .next h

theorem pollStatus_indistinct {s u : State} (h : Indistinct s u) : Indistinct (pollStatus s) (pollStatus u) := by
  have hstatus : statusWord u = statusWord s := by rw [h.scratch]; rfl
  cases hb : s.busy with
  | true =>
    rw [pollStatus_busy hb, pollStatus_busy (h.busy.trans hb), hstatus]
    refine h.update rfl ?_
    rw [h.scratch]
  | false =>
    rw [pollStatus_idle hb, pollStatus_idle (h.busy.trans hb), hstatus]
    refine h.update rfl ?_
    rw [h.scratch]

theorem hostStep_matched {s u : State} (h : Indistinct s u) (op : HostOp) :
    Matched (hostStep op s) (hostStep op u) := by
  cases op with
  | wait => exact .next (pollStatus_indistinct h)
  | read offset width =>
    have hread : readWindow u offset = readWindow s offset := (h.scratch.sameVisible.1 offset).symm
    simp only [hostStep, hread]
    split
    · refine .next (h.update rfl ?_)
      rw [h.scratch]
    · exact .refused _
  | write offset width v =>
    simp only [hostStep]
    split
    · exact writeWindow_matched h offset v
    · exact .refused _

theorem takeEvent_matched {s u : State} (h : Indistinct s u) (e : Event) : Matched (takeEvent e s) (takeEvent e u) := by
  cases e with
  | host op => exact hostStep_matched h op
  | core => exact coreStep_matched h
  | rst =>
    refine .next (.of_idle ?_ rfl)
    rw [h.scratch]
    rfl

theorem step_matched {s u : State} (h : Indistinct s u) : Matched (step s) (step u) := by
  have hsched : u.schedule = s.schedule := by rw [h.scratch]
  unfold step advance
  rw [hsched]
  split
  · exact coreStep_matched h
  · rename_i e rest _
    refine takeEvent_matched (h.update rfl ?_) e
    rw [h.scratch]

/-- So the two machines stay indistinct in every run. -/
theorem run_sameResult {s u : State} (h : Indistinct s u) (n : Nat) : SameResult (run n s) (run n u) := by
  induction n generalizing s u with
  | zero => exact h.scratch.sameVisible
  | succ n ih =>
    have hstep := step_matched h
    simp only [run]
    generalize step s = a, step u = b at hstep
    cases hstep with
    | next h' => exact ih h'
    | fault f => rfl
    | refused r => rfl

/-- Settles O59: two idle machines that differ in the fields without a reset value are indistinct
(`Indistinct.of_idle`), and stay so (`run_sameResult`). -/
theorem unspecifiedResetValuesAreNeverObserved : Obligations.UnspecifiedResetValuesAreNeverObserved :=
  fun _ _ h hb _ n => run_sameResult (.of_idle h hb) n

end Sys2Proof.Machine
end
